-- ==== Sys2Proof/Word.lean ====
section
/-! DEFINITION. The two word types of the EVF: the byte of the buffers and of every byte sequence
(00_scope.md R10), and the 32-bit word of the bus and of every register (10_state.md R23). -/

namespace Sys2Proof

/-- A byte, an integer 0..255 (R10). -/
abbrev Byte := BitVec 8

/-- A bus word or register value (R23, R61). -/
abbrev Word := BitVec 32

end Sys2Proof
end

