-- ==== Sys2Proof/Config.lean ====
section
/-! DEFINITION. The named parameters of the EVF (00_scope.md R8, R16), and the one free value: how many
host steps come between the issue of a command and its completion (60_exceptions.md R274;
93_implementation_defined.md U8). -/

namespace Sys2Proof

/-- The three named parameters of 00_scope.md R8, with their defaults.  They are configuration, not
state (R16): a state carries them so that every statement holds for each value, and no step changes
them (log 4, DESIGN CHOICE). -/
structure Params where
  /-- BUF_BYTES, the capacity of each of IN_BUF and OUT_BUF in bytes. -/
  bufBytes : Nat := 4096
  /-- B64_IGNORE_CRLF (45_decode_lenient.md R212). -/
  b64IgnoreCrlf : Bool := false
  /-- B64_STRICT_TAIL (45_decode_lenient.md R213). -/
  b64StrictTail : Bool := false
  deriving DecidableEq, Repr

/-- FREE VALUE (log 1): the number of host steps between the issue and the completion of the n-th
command whose delay the state's own list does not give.  The spec leaves it open but finite (R274,
U8), so it is a natural number with no body. -/
opaque Config.latency : Nat → Nat

end Sys2Proof
end

