-- ==== Sys2Proof/Machine/State.lean ====
section
/-! DEFINITION. The state of the EVF as plain data: 10_state.md R20 to R46, with the world outside it
(the host's coming transactions, the values it has read, the interleaving) as plain data beside it. -/

namespace Sys2Proof.Machine

/-- The engine state, 10_state.md R21. -/
inductive Fsm where
  | idle
  | busy
  deriving DecidableEq, Repr

/-- The error kinds of a command, 60_exceptions.md R270. -/
inductive Err where
  | invalidKeySize
  | shortCiphertext
  | unalignedCiphertext
  | invalidPadding
  | truncatedPlaintext
  | lengthOverflow
  | base64DecodeError
  | illegalCommand
  | capacityExceeded
  deriving DecidableEq, Repr

/-- The host-addressable registers, 10_state.md R23. -/
inductive Reg where
  | ident
  | cap
  | ctrl
  | cmd
  | status
  | errcode
  | keyLen
  | key (i : Fin 8)
  | nonce (i : Fin 4)
  | iv (i : Fin 4)
  | plen
  | ilen
  | inLen
  | outLen
  | resPoff
  | resPlen
  | resIoff
  | resIlen
  deriving DecidableEq, Repr

/-- What a bus address selects, 20_memory.md R68.  A buffer window carries the buffer index of the
word's lane 0. -/
inductive Target where
  | reg (r : Reg)
  | reservedReg
  | inBuf (o : Nat)
  | outBuf (o : Nat)
  | reserved
  deriving DecidableEq, Repr

/-- What a command that succeeds writes (60_exceptions.md R275): the bytes of OUT_BUF from index 0, of
which OUT_LEN is the count, and the result registers its rule lists. `none` is a register the rule does
not write. -/
structure Output where
  bytes : List Byte
  poff : Option Nat := none
  plen : Option Nat := none
  ioff : Option Nat := none
  ilen : Option Nat := none
  deriving DecidableEq, Repr

/-- One step of the world outside the EVF: a bus transaction, written as its BUS64 word
(30_encoding.md R85), or a hardware reset (70_reset_and_hazards.md R300). -/
inductive Event where
  | txn (w : BitVec 64)
  | reset
  deriving DecidableEq, Repr

/-- A byte array as (index, byte) pairs in the canonical form `Memory.wf`.  An unlisted index reads 0,
the reset contents of both buffers (10_state.md R43, R44). -/
abbrev Memory := List Host.Cell

/-- The canonical form: indices strictly rising, and no entry equal to what an unlisted index reads as. -/
abbrev Memory.wf (m : Memory) : Prop :=
  m.Pairwise (fun c d => c.1 < d.1) ∧ ∀ c ∈ m, c.2 ≠ 0#8

/-- The architectural state (R20), the parameters it runs under, and the world outside as plain data. -/
structure State where
  /-- The parameters, R8 (configuration: no step changes it). -/
  params : Params
  /-- The engine state, R21. -/
  fsm : Fsm
  /-- CMDW, the latched command word, R21. -/
  cmdw : Word
  /-- CTRL.IRQ_EN, R26. -/
  irqEn : Bool
  /-- STATUS.DONE, R28. -/
  done : Bool
  /-- STATUS.OVR, R28. -/
  ovr : Bool
  /-- ERRCODE.CODE, R29. -/
  errcode : BitVec 4
  /-- KEY_LEN, R30. -/
  keyLen : Word
  /-- KEY0..KEY7, R31. -/
  key : Vector Word 8
  /-- NONCE0..NONCE3, R32. -/
  nonce : Vector Word 4
  /-- IV0..IV3, R33. -/
  iv : Vector Word 4
  /-- PLEN, R34. -/
  plen : Word
  /-- ILEN, R35. -/
  ilen : Word
  /-- IN_LEN, R36. -/
  inLen : Word
  /-- OUT_LEN, R37. -/
  outLen : Word
  /-- RES_POFF, R38. -/
  resPoff : Word
  /-- RES_PLEN, R39. -/
  resPlen : Word
  /-- RES_IOFF, R40. -/
  resIoff : Word
  /-- RES_ILEN, R41. -/
  resIlen : Word
  /-- IN_BUF, R43. -/
  inBuf : Memory
  /-- OUT_BUF, R44. -/
  outBuf : Memory
  /-- Outside: the host-side events not yet performed, first first (log 5). -/
  inputs : List Event
  /-- Outside: the values RD transactions have returned, oldest first (R17; log 6). -/
  responses : List Word
  /-- Schedule: while BUSY, how many more host steps come before the engine step (log 1). -/
  wait : Nat
  /-- Schedule: the delays chosen for the coming commands, first first (log 1). -/
  latencies : List Nat
  /-- Schedule: the counter the free value `Config.latency` is applied to (log 1). -/
  issues : Nat
  deriving DecidableEq, Repr

/-- 70_reset_and_hazards.md R300: every register 0, both buffers 0, IDLE, under the default parameters
of R8.  Nothing is placed in `inputs`; the schedule fields start at the values of log 1. -/
def State.reset : State where
  params := {}
  fsm := .idle
  cmdw := 0
  irqEn := false
  done := false
  ovr := false
  errcode := 0
  keyLen := 0
  key := Vector.replicate 8 0
  nonce := Vector.replicate 4 0
  iv := Vector.replicate 4 0
  plen := 0
  ilen := 0
  inLen := 0
  outLen := 0
  resPoff := 0
  resPlen := 0
  resIoff := 0
  resIlen := 0
  inBuf := []
  outBuf := []
  inputs := []
  responses := []
  wait := 0
  latencies := []
  issues := 0

/-- The machine never stops with a fault: no transaction faults (46_host_bus.md R241, R242), no command
aborts (00_scope.md R18), and every error is a command outcome in ERRCODE (60_exceptions.md R270).  So
the type of faults is empty: nothing raises one (log 11; safe, for no claim can rest on a fault). -/
inductive Fault where
  deriving DecidableEq, Repr

/-- Why a step has no meaning. -/
inductive Refusal where
  /-- Raised by `exec` for an instruction whose meaning is not written: safe. -/
  | notModelled (mnemonic : String)
  /-- Raised by the step for a 64-bit word in `inputs` that is no transaction (30_encoding.md R86: a
  decoder "refuses it, naming the word"): safe, the EVF never receives such a word. -/
  | notATransaction (word : BitVec 64)
  deriving DecidableEq, Repr

end Sys2Proof.Machine
end

