-- ==== Sys2Proof/Machine/Flags.lean ====
section
/-! DEFINITION. The flags: error codes (60_exceptions.md R270), the STATUS and CTRL words
(10_state.md R26, R28; 46_host_bus.md R241) and the IRQ output (60_exceptions.md R280). -/

namespace Sys2Proof.Machine

/-- The number of each error kind, 60_exceptions.md R270. -/
def Err.code : Err → BitVec 4
  | .invalidKeySize => 1
  | .shortCiphertext => 2
  | .unalignedCiphertext => 3
  | .invalidPadding => 4
  | .truncatedPlaintext => 5
  | .lengthOverflow => 6
  | .base64DecodeError => 7
  | .illegalCommand => 8
  | .capacityExceeded => 9

/-- STATUS.BUSY: 1 when `fsm = BUSY` (10_state.md R21, R28). -/
def State.busyFlag (s : State) : Bool := s.fsm == .busy

/-- STATUS.ERR: reads as 1 exactly when ERRCODE.CODE != 0 (10_state.md R28). -/
def State.errFlag (s : State) : Bool := s.errcode != 0

/-- A flag as a word with only bit 0 in use. -/
def flagWord (b : Bool) : Word := (BitVec.ofBool b).setWidth 32

/-- The value STATUS reads: BUSY | DONE<<1 | ERR<<2 | OVR<<3 (46_host_bus.md R241). -/
def State.statusWord (s : State) : Word :=
  flagWord s.busyFlag ||| flagWord s.done <<< 1 ||| flagWord s.errFlag <<< 2 ||| flagWord s.ovr <<< 3

/-- The value CTRL reads: IRQ_EN in bit 0, SRST and the reserved bits 0 (10_state.md R26). -/
def State.ctrlWord (s : State) : Word := flagWord s.irqEn

/-- The value ERRCODE reads: CODE in bits [3:0], bits [31:4] 0 (10_state.md R29). -/
def State.errcodeWord (s : State) : Word := s.errcode.setWidth 32

/-- The interrupt output, a level: `IRQ = CTRL.IRQ_EN AND STATUS.DONE` (60_exceptions.md R280). -/
def State.irq (s : State) : Bool := s.irqEn && s.done

end Sys2Proof.Machine
end

