-- ==== Sys2Proof/Machine/Ops.lean ====
section
/-! DEFINITION. The named operations over the buffers and the registers, and the machine's few state
changes: an RD's response, the issue of a command (46_host_bus.md R246), its completion
(60_exceptions.md R274 to R277), the acknowledge (R278) and reset (70_reset_and_hazards.md R300, R301). -/

namespace Sys2Proof.Machine

/-! ### The buffers -/

/-- The byte at an index; an unlisted index reads 0 (10_state.md R43, R44). -/
def Memory.read : Memory → Nat → Byte
  | [], _ => 0#8
  | (a, v) :: m, x => if x = a then v else Memory.read m x

/-- Write one byte, keeping the canonical form: writing 0 removes the entry. -/
def Memory.write : Memory → Nat → Byte → Memory
  | [], x, v => if v = 0#8 then [] else [(x, v)]
  | (a, w) :: m, x, v =>
    if x < a then (if v = 0#8 then (a, w) :: m else (x, v) :: (a, w) :: m)
    else if x = a then (if v = 0#8 then m else (x, v) :: m)
    else (a, w) :: Memory.write m x v

/-- `MemRead`: the n bytes from index `off` (00_scope.md R12). -/
def Memory.readBytes (m : Memory) (off n : Nat) : List Byte :=
  (List.range n).map (fun i => m.read (off + i))

/-- `MemWrite`: the bytes of `s` from index `off` on (00_scope.md R12). -/
def Memory.writeBytes : Memory → Nat → List Byte → Memory
  | m, _, [] => m
  | m, off, b :: s => Memory.writeBytes (m.write off b) (off + 1) s

/-! ### The host's observation -/

/-- An RD returns `v` to the host (46_host_bus.md R241; 00_scope.md R17). -/
def State.respond (s : State) (v : Word) : State :=
  { s with responses := s.responses ++ [v] }

/-! ### Issue: the entry of a command (60_exceptions.md R273) -/

/-- The writes of 46_host_bus.md R246. -/
def State.accept (s : State) (w : Word) : State :=
  { s with
    cmdw := w
    fsm := .busy
    done := false
    errcode := 0
    outLen := 0
    resPoff := 0
    resPlen := 0
    resIoff := 0
    resIlen := 0
    outBuf := [] }

/-- The free choice of R274: how many host steps come before this command's completion, from the
state's own list, and the free value `Config.latency` where the list gives none (log 1). -/
def State.drawWait (s : State) : State :=
  match s.latencies with
  | n :: rest => { s with wait := n, latencies := rest }
  | [] => { s with wait := Config.latency s.issues, issues := s.issues + 1 }

/-- A command is issued: 46_host_bus.md R246, and its delay is drawn. -/
def State.issue (s : State) (w : Word) : State := (s.accept w).drawWait

/-! ### Completion: success or error, then the key is consumed -/

/-- The register's new value: the one the command writes, or the one it had. -/
def written (o : Option Nat) (old : Word) : Word :=
  match o with
  | some n => BitVec.ofNat 32 n
  | none => old

/-- 60_exceptions.md R275: the output writes of a successful command. -/
def State.emit (s : State) (o : Output) : State :=
  { s with
    outBuf := s.outBuf.writeBytes 0 o.bytes
    outLen := BitVec.ofNat 32 o.bytes.length
    resPoff := written o.poff s.resPoff
    resPlen := written o.plen s.resPlen
    resIoff := written o.ioff s.resIoff
    resIlen := written o.ilen s.resIlen }

/-- 60_exceptions.md R276: an error sets ERRCODE.CODE and performs no output write. -/
def State.raise (s : State) (e : Err) : State := { s with errcode := e.code }

/-- 60_exceptions.md R277: every completion sets KEY0..KEY7 and KEY_LEN to 0. -/
def State.consumeKey (s : State) : State :=
  { s with key := Vector.replicate 8 0, keyLen := 0 }

/-- The last writes of 60_exceptions.md R274. -/
def State.finish (s : State) : State := { s with fsm := .idle, done := true }

/-- The completion of a command with outcome `r`, in one atomic step (60_exceptions.md R274): R275 or
R276, then R277, then IDLE and DONE. -/
def State.complete (s : State) (r : Except Err Output) : State :=
  match r with
  | .ok o => (s.emit o).consumeKey.finish
  | .error e => (s.raise e).consumeKey.finish

/-- 60_exceptions.md R278: the acknowledge, the return from a completion. -/
def State.acknowledge (s : State) : State := { s with done := false }

/-! ### Reset -/

/-- 70_reset_and_hazards.md R300: every register and both buffers at their reset values.  The
parameters are the EVF's, and what is outside it (the host's coming events, what the host has read, the
schedule) is not the EVF's to reset (log 5). -/
def State.hardReset (s : State) : State :=
  { State.reset with
    params := s.params
    inputs := s.inputs
    responses := s.responses
    latencies := s.latencies
    issues := s.issues }

end Sys2Proof.Machine
end

