-- ==== Sys2Proof/Machine/Operands.lean ====
section
/-! DEFINITION. Operands: byte lanes and sequences (20_memory.md R61; 10_state.md R31 to R33),
big-endian integers (00_scope.md R11), and the address map (10_state.md R23; 20_memory.md R68). -/

namespace Sys2Proof.Machine

/-! ### Bytes and words -/

/-- Byte lane j of a word: data bits [8j+7:8j] (20_memory.md R61). -/
def lane (w : Word) (j : Nat) : Byte := w.extractLsb' (8 * j) 8

/-- The word whose lanes 0..3 are the four bytes (20_memory.md R61). -/
def wordOfLanes (b0 b1 b2 b3 : Byte) : Word := b3 ++ b2 ++ b1 ++ b0

/-- The four bytes of a word, lane 0 first. -/
def wordBytes (w : Word) : List Byte := [lane w 0, lane w 1, lane w 2, lane w 3]

/-- The byte sequence held by a run of registers: byte 4i+j in lane j of the i-th (20_memory.md R61). -/
def seqBytes (ws : List Word) : List Byte := ws.flatMap wordBytes

/-- KEY, 10_state.md R31. -/
def State.keyBytes (s : State) : List Byte := seqBytes s.key.toList

/-- NONCE, 10_state.md R32. -/
def State.nonceBytes (s : State) : List Byte := seqBytes s.nonce.toList

/-- IVREG, 10_state.md R33. -/
def State.ivBytes (s : State) : List Byte := seqBytes s.iv.toList

/-- `s[a:b)`, 00_scope.md R10. -/
def slice (s : List Byte) (a b : Nat) : List Byte := (s.drop a).take (b - a)

/-- `BE32(n)`, 00_scope.md R11. -/
def be32 (n : Nat) : List Byte :=
  [BitVec.ofNat 8 (n / 2 ^ 24), BitVec.ofNat 8 (n / 2 ^ 16), BitVec.ofNat 8 (n / 2 ^ 8), BitVec.ofNat 8 n]

/-- `beval(s)`, 00_scope.md R11. -/
def beval (s : List Byte) : Nat :=
  2 ^ 24 * (s.getD 0 0).toNat + 2 ^ 16 * (s.getD 1 0).toNat + 2 ^ 8 * (s.getD 2 0).toNat
    + (s.getD 3 0).toNat

/-- `MemRead(IN, off, n)`, 00_scope.md R12. -/
def State.inBytes (s : State) (off n : Nat) : List Byte := s.inBuf.readBytes off n

/-- The primary-path IV `KEY[0:16)`, 40_cipher.md R106. -/
def State.keyIv (s : State) : List Byte := slice s.keyBytes 0 16

/-! ### The address map -/

/-- The register map of 10_state.md R23: each register's byte offset. -/
def registerMap : List (Nat × Reg) :=
  [(0x000, .ident), (0x004, .cap), (0x008, .ctrl), (0x00C, .cmd), (0x010, .status), (0x014, .errcode),
   (0x018, .keyLen),
   (0x020, .key 0), (0x024, .key 1), (0x028, .key 2), (0x02C, .key 3), (0x030, .key 4), (0x034, .key 5),
   (0x038, .key 6), (0x03C, .key 7),
   (0x040, .nonce 0), (0x044, .nonce 1), (0x048, .nonce 2), (0x04C, .nonce 3),
   (0x050, .iv 0), (0x054, .iv 1), (0x058, .iv 2), (0x05C, .iv 3),
   (0x060, .plen), (0x064, .ilen), (0x068, .inLen), (0x070, .outLen), (0x074, .resPoff),
   (0x078, .resPlen), (0x07C, .resIoff), (0x080, .resIlen)]

/-- The register at a byte offset of the register block; none at a reserved offset (10_state.md R42). -/
def regAt (o : Nat) : Option Reg := registerMap.lookup o

/-- The word a transaction addresses, `W = A - (A mod 4)` (20_memory.md R61). -/
def wordAddr (a : BitVec 18) : Nat := a.toNat - a.toNat % 4

/-- What a bus address selects, 20_memory.md R68. -/
def target (a : BitVec 18) : Target :=
  let w := wordAddr a
  if w < 0x00100 then
    match regAt w with
    | some r => .reg r
    | none => .reservedReg
  else if w < 0x10000 then .reserved
  else if w < 0x20000 then .inBuf (w - 0x10000)
  else if w < 0x30000 then .outBuf (w - 0x20000)
  else .reserved

/-- The target lies in the register block (R68). -/
def Target.inRegBlock : Target → Bool
  | .reg _ => true
  | .reservedReg => true
  | .inBuf _ => false
  | .outBuf _ => false
  | .reserved => false

/-- The gated registers of 46_host_bus.md R244. -/
def Reg.gated : Reg → Bool
  | .cmd => true
  | .keyLen => true
  | .key _ => true
  | .nonce _ => true
  | .iv _ => true
  | .plen => true
  | .ilen => true
  | .inLen => true
  | .ident => false
  | .cap => false
  | .ctrl => false
  | .status => false
  | .errcode => false
  | .outLen => false
  | .resPoff => false
  | .resPlen => false
  | .resIoff => false
  | .resIlen => false

/-- The gated targets of 46_host_bus.md R244: the gated registers and the whole IN_BUF window. -/
def Target.gated : Target → Bool
  | .reg r => r.gated
  | .inBuf _ => true
  | .reservedReg => false
  | .outBuf _ => false
  | .reserved => false

end Sys2Proof.Machine
end

