-- ==== Sys2Proof/Machine/Bus.lean ====
section
/-! DEFINITION. The host bus transactions RD and WR, 46_host_bus.md R240 to R251. -/

namespace Sys2Proof.Machine

/-! ### RD -/

/-- The value a register reads as, 46_host_bus.md R241 and 10_state.md R24 to R41.  CMD and KEY0..KEY7
read 0 whatever they hold. -/
def State.readReg (s : State) : Reg → Word
  | .ident => 0x454E5631
  | .cap => BitVec.ofNat 32 s.params.bufBytes
  | .ctrl => s.ctrlWord
  | .cmd => 0
  | .status => s.statusWord
  | .errcode => s.errcodeWord
  | .keyLen => s.keyLen
  | .key _ => 0
  | .nonce i => s.nonce[i]
  | .iv i => s.iv[i]
  | .plen => s.plen
  | .ilen => s.ilen
  | .inLen => s.inLen
  | .outLen => s.outLen
  | .resPoff => s.resPoff
  | .resPlen => s.resPlen
  | .resIoff => s.resIoff
  | .resIlen => s.resIlen

/-- A window byte: the buffer's byte below BUF_BYTES, 0 from there on (20_memory.md R68). -/
def windowByte (p : Params) (m : Memory) (x : Nat) : Byte :=
  if x < p.bufBytes then m.read x else 0

/-- A window word, lane j from index o + j (46_host_bus.md R241). -/
def windowWord (p : Params) (m : Memory) (o : Nat) : Word :=
  wordOfLanes (windowByte p m o) (windowByte p m (o + 1)) (windowByte p m (o + 2))
    (windowByte p m (o + 3))

/-- The value RD returns, 46_host_bus.md R241. -/
def State.busRead (s : State) (a : BitVec 18) : Word :=
  match target a with
  | .reg r => s.readReg r
  | .reservedReg => 0
  | .inBuf o => windowWord s.params s.inBuf o
  | .outBuf o => windowWord s.params s.outBuf o
  | .reserved => 0

/-- RD(A), 46_host_bus.md R241: the response is the value at W, and nothing else changes. -/
def execRd (a : BitVec 18) (s : State) : Host.Outcome State Fault Refusal :=
  .next (s.respond (s.busRead a))

/-! ### WR -/

/-- CTRL write, 46_host_bus.md R245: IRQ_EN first, then a soft reset if DATA[1] = 1
(70_reset_and_hazards.md R301). -/
def State.writeCtrl (s : State) (data : Word) : State :=
  let s1 := { s with irqEn := data.getLsbD 0 }
  if data.getLsbD 1 then s1.hardReset else s1

/-- STATUS write, 46_host_bus.md R247: DONE and OVR are cleared by writing 1. -/
def State.writeStatus (s : State) (data : Word) : State :=
  let s1 := if data.getLsbD 1 then s.acknowledge else s
  if data.getLsbD 3 then { s1 with ovr := false } else s1

/-- A full-word write of a register, 46_host_bus.md R245 to R248 and R251. -/
def State.writeReg (s : State) (r : Reg) (data : Word) : State :=
  match r with
  | .ctrl => s.writeCtrl data
  | .cmd => s.issue data
  | .status => s.writeStatus data
  | .keyLen => { s with keyLen := data }
  | .key i => { s with key := s.key.set i data }
  | .nonce i => { s with nonce := s.nonce.set i data }
  | .iv i => { s with iv := s.iv.set i data }
  | .plen => { s with plen := data }
  | .ilen => { s with ilen := data }
  | .inLen => { s with inLen := data }
  | .ident => s
  | .cap => s
  | .errcode => s
  | .outLen => s
  | .resPoff => s
  | .resPlen => s
  | .resIoff => s
  | .resIlen => s

/-- Lane j of an IN_BUF write: only with its strobe set and below BUF_BYTES (46_host_bus.md R249). -/
def writeLane (p : Params) (data : Word) (strb : BitVec 4) (o j : Nat) (m : Memory) : Memory :=
  if strb.getLsbD j ∧ o + j < p.bufBytes then m.write (o + j) (lane data j) else m

/-- IN_BUF write, 46_host_bus.md R249. -/
def State.writeIn (s : State) (o : Nat) (data : Word) (strb : BitVec 4) : State :=
  let put := writeLane s.params data strb o
  { s with inBuf := put 3 (put 2 (put 1 (put 0 s.inBuf))) }

/-- The write of a target, 46_host_bus.md R245 to R251: OUT_BUF, reserved offsets and reserved regions
take none. -/
def State.writeTarget (s : State) (t : Target) (data : Word) (strb : BitVec 4) : State :=
  match t with
  | .reg r => s.writeReg r data
  | .reservedReg => s
  | .inBuf o => s.writeIn o data strb
  | .outBuf _ => s
  | .reserved => s

/-- The dispatcher of 46_host_bus.md R242, its cases in the order R242 gives. -/
def State.busWrite (s : State) (a : BitVec 18) (data : Word) (strb : BitVec 4) : State :=
  let t := target a
  if strb = 0 then s
  else if t.gated ∧ s.fsm = .busy then { s with ovr := true }
  else if t.inRegBlock ∧ strb ≠ 0xF then s
  else s.writeTarget t data strb

/-- WR(A, DATA, STRB), 46_host_bus.md R242. -/
def execWr (a : BitVec 18) (data : Word) (strb : BitVec 4) (s : State) :
    Host.Outcome State Fault Refusal :=
  .next (s.busWrite a data strb)

end Sys2Proof.Machine
end

