-- ==== Sys2Proof/Machine/Aes.lean ====
section
/-! DEFINITION. The AES-256 block functions `AES_E` and `AES_D` of 40_cipher.md R100, written out from
80_aes256_reference.md R331 to R338. -/

namespace Sys2Proof.Machine

/-- One column of the AES state, rows 0..3; also one four-byte word of the key schedule (R334, R335). -/
structure Col where
  r0 : Byte
  r1 : Byte
  r2 : Byte
  r3 : Byte
  deriving DecidableEq, Repr

/-- The 16-byte AES state, columns 0..3: byte `s[r + 4c]` is row r of column c (R335). -/
structure Block where
  c0 : Col
  c1 : Col
  c2 : Col
  c3 : Col
  deriving DecidableEq, Repr

/-- The column of four bytes of a sequence from an index on. -/
def Col.ofBytes (s : List Byte) (i : Nat) : Col :=
  ⟨s.getD i 0, s.getD (i + 1) 0, s.getD (i + 2) 0, s.getD (i + 3) 0⟩

/-- A column's bytes, row 0 first. -/
def Col.toBytes (c : Col) : List Byte := [c.r0, c.r1, c.r2, c.r3]

/-- The block of the first 16 bytes of a sequence: `s[i] = b[i]` (R335; 20_memory.md R63). -/
def Block.ofBytes (s : List Byte) : Block :=
  ⟨Col.ofBytes s 0, Col.ofBytes s 4, Col.ofBytes s 8, Col.ofBytes s 12⟩

/-- The 16 bytes of a block (R335). -/
def Block.toBytes (b : Block) : List Byte :=
  b.c0.toBytes ++ b.c1.toBytes ++ b.c2.toBytes ++ b.c3.toBytes

/-- A function applied to every byte of a column. -/
def Col.map (f : Byte → Byte) (c : Col) : Col := ⟨f c.r0, f c.r1, f c.r2, f c.r3⟩

/-- Bytewise XOR of two columns. -/
def Col.xor (a b : Col) : Col := ⟨a.r0 ^^^ b.r0, a.r1 ^^^ b.r1, a.r2 ^^^ b.r2, a.r3 ^^^ b.r3⟩

/-- A function applied to every column of a block. -/
def Block.mapCols (f : Col → Col) (b : Block) : Block := ⟨f b.c0, f b.c1, f b.c2, f b.c3⟩

/-- Bytewise XOR of two blocks (40_cipher.md R102). -/
def Block.xor (a b : Block) : Block :=
  ⟨a.c0.xor b.c0, a.c1.xor b.c1, a.c2.xor b.c2, a.c3.xor b.c3⟩

/-! ### Field arithmetic, R331 -/

/-- `xtime(a) = (a << 1) XOR (a[7] ? 0x11B : 0)`, kept to 8 bits. -/
def xtime (a : Byte) : Byte := a <<< 1 ^^^ (if a.getLsbD 7 then 0x1B else 0)

/-- The XOR of `xtime^i(a)` over the bits i < n set in b. -/
def gmulBits : Nat → Byte → Byte → Byte
  | 0, _, _ => 0
  | n + 1, a, b => (if b.getLsbD 0 then a else 0) ^^^ gmulBits n (xtime a) (b >>> 1)

/-- Multiplication in GF(2^8). -/
def gmul (a b : Byte) : Byte := gmulBits 8 a b

/-! ### The S-box and its inverse, R332 and R333 -/

/-- The table of R332: row = high nibble, column = low nibble. -/
def sboxRows : List (List Byte) :=
  [[0x63, 0x7c, 0x77, 0x7b, 0xf2, 0x6b, 0x6f, 0xc5, 0x30, 0x01, 0x67, 0x2b, 0xfe, 0xd7, 0xab, 0x76],
   [0xca, 0x82, 0xc9, 0x7d, 0xfa, 0x59, 0x47, 0xf0, 0xad, 0xd4, 0xa2, 0xaf, 0x9c, 0xa4, 0x72, 0xc0],
   [0xb7, 0xfd, 0x93, 0x26, 0x36, 0x3f, 0xf7, 0xcc, 0x34, 0xa5, 0xe5, 0xf1, 0x71, 0xd8, 0x31, 0x15],
   [0x04, 0xc7, 0x23, 0xc3, 0x18, 0x96, 0x05, 0x9a, 0x07, 0x12, 0x80, 0xe2, 0xeb, 0x27, 0xb2, 0x75],
   [0x09, 0x83, 0x2c, 0x1a, 0x1b, 0x6e, 0x5a, 0xa0, 0x52, 0x3b, 0xd6, 0xb3, 0x29, 0xe3, 0x2f, 0x84],
   [0x53, 0xd1, 0x00, 0xed, 0x20, 0xfc, 0xb1, 0x5b, 0x6a, 0xcb, 0xbe, 0x39, 0x4a, 0x4c, 0x58, 0xcf],
   [0xd0, 0xef, 0xaa, 0xfb, 0x43, 0x4d, 0x33, 0x85, 0x45, 0xf9, 0x02, 0x7f, 0x50, 0x3c, 0x9f, 0xa8],
   [0x51, 0xa3, 0x40, 0x8f, 0x92, 0x9d, 0x38, 0xf5, 0xbc, 0xb6, 0xda, 0x21, 0x10, 0xff, 0xf3, 0xd2],
   [0xcd, 0x0c, 0x13, 0xec, 0x5f, 0x97, 0x44, 0x17, 0xc4, 0xa7, 0x7e, 0x3d, 0x64, 0x5d, 0x19, 0x73],
   [0x60, 0x81, 0x4f, 0xdc, 0x22, 0x2a, 0x90, 0x88, 0x46, 0xee, 0xb8, 0x14, 0xde, 0x5e, 0x0b, 0xdb],
   [0xe0, 0x32, 0x3a, 0x0a, 0x49, 0x06, 0x24, 0x5c, 0xc2, 0xd3, 0xac, 0x62, 0x91, 0x95, 0xe4, 0x79],
   [0xe7, 0xc8, 0x37, 0x6d, 0x8d, 0xd5, 0x4e, 0xa9, 0x6c, 0x56, 0xf4, 0xea, 0x65, 0x7a, 0xae, 0x08],
   [0xba, 0x78, 0x25, 0x2e, 0x1c, 0xa6, 0xb4, 0xc6, 0xe8, 0xdd, 0x74, 0x1f, 0x4b, 0xbd, 0x8b, 0x8a],
   [0x70, 0x3e, 0xb5, 0x66, 0x48, 0x03, 0xf6, 0x0e, 0x61, 0x35, 0x57, 0xb9, 0x86, 0xc1, 0x1d, 0x9e],
   [0xe1, 0xf8, 0x98, 0x11, 0x69, 0xd9, 0x8e, 0x94, 0x9b, 0x1e, 0x87, 0xe9, 0xce, 0x55, 0x28, 0xdf],
   [0x8c, 0xa1, 0x89, 0x0d, 0xbf, 0xe6, 0x42, 0x68, 0x41, 0x99, 0x2d, 0x0f, 0xb0, 0x54, 0xbb, 0x16]]

/-- The table of R333. -/
def invSboxRows : List (List Byte) :=
  [[0x52, 0x09, 0x6a, 0xd5, 0x30, 0x36, 0xa5, 0x38, 0xbf, 0x40, 0xa3, 0x9e, 0x81, 0xf3, 0xd7, 0xfb],
   [0x7c, 0xe3, 0x39, 0x82, 0x9b, 0x2f, 0xff, 0x87, 0x34, 0x8e, 0x43, 0x44, 0xc4, 0xde, 0xe9, 0xcb],
   [0x54, 0x7b, 0x94, 0x32, 0xa6, 0xc2, 0x23, 0x3d, 0xee, 0x4c, 0x95, 0x0b, 0x42, 0xfa, 0xc3, 0x4e],
   [0x08, 0x2e, 0xa1, 0x66, 0x28, 0xd9, 0x24, 0xb2, 0x76, 0x5b, 0xa2, 0x49, 0x6d, 0x8b, 0xd1, 0x25],
   [0x72, 0xf8, 0xf6, 0x64, 0x86, 0x68, 0x98, 0x16, 0xd4, 0xa4, 0x5c, 0xcc, 0x5d, 0x65, 0xb6, 0x92],
   [0x6c, 0x70, 0x48, 0x50, 0xfd, 0xed, 0xb9, 0xda, 0x5e, 0x15, 0x46, 0x57, 0xa7, 0x8d, 0x9d, 0x84],
   [0x90, 0xd8, 0xab, 0x00, 0x8c, 0xbc, 0xd3, 0x0a, 0xf7, 0xe4, 0x58, 0x05, 0xb8, 0xb3, 0x45, 0x06],
   [0xd0, 0x2c, 0x1e, 0x8f, 0xca, 0x3f, 0x0f, 0x02, 0xc1, 0xaf, 0xbd, 0x03, 0x01, 0x13, 0x8a, 0x6b],
   [0x3a, 0x91, 0x11, 0x41, 0x4f, 0x67, 0xdc, 0xea, 0x97, 0xf2, 0xcf, 0xce, 0xf0, 0xb4, 0xe6, 0x73],
   [0x96, 0xac, 0x74, 0x22, 0xe7, 0xad, 0x35, 0x85, 0xe2, 0xf9, 0x37, 0xe8, 0x1c, 0x75, 0xdf, 0x6e],
   [0x47, 0xf1, 0x1a, 0x71, 0x1d, 0x29, 0xc5, 0x89, 0x6f, 0xb7, 0x62, 0x0e, 0xaa, 0x18, 0xbe, 0x1b],
   [0xfc, 0x56, 0x3e, 0x4b, 0xc6, 0xd2, 0x79, 0x20, 0x9a, 0xdb, 0xc0, 0xfe, 0x78, 0xcd, 0x5a, 0xf4],
   [0x1f, 0xdd, 0xa8, 0x33, 0x88, 0x07, 0xc7, 0x31, 0xb1, 0x12, 0x10, 0x59, 0x27, 0x80, 0xec, 0x5f],
   [0x60, 0x51, 0x7f, 0xa9, 0x19, 0xb5, 0x4a, 0x0d, 0x2d, 0xe5, 0x7a, 0x9f, 0x93, 0xc9, 0x9c, 0xef],
   [0xa0, 0xe0, 0x3b, 0x4d, 0xae, 0x2a, 0xf5, 0xb0, 0xc8, 0xeb, 0xbb, 0x3c, 0x83, 0x53, 0x99, 0x61],
   [0x17, 0x2b, 0x04, 0x7e, 0xba, 0x77, 0xd6, 0x26, 0xe1, 0x69, 0x14, 0x63, 0x55, 0x21, 0x0c, 0x7d]]

/-- The entry of a table at row = high nibble, column = low nibble of the byte. -/
def tableAt (rows : List (List Byte)) (a : Byte) : Byte :=
  (rows.getD (a.toNat / 16) []).getD (a.toNat % 16) 0

/-- S, R332. -/
def sbox (a : Byte) : Byte := tableAt sboxRows a

/-- IS, R333. -/
def invSbox (a : Byte) : Byte := tableAt invSboxRows a

/-! ### Key expansion, R334 -/

/-- `RotWord([a0,a1,a2,a3]) = [a1,a2,a3,a0]`. -/
def rotWord (w : Col) : Col := ⟨w.r1, w.r2, w.r3, w.r0⟩

/-- `SubWord` applies S to each byte. -/
def subWord (w : Col) : Col := w.map sbox

/-- `Rcon(j) = xtime^(j-1)(0x01)`. -/
def rcon (j : Nat) : Byte := (List.replicate (j - 1) ()).foldl (fun a _ => xtime a) 0x01

/-- The value XORed with w[i-8] to give w[i], from t = w[i-1]. -/
def scheduleCore (i : Nat) (t : Col) : Col :=
  if i % 8 = 0 then (subWord (rotWord t)).xor ⟨rcon (i / 8), 0, 0, 0⟩
  else if i % 8 = 4 then subWord t
  else t

/-- The words w[0..n+7], newest first: `w[i] = k[4i : 4i+4)` for i < 8, then `w[i] = w[i-8] XOR t`. -/
def scheduleUpTo (k : List Byte) : Nat → List Col
  | 0 => [Col.ofBytes k 28, Col.ofBytes k 24, Col.ofBytes k 20, Col.ofBytes k 16, Col.ofBytes k 12,
      Col.ofBytes k 8, Col.ofBytes k 4, Col.ofBytes k 0]
  | n + 1 =>
    let ws := scheduleUpTo k n
    ((ws.getD 7 ⟨0, 0, 0, 0⟩).xor (scheduleCore (n + 8) (ws.getD 0 ⟨0, 0, 0, 0⟩))) :: ws

/-- The key schedule w[0..59], oldest first. -/
def keySchedule (k : List Byte) : List Col := (scheduleUpTo k 52).reverse

/-- Round key r: `w[4r] ++ w[4r+1] ++ w[4r+2] ++ w[4r+3]`. -/
def roundKey (ws : List Col) (r : Nat) : Block :=
  ⟨ws.getD (4 * r) ⟨0, 0, 0, 0⟩, ws.getD (4 * r + 1) ⟨0, 0, 0, 0⟩, ws.getD (4 * r + 2) ⟨0, 0, 0, 0⟩,
    ws.getD (4 * r + 3) ⟨0, 0, 0, 0⟩⟩

/-! ### Round transformations, R336 -/

/-- SubBytes. -/
def subBytes (s : Block) : Block := s.mapCols (Col.map sbox)

/-- InvSubBytes. -/
def invSubBytes (s : Block) : Block := s.mapCols (Col.map invSbox)

/-- ShiftRows: new `s[r + 4c]` = old `s[r + 4((c + r) mod 4)]`. -/
def shiftRows (s : Block) : Block :=
  ⟨⟨s.c0.r0, s.c1.r1, s.c2.r2, s.c3.r3⟩, ⟨s.c1.r0, s.c2.r1, s.c3.r2, s.c0.r3⟩,
    ⟨s.c2.r0, s.c3.r1, s.c0.r2, s.c1.r3⟩, ⟨s.c3.r0, s.c0.r1, s.c1.r2, s.c2.r3⟩⟩

/-- InvShiftRows: new `s[r + 4((c + r) mod 4)]` = old `s[r + 4c]`. -/
def invShiftRows (s : Block) : Block :=
  ⟨⟨s.c0.r0, s.c3.r1, s.c2.r2, s.c1.r3⟩, ⟨s.c1.r0, s.c0.r1, s.c3.r2, s.c2.r3⟩,
    ⟨s.c2.r0, s.c1.r1, s.c0.r2, s.c3.r3⟩, ⟨s.c3.r0, s.c2.r1, s.c1.r2, s.c0.r3⟩⟩

/-- The sum m0*a0 + m1*a1 + m2*a2 + m3*a3 in GF(2^8). -/
def mixRow (m0 m1 m2 m3 : Byte) (a : Col) : Byte :=
  gmul a.r0 m0 ^^^ gmul a.r1 m1 ^^^ gmul a.r2 m2 ^^^ gmul a.r3 m3

/-- One column of MixColumns. -/
def mixCol (a : Col) : Col :=
  ⟨mixRow 2 3 1 1 a, mixRow 1 2 3 1 a, mixRow 1 1 2 3 a, mixRow 3 1 1 2 a⟩

/-- One column of InvMixColumns. -/
def invMixCol (a : Col) : Col :=
  ⟨mixRow 14 11 13 9 a, mixRow 9 14 11 13 a, mixRow 13 9 14 11 a, mixRow 11 13 9 14 a⟩

/-- MixColumns. -/
def mixColumns (s : Block) : Block := s.mapCols mixCol

/-- InvMixColumns. -/
def invMixColumns (s : Block) : Block := s.mapCols invMixCol

/-! ### The cipher and its inverse, R337 and R338 -/

/-- The state after `AddRoundKey(0)` and rounds 1..n. -/
def encRounds (ws : List Col) (b : Block) : Nat → Block
  | 0 => b.xor (roundKey ws 0)
  | n + 1 => (mixColumns (shiftRows (subBytes (encRounds ws b n)))).xor (roundKey ws (n + 1))

/-- Rounds n down to 1 of the inverse cipher. -/
def decRounds (ws : List Col) : Nat → Block → Block
  | 0, s => s
  | n + 1, s =>
    decRounds ws n (invMixColumns ((invSubBytes (invShiftRows s)).xor (roundKey ws (n + 1))))

/-- The cipher under a key schedule, R337. -/
def cipher (ws : List Col) (b : Block) : Block :=
  (shiftRows (subBytes (encRounds ws b 13))).xor (roundKey ws 14)

/-- The inverse cipher under a key schedule, R338. -/
def invCipher (ws : List Col) (b : Block) : Block :=
  (invSubBytes (invShiftRows (decRounds ws 13 (b.xor (roundKey ws 14))))).xor (roundKey ws 0)

/-- `AES_E(k, b)`, R337; 40_cipher.md R100. -/
def aesE (k : List Byte) (b : Block) : Block := cipher (keySchedule k) b

/-- `AES_D(k, b)`, R338; 40_cipher.md R100. -/
def aesD (k : List Byte) (b : Block) : Block := invCipher (keySchedule k) b

end Sys2Proof.Machine
end

