-- ==== Sys2Proof/Machine/Cbc.lean ====
section
/-! DEFINITION. CBC over whole 16-byte blocks, 40_cipher.md R102, R103, R105. -/

namespace Sys2Proof.Machine

/-- The first n 16-byte blocks of a sequence, `blk_j = s[16j : 16j+16)` (20_memory.md R63). -/
def blocksOf : Nat → List Byte → List Block
  | 0, _ => []
  | n + 1, s => Block.ofBytes s :: blocksOf n (s.drop 16)

/-- The bytes of a sequence of blocks. -/
def blocksBytes (bs : List Block) : List Byte := bs.flatMap Block.toBytes

/-- The loop of `CBC_E`, R102: each block is XORed with the one before it, then encrypted. -/
def cbcEncBlocks (k : List Byte) : Block → List Block → List Block
  | _, [] => []
  | prev, p :: ps => aesE k (p.xor prev) :: cbcEncBlocks k (aesE k (p.xor prev)) ps

/-- The loop of `CBC_D`, R103: each block is decrypted, then XORed with the ciphertext block before it. -/
def cbcDecBlocks (k : List Byte) : Block → List Block → List Block
  | _, [] => []
  | prev, c :: cs => (aesD k c).xor prev :: cbcDecBlocks k c cs

/-- `CBC_E(k, iv, p)`, R102. -/
def cbcE (k iv p : List Byte) : List Byte :=
  blocksBytes (cbcEncBlocks k (Block.ofBytes iv) (blocksOf (p.length / 16) p))

/-- `CBC_D(k, iv, c)`, R103. -/
def cbcD (k iv c : List Byte) : List Byte :=
  blocksBytes (cbcDecBlocks k (Block.ofBytes iv) (blocksOf (c.length / 16) c))

end Sys2Proof.Machine
end

