-- ==== Sys2Proof/Machine/Framer.lean ====
section
/-! DEFINITION. The envelope framer, 41_framer_encode.md R120 to R123, and ENCODE, R124. -/

namespace Sys2Proof.Machine

/-- `padLen(U) = 32 - (U mod 32)`, R121. -/
def padLen (u : Nat) : Nat := 32 - u % 32

/-- `L(U) = U + padLen(U)`, the padded length, R121. -/
def paddedLen (u : Nat) : Nat := u + padLen u

/-- `Pad(U) = rep(padLen(U), padLen(U))`, R122. -/
def padBytes (u : Nat) : List Byte := List.replicate (padLen u) (BitVec.ofNat 8 (padLen u))

/-- `Frame(n, p, i) = n ++ BE32(|p|) ++ p ++ i`, R120. -/
def frame (n p i : List Byte) : List Byte := n ++ be32 p.length ++ p ++ i

/-- `Envelope(n, p, i) = Frame(n, p, i) ++ Pad(20 + |p| + |i|)`, R123. -/
def envelope (n p i : List Byte) : List Byte := frame n p i ++ padBytes (20 + p.length + i.length)

/-- The outcome of ENCODE, R124, its checks in order. -/
def encodeOutcome (s : State) : Except Err Output :=
  let p := s.plen.toNat
  let i := s.ilen.toNat
  if s.keyLen ≠ 32 then .error .invalidKeySize
  else if paddedLen (20 + p + i) > s.params.bufBytes then .error .capacityExceeded
  else
    .ok { bytes := cbcE s.keyBytes s.keyIv (envelope s.nonceBytes (s.inBytes 0 p) (s.inBytes p i)) }

/-- ENCODE: the engine step of the command, 41_framer_encode.md R124; 60_exceptions.md R274. -/
def execEncode (s : State) : Host.Outcome State Fault Refusal := .next (s.complete (encodeOutcome s))

end Sys2Proof.Machine
end

