-- ==== Sys2Proof/Machine/Lenient.lean ====
section
/-! DEFINITION. The base64 decoder (45_decode_lenient.md R210 to R213) and DECODE_LENIENT (R214). -/

namespace Sys2Proof.Machine

/-- `val(c)`, R210: the 6-bit value of an alphabet character, none for every other byte. -/
def b64Val (c : Byte) : Option (BitVec 6) :=
  let n := c.toNat
  if 0x41 ≤ n ∧ n ≤ 0x5A then some (BitVec.ofNat 6 (n - 0x41))
  else if 0x61 ≤ n ∧ n ≤ 0x7A then some (BitVec.ofNat 6 (n - 0x61 + 26))
  else if 0x30 ≤ n ∧ n ≤ 0x39 then some (BitVec.ofNat 6 (n - 0x30 + 52))
  else if n = 0x2B then some 62
  else if n = 0x2F then some 63
  else none

/-- The pad character `=` (R210). -/
def b64Pad : Byte := 0x3D

/-- `val(c0)<<18 | val(c1)<<12 | val(c2)<<6 | val(c3)`, R211. -/
def quantumBits (v0 v1 v2 v3 : BitVec 6) : BitVec 24 := v0 ++ v1 ++ v2 ++ v3

/-- A full quantum: three bytes, `[v[23:16], v[15:8], v[7:0]]` (R211). -/
def fullQuantum (c0 c1 c2 c3 : Byte) : Option (List Byte) :=
  match b64Val c0, b64Val c1, b64Val c2, b64Val c3 with
  | some v0, some v1, some v2, some v3 =>
    let v := quantumBits v0 v1 v2 v3
    some [v.extractLsb' 16 8, v.extractLsb' 8 8, v.extractLsb' 0 8]
  | _, _, _, _ => none

/-- The last quantum with one pad character: two bytes; the strict tail is R213. -/
def twoByteQuantum (strict : Bool) (c0 c1 c2 : Byte) : Option (List Byte) :=
  match b64Val c0, b64Val c1, b64Val c2 with
  | some v0, some v1, some v2 =>
    if strict ∧ v2.extractLsb' 0 2 ≠ 0 then none
    else
      let v := quantumBits v0 v1 v2 0
      some [v.extractLsb' 16 8, v.extractLsb' 8 8]
  | _, _, _ => none

/-- The last quantum with two pad characters: one byte; the strict tail is R213. -/
def oneByteQuantum (strict : Bool) (c0 c1 : Byte) : Option (List Byte) :=
  match b64Val c0, b64Val c1 with
  | some v0, some v1 =>
    if strict ∧ v1.extractLsb' 0 4 ≠ 0 then none
    else
      let v := quantumBits v0 v1 0 0
      some [v.extractLsb' 16 8]
  | _, _ => none

/-- The last quantum, R211: full, one pad character, two pad characters, or `=` then another. -/
def lastQuantum (strict : Bool) (c0 c1 c2 c3 : Byte) : Option (List Byte) :=
  if c2 ≠ b64Pad ∧ c3 ≠ b64Pad then fullQuantum c0 c1 c2 c3
  else if c2 ≠ b64Pad ∧ c3 = b64Pad then twoByteQuantum strict c0 c1 c2
  else if c2 = b64Pad ∧ c3 = b64Pad then oneByteQuantum strict c0 c1
  else none

/-- The loop of R211 over the quanta; every quantum before the last is full. -/
def b64Quanta (strict : Bool) : List Byte → Option (List Byte)
  | [] => some []
  | [c0, c1, c2, c3] => lastQuantum strict c0 c1 c2 c3
  | c0 :: c1 :: c2 :: c3 :: rest =>
    match fullQuantum c0 c1 c2 c3, b64Quanta strict rest with
    | some out, some more => some (out ++ more)
    | _, _ => none
  | _ => none

/-- The text with CR and LF removed when B64_IGNORE_CRLF is set, R212. -/
def b64Text (p : Params) (s : List Byte) : List Byte :=
  if p.b64IgnoreCrlf then s.filter (fun c => c != 0x0D && c != 0x0A) else s

/-- `B64DEC(s)`, R211; `none` is `fail`. -/
def b64Dec (p : Params) (s : List Byte) : Option (List Byte) :=
  let t := b64Text p s
  if t.length % 4 ≠ 0 then none else b64Quanta p.b64StrictTail t

/-- The outcome of DECODE_LENIENT, R214, its checks in order; no padding check (R215). -/
def decodeLenientOutcome (s : State) : Except Err Output :=
  let sLen := s.inLen.toNat
  if sLen > s.params.bufBytes then .error .capacityExceeded
  else
    match b64Dec s.params (s.inBytes 0 sLen) with
    | none => .error .base64DecodeError
    | some b =>
      let l := b.length
      if l < 32 then .error .shortCiphertext
      else if l % 16 ≠ 0 then .error .unalignedCiphertext
      else if s.keyLen ≠ 32 then .error .invalidKeySize
      else
        let d := cbcD s.keyBytes s.keyIv b
        let n := beval (slice d 16 20)
        if 20 + n > l then .error .lengthOverflow
        else .ok { bytes := slice d 20 (20 + n), poff := some 0, plen := some n }

/-- DECODE_LENIENT: the engine step of the command, 45_decode_lenient.md R214; 60_exceptions.md R274. -/
def execDecodeLenient (s : State) : Host.Outcome State Fault Refusal :=
  .next (s.complete (decodeLenientOutcome s))

end Sys2Proof.Machine
end

