-- ==== Sys2Proof/Machine/StrictDecode.lean ====
section
/-! DEFINITION. The padding validator (42_padding_validator.md R140), the length-prefix parser
(43_length_parser.md R160), and the commands DECODE and DECODE_XIV (44_decode.md R180, R181). -/

namespace Sys2Proof.Machine

/-- `PadValidate(D)`, R140: the truncated length.  Only the last byte is examined (R141). -/
def padValidate (d : List Byte) : Except Err Nat :=
  let padLength := (d.getD (d.length - 1) 0).toNat
  if padLength < 1 ∨ padLength > 32 then .error .invalidPadding
  else if d.length - padLength ≤ 20 then .error .truncatedPlaintext
  else .ok (d.length - padLength)

/-- `LenParse(D, T)`, R160: the payload length, bounded by T over the natural numbers (R161). -/
def lenParse (d : List Byte) (t : Nat) : Except Err Nat :=
  let payloadLen := beval (slice d 16 20)
  if 20 + payloadLen > t then .error .lengthOverflow else .ok payloadLen

/-- The outcome of DECODE, R180, its checks in order. -/
def decodeOutcome (s : State) : Except Err Output :=
  let l := s.inLen.toNat
  if l > s.params.bufBytes then .error .capacityExceeded
  else if l < 32 then .error .shortCiphertext
  else if l % 32 ≠ 0 then .error .unalignedCiphertext
  else if s.keyLen ≠ 32 then .error .invalidKeySize
  else
    let d := cbcD s.keyBytes s.keyIv (s.inBytes 0 l)
    match padValidate d with
    | .error e => .error e
    | .ok t =>
      match lenParse d t with
      | .error e => .error e
      | .ok n =>
        .ok { bytes := d.take t, poff := some 20, plen := some n, ioff := some (20 + n),
              ilen := some (t - 20 - n) }

/-- DECODE: the engine step of the command, 44_decode.md R180; 60_exceptions.md R274. -/
def execDecode (s : State) : Host.Outcome State Fault Refusal := .next (s.complete (decodeOutcome s))

/-- The outcome of DECODE_XIV, R181, its checks in order: the explicit IV, a multiple of 16, and no
prefix check. -/
def decodeXivOutcome (s : State) : Except Err Output :=
  let l := s.inLen.toNat
  if l > s.params.bufBytes then .error .capacityExceeded
  else if l < 32 then .error .shortCiphertext
  else if l % 16 ≠ 0 then .error .unalignedCiphertext
  else if s.keyLen ≠ 32 then .error .invalidKeySize
  else
    let d := cbcD s.keyBytes s.ivBytes (s.inBytes 0 l)
    match padValidate d with
    | .error e => .error e
    | .ok t => .ok { bytes := d.take t }

/-- DECODE_XIV: the engine step of the command, 44_decode.md R181; 60_exceptions.md R274. -/
def execDecodeXiv (s : State) : Host.Outcome State Fault Refusal :=
  .next (s.complete (decodeXivOutcome s))

end Sys2Proof.Machine
end

