-- ==== Sys2Proof/Syntax.lean ====
section
/-! DEFINITION. The instructions of the EVF: the two bus transactions and the four commands, one
constructor per row of spec/opcode_table.json. -/

namespace Sys2Proof

/-- EVF1 (00_scope.md R2).  A bus transaction carries its fields; a command carries none
(30_encoding.md R84). -/
inductive Instr where
  /-- RD(A), 46_host_bus.md R241. -/
  | rd (addr : BitVec 18)
  /-- WR(A, DATA, STRB), 46_host_bus.md R242. -/
  | wr (addr : BitVec 18) (data : Word) (strb : BitVec 4)
  /-- ENCODE, 41_framer_encode.md R124. -/
  | encode
  /-- DECODE, 44_decode.md R180. -/
  | decode
  /-- DECODE_XIV, 44_decode.md R181. -/
  | decodeXiv
  /-- DECODE_LENIENT, 45_decode_lenient.md R214. -/
  | decodeLenient
  deriving DecidableEq, Repr

end Sys2Proof
end

