-- ==== Sys2Proof/Machine/Dispatch.lean ====
section
/-! DEFINITION. The meaning of every instruction: one arm per constructor of Instr. -/

namespace Sys2Proof.Machine

/-- What an instruction does.  A transaction is a host step; a command is the engine step of that
command (60_exceptions.md R274). -/
def exec (i : Instr) (s : State) : Host.Outcome State Fault Refusal :=
  match i with
  | .rd a => Sys2Proof.Machine.execRd a s
  | .wr a d st => Sys2Proof.Machine.execWr a d st s
  | .encode => Sys2Proof.Machine.execEncode s
  | .decode => Sys2Proof.Machine.execDecode s
  | .decodeXiv => Sys2Proof.Machine.execDecodeXiv s
  | .decodeLenient => Sys2Proof.Machine.execDecodeLenient s

end Sys2Proof.Machine
end

