-- ==== Sys2Proof/WellFormed.lean ====
section
/-! DEFINITION. Well-formedness: of the parameters (00_scope.md R8), of a listing of BUS64 words
(30_encoding.md R86), and of an instruction (every term of `Instr` is one, by its field widths). -/

namespace Sys2Proof

/-- 00_scope.md R8: BUF_BYTES is a multiple of 32 with 64 <= BUF_BYTES <= 65536. -/
abbrev Params.wf (p : Params) : Prop :=
  p.bufBytes % 32 = 0 ∧ 64 ≤ p.bufBytes ∧ p.bufBytes ≤ 65536

/-- 30_encoding.md R86: the two masks that say which 64-bit words are transactions. -/
def isTransaction (w : BitVec 64) : Bool :=
  w &&& 0xFFFC0000FFFFFFFF#64 == 0#64 || w &&& 0xF0FC000000000000#64 == 0x8000000000000000#64

/-- 30_encoding.md R86: a listing is well-formed when each of its words is a transaction. -/
def listingWf (ws : List (BitVec 64)) : Bool := ws.all isTransaction

/-- Every operand of `Instr` has its field's width (R85), and a command has no operand (R84): no term
of the type is ill-formed. -/
def Instr.wf : Instr → Bool
  | .rd _ => true
  | .wr _ _ _ => true
  | .encode => true
  | .decode => true
  | .decodeXiv => true
  | .decodeLenient => true

end Sys2Proof
end

