-- ==== Sys2Proof/Decode.lean ====
section
/-! DEFINITION. The decoders of the two formats (30_encoding.md R80 to R87), the opcode table they are
read from, and the encoder. -/

namespace Sys2Proof

/-- One code word in its format: a BUS64 transaction word or a CMD32 command word (R80).  The format is
known from where the word stands, never from its bits. -/
inductive CodeWord where
  | bus64 (w : BitVec 64)
  | cmd32 (w : Word)
  deriving DecidableEq, Repr

/-- Why a code word stands for no instruction. -/
inductive DecodeError where
  /-- R86: a 64-bit word that is neither RD nor WR. -/
  | notATransaction (w : BitVec 64)
  /-- R83: an illegal or reserved command word. -/
  | illegalCommand (w : Word)
  deriving DecidableEq, Repr

/-- BUS64 decoding, R85 and R86. -/
def decodeBus (w : BitVec 64) : Except DecodeError Instr :=
  if w &&& 0xFFFC0000FFFFFFFF#64 = 0#64 then
    .ok (.rd (w.extractLsb' 32 18))
  else if w &&& 0xF0FC000000000000#64 = 0x8000000000000000#64 then
    .ok (.wr (w.extractLsb' 32 18) (w.extractLsb' 0 32) (w.extractLsb' 56 4))
  else
    .error (.notATransaction w)

/-- The OP field of a command word, R81. -/
def cmdOp (w : Word) : BitVec 4 := w.extractLsb' 0 4

/-- The RSV field of a command word, R81. -/
def cmdRsv (w : Word) : BitVec 28 := w.extractLsb' 4 28

/-- CMD32 decoding, R82 and R83: RSV must be 0, and OP is one of the four command numbers. -/
def decodeCmd (w : Word) : Except DecodeError Instr :=
  if cmdRsv w ≠ 0 then .error (.illegalCommand w)
  else if cmdOp w = 0x1 then .ok .encode
  else if cmdOp w = 0x2 then .ok .decode
  else if cmdOp w = 0x3 then .ok .decodeXiv
  else if cmdOp w = 0x4 then .ok .decodeLenient
  else .error (.illegalCommand w)

/-- Decoding of a code word in either format. -/
def decode : CodeWord → Except DecodeError Instr
  | .bus64 w => decodeBus w
  | .cmd32 w => decodeCmd w

/-- A BUS64 word from its fields, R85: WE, Z0 = 0, STRB, Z1 = 0, ADDR, DATA. -/
def bus64Word (we : BitVec 1) (strb : BitVec 4) (addr : BitVec 18) (data : Word) : BitVec 64 :=
  we ++ 0#3 ++ strb ++ 0#6 ++ addr ++ data

/-- The word of an instruction: R85 for a transaction, R82 for a command. -/
def encode : Instr → CodeWord
  | .rd a => .bus64 (bus64Word 0 0 a 0)
  | .wr a d st => .bus64 (bus64Word 1 st a d)
  | .encode => .cmd32 0x00000001
  | .decode => .cmd32 0x00000002
  | .decodeXiv => .cmd32 0x00000003
  | .decodeLenient => .cmd32 0x00000004

/-- One row of spec/opcode_table.json: a word w of the row's format is the instruction exactly when
`w AND mask = match`. -/
structure OpcodeRow where
  mnemonic : String
  bits : Nat
  pattern : Nat
  mask : Nat
  deriving DecidableEq, Repr

/-- The opcode table, row for row. -/
def opcodeTable : List OpcodeRow :=
  [⟨"RD", 64, 0x0000000000000000, 0xFFFC0000FFFFFFFF⟩,
   ⟨"WR", 64, 0x8000000000000000, 0xF0FC000000000000⟩,
   ⟨"ENCODE", 32, 0x00000001, 0xFFFFFFFF⟩,
   ⟨"DECODE", 32, 0x00000002, 0xFFFFFFFF⟩,
   ⟨"DECODE_XIV", 32, 0x00000003, 0xFFFFFFFF⟩,
   ⟨"DECODE_LENIENT", 32, 0x00000004, 0xFFFFFFFF⟩]

/-- The table's name of an instruction. -/
def mnemonic : Instr → String
  | .rd _ => "RD"
  | .wr _ _ _ => "WR"
  | .encode => "ENCODE"
  | .decode => "DECODE"
  | .decodeXiv => "DECODE_XIV"
  | .decodeLenient => "DECODE_LENIENT"

/-- How many bits a code word has, and its value. -/
def CodeWord.bits : CodeWord → Nat
  | .bus64 _ => 64
  | .cmd32 _ => 32

/-- The value of a code word. -/
def CodeWord.value : CodeWord → Nat
  | .bus64 w => w.toNat
  | .cmd32 w => w.toNat

/-- A code word matches a row of the table. -/
def OpcodeRow.matches (r : OpcodeRow) (c : CodeWord) : Bool :=
  r.bits == c.bits && c.value &&& r.mask == r.pattern

/-- The code word of `nbits` bits with value `w`: a row of at most 32 bits is a CMD32 word, a longer one
a BUS64 word (log 9). -/
def codeWord (nbits w : Nat) : CodeWord :=
  if nbits ≤ 32 then .cmd32 (BitVec.ofNat 32 w) else .bus64 (BitVec.ofNat 64 w)

/-- The instruction the decoder reads from a table row's word. -/
def decodeTableWord (nbits w : Nat) : Option Instr :=
  match decode (codeWord nbits w) with
  | .ok i => some i
  | .error _ => none

end Sys2Proof
end

