-- ==== Sys2Proof/Machine/Schedule.lean ====
section
/-! DEFINITION. Who moves next (00_scope.md R15; 60_exceptions.md R274, R281), the instruction that
agent runs, and the state it runs it from. -/

namespace Sys2Proof.Machine

/-- The next move: the engine's one step, a host-side event (with the events after it), or none. -/
inductive Turn where
  | engine
  | host (e : Event) (rest : List Event)
  | quiet
  deriving DecidableEq, Repr

/-- Who moves next.  While BUSY the engine's step comes after `wait` more host steps, and at once when
the host has nothing left to send (logs 1 and 2); while IDLE only the host can move, and with no event
left nothing does (60_exceptions.md R288; log 3). -/
def State.turn (s : State) : Turn :=
  match s.fsm, s.wait, s.inputs with
  | .busy, 0, _ => .engine
  | .busy, _ + 1, [] => .engine
  | .busy, _ + 1, e :: rest => .host e rest
  | .idle, _, e :: rest => .host e rest
  | .idle, _, [] => .quiet

/-- What a step amounts to before the instruction's own meaning: run an instruction from a state, be
done with a state, or refuse. -/
inductive Fetched where
  | run (i : Instr) (s : State)
  | done (s : State)
  | refuse (r : Refusal)
  deriving DecidableEq, Repr

/-- The engine's step, 60_exceptions.md R274: the command in CMDW, or IllegalCommand for an illegal
word (30_encoding.md R83). -/
def fetchCommand (s : State) : Fetched :=
  let s0 := { s with wait := 0 }
  match decodeCmd s.cmdw with
  | .ok i => .run i s0
  | .error _ => .done (s0.complete (.error .illegalCommand))

/-- A host-side event: it leaves `inputs`, and one host step of the delay is gone.  A transaction word
is decoded (30_encoding.md R86); a hardware reset is 70_reset_and_hazards.md R300. -/
def fetchEvent (e : Event) (rest : List Event) (s : State) : Fetched :=
  let s0 := { s with inputs := rest, wait := s.wait - 1 }
  match e with
  | .reset => .done s0.hardReset
  | .txn w =>
    match decodeBus w with
    | .ok i => .run i s0
    | .error _ => .refuse (.notATransaction w)

/-- The next move of the machine. -/
def fetch (s : State) : Fetched :=
  match s.turn with
  | .engine => fetchCommand s
  | .host e rest => fetchEvent e rest s
  | .quiet => .done s

/-- A transaction placed so that the next step runs it: it heads the host's events, and while BUSY one
more host step comes before the engine's. -/
def State.placeTransaction (s : State) (w : BitVec 64) : State :=
  { s with
    inputs := .txn w :: s.inputs
    wait := match s.fsm with
      | .busy => s.wait + 1
      | .idle => s.wait }

/-- A command placed so that the next step completes it: the writes of its issue (46_host_bus.md R246),
with no host step before the engine's. -/
def State.placeCommand (s : State) (w : Word) : State := { s.accept w with wait := 0 }

/-- A code word placed so that the next step runs it (log 8). -/
def State.place (s : State) : CodeWord → State
  | .bus64 w => s.placeTransaction w
  | .cmd32 w => s.placeCommand w

end Sys2Proof.Machine
end

