-- ==== Sys2Proof/Machine/Step.lean ====
section
/-! DEFINITION. One step of the machine: one host step, one engine step, one reset, or nothing
(00_scope.md R15; 60_exceptions.md R281). -/

namespace Sys2Proof.Machine

/-- One step. -/
def step (s : State) : Host.Outcome State Fault Refusal :=
  match fetch s with
  | .run i s0 => exec i s0
  | .done s0 => .next s0
  | .refuse r => .refused r

/-- The state with the code word of `nbits` bits and value `w` placed where the next step takes its
instruction (log 8): a transaction heads the host's events, a command is in CMDW with the engine's step
next. -/
def State.withFetchWord (s : State) (nbits w : Nat) : State := s.place (codeWord nbits w)

end Sys2Proof.Machine
end

