-- ==== Sys2Proof/Machine/Assembler.lean ====
section
/-! DEFINITION. The listing notation for host programs: the lines of 30_encoding.md R88 and the
pseudo-instructions of R89 with their expansions.  It is the host's notation; the EVF stores none of it
(92_eei_decisions.md D25). -/

namespace Sys2Proof.Machine

/-- The pseudo-instructions of R89.  `wait n` is a WAIT whose first n polls do not see DONE and whose
last one does: n + 1 `RD STATUS` words. -/
inductive Pseudo where
  | encode
  | decode
  | decodeXiv
  | decodeLenient
  | wait (n : Nat)
  | ack
  | ackOvr
  | irqOn
  | irqOff
  | srst
  | loadKey (k : List Byte)
  | loadNonce (n : List Byte)
  | loadIv (v : List Byte)
  | fill (o : Nat) (s : List Byte)
  | dump (n : Nat)
  deriving DecidableEq, Repr

/-- One line of a program, R88: nothing, a transaction (with the value an RD is recorded to return,
which is no part of the encoding), or a pseudo-instruction. -/
inductive Line where
  | blank
  | txn (i : Instr) (expect : Option Word)
  | pseudo (p : Pseudo)
  deriving DecidableEq, Repr

/-! ### Expansions, R89 -/

/-- The byte offset a register's name stands for (R88; 10_state.md R23). -/
def Reg.offset (r : Reg) : Nat :=
  match registerMap.find? (fun e => e.2 == r) with
  | some e => e.1
  | none => 0

/-- `WR <register>, <data>`: STRB = 0xF (R88). -/
def wrReg (r : Reg) (data : Word) : Instr := .wr (BitVec.ofNat 18 r.offset) data 0xF

/-- `RD <register>`. -/
def rdReg (r : Reg) : Instr := .rd (BitVec.ofNat 18 r.offset)

/-- `v_i = k[4i] + k[4i+1]*2^8 + k[4i+2]*2^16 + k[4i+3]*2^24`; a byte past the end is 0. -/
def seqWord (s : List Byte) (i : Nat) : Word :=
  wordOfLanes (s.getD (4 * i) 0) (s.getD (4 * i + 1) 0) (s.getD (4 * i + 2) 0) (s.getD (4 * i + 3) 0)

/-- The strobes `m_t` of FILL: bit j is set exactly when 4t+j < |s|. -/
def fillStrobe (len t : Nat) : BitVec 4 :=
  BitVec.ofBool (4 * t + 3 < len) ++ BitVec.ofBool (4 * t + 2 < len) ++ BitVec.ofBool (4 * t + 1 < len)
    ++ BitVec.ofBool (4 * t < len)

/-- `ceil(n/4)`. -/
def wordCount (n : Nat) : Nat := (n + 3) / 4

/-- The words of a FILL. -/
def fillInstrs (o : Nat) (s : List Byte) : List Instr :=
  (List.range (wordCount s.length)).map fun t =>
    .wr (BitVec.ofNat 18 (0x10000 + o + 4 * t)) (seqWord s t) (fillStrobe s.length t)

/-- The expansion of a pseudo-instruction, R89. -/
def Pseudo.expand : Pseudo → List Instr
  | .encode => [wrReg .cmd 0x1]
  | .decode => [wrReg .cmd 0x2]
  | .decodeXiv => [wrReg .cmd 0x3]
  | .decodeLenient => [wrReg .cmd 0x4]
  | .wait n => List.replicate (n + 1) (rdReg .status)
  | .ack => [wrReg .status 0x2]
  | .ackOvr => [wrReg .status 0x8]
  | .irqOn => [wrReg .ctrl 0x1]
  | .irqOff => [wrReg .ctrl 0x0]
  | .srst => [wrReg .ctrl 0x2]
  | .loadKey k =>
    [wrReg (.key 0) (seqWord k 0), wrReg (.key 1) (seqWord k 1), wrReg (.key 2) (seqWord k 2),
     wrReg (.key 3) (seqWord k 3), wrReg (.key 4) (seqWord k 4), wrReg (.key 5) (seqWord k 5),
     wrReg (.key 6) (seqWord k 6), wrReg (.key 7) (seqWord k 7), wrReg .keyLen 32]
  | .loadNonce n =>
    [wrReg (.nonce 0) (seqWord n 0), wrReg (.nonce 1) (seqWord n 1), wrReg (.nonce 2) (seqWord n 2),
     wrReg (.nonce 3) (seqWord n 3)]
  | .loadIv v =>
    [wrReg (.iv 0) (seqWord v 0), wrReg (.iv 1) (seqWord v 1), wrReg (.iv 2) (seqWord v 2),
     wrReg (.iv 3) (seqWord v 3)]
  | .fill o s => fillInstrs o s
  | .dump n => (List.range (wordCount n)).map fun t => .rd (BitVec.ofNat 18 (0x20000 + 4 * t))

/-- R89: a key is a 32-byte sequence, a nonce and an IV are 16 bytes, and FILL starts at a multiple of 4.
DESIGN CHOICE (log 15): a FILL and a DUMP must end within their 64 KiB window; R89 bounds neither o + |s|
nor n, and the model refuses a line that runs past. -/
def Pseudo.wf : Pseudo → Bool
  | .loadKey k => k.length == 32
  | .loadNonce n => n.length == 16
  | .loadIv v => v.length == 16
  | .fill o s => o % 4 == 0 && o + s.length ≤ 0x10000
  | .dump n => n ≤ 0x10000
  | .encode => true
  | .decode => true
  | .decodeXiv => true
  | .decodeLenient => true
  | .wait _ => true
  | .ack => true
  | .ackOvr => true
  | .irqOn => true
  | .irqOff => true
  | .srst => true

/-! ### Reading a line, R88 -/

/-- The register names of R88. -/
def registerNames : List (String × Reg) :=
  [("IDENT", .ident), ("CAP", .cap), ("CTRL", .ctrl), ("CMD", .cmd), ("STATUS", .status),
   ("ERRCODE", .errcode), ("KEY_LEN", .keyLen), ("KEY0", .key 0), ("KEY1", .key 1), ("KEY2", .key 2),
   ("KEY3", .key 3), ("KEY4", .key 4), ("KEY5", .key 5), ("KEY6", .key 6), ("KEY7", .key 7),
   ("NONCE0", .nonce 0), ("NONCE1", .nonce 1), ("NONCE2", .nonce 2), ("NONCE3", .nonce 3),
   ("IV0", .iv 0), ("IV1", .iv 1), ("IV2", .iv 2), ("IV3", .iv 3), ("PLEN", .plen), ("ILEN", .ilen),
   ("IN_LEN", .inLen), ("OUT_LEN", .outLen), ("RES_POFF", .resPoff), ("RES_PLEN", .resPlen),
   ("RES_IOFF", .resIoff), ("RES_ILEN", .resIlen)]

/-- A finished token, none when no character was collected (the characters are in reverse). -/
def endToken (cur : List Char) : List (List Char) :=
  match cur with
  | [] => []
  | c :: cs => [(c :: cs).reverse]

/-- The tokens of a line: separated by blanks and commas, a quoted text one token with its opening
quote, and everything from `;` on left out.  `quoted` says whether a quoted text is being read.
DESIGN CHOICE (log 16), where R88 is silent: a blank and a comma, one or more, separate alike; a `;` inside
a quoted text is a byte of the text and starts no comment; a quoted text that is not closed ends with the
line; and a quote ends the word before it, and its closing quote the text, with no separator needed on
either side. -/
def tokens (quoted : Bool) (cur : List Char) : List Char → List (List Char)
  | [] => endToken cur
  | c :: cs =>
    if quoted then
      if c = '"' then cur.reverse :: tokens false [] cs else tokens true (c :: cur) cs
    else if c = ';' then endToken cur
    else if c = ' ' ∨ c = '\t' ∨ c = ',' then endToken cur ++ tokens false [] cs
    else if c = '"' then endToken cur ++ tokens true ['"'] cs
    else tokens false (c :: cur) cs

/-- The value of a hexadecimal digit. -/
def hexDigit (c : Char) : Option Nat :=
  let n := c.toNat
  if 0x30 ≤ n ∧ n ≤ 0x39 then some (n - 0x30)
  else if 0x41 ≤ n ∧ n ≤ 0x46 then some (n - 0x41 + 10)
  else if 0x61 ≤ n ∧ n ≤ 0x66 then some (n - 0x61 + 10)
  else none

/-- The number written by digits of a base, after the value `acc` of the digits before them. -/
def digitsFrom (base : Nat) : Nat → List Char → Option Nat
  | acc, [] => some acc
  | acc, c :: cs =>
    match hexDigit c with
    | some d => if d < base then digitsFrom base (acc * base + d) cs else none
    | none => none

/-- A number, decimal or `0x` hexadecimal.  DESIGN CHOICE (log 16): hexadecimal digits in either case, and
`0x` in lower case only. -/
def readNum : List Char → Option Nat
  | '0' :: 'x' :: c :: cs => digitsFrom 16 0 (c :: cs)
  | c :: cs => digitsFrom 10 0 (c :: cs)
  | [] => none

/-- A number below a bound. -/
def readBelow (bound : Nat) (t : List Char) : Option Nat :=
  match readNum t with
  | some n => if n < bound then some n else none
  | none => none

/-- A byte sequence in hexadecimal, two digits a byte (95_test_vectors.md).  DESIGN CHOICE (log 16): digits
in either case. -/
def readHexBytes : List Char → Option (List Byte)
  | [] => some []
  | c :: d :: cs =>
    match hexDigit c, hexDigit d, readHexBytes cs with
    | some h, some l, some bs => some (BitVec.ofNat 8 (16 * h + l) :: bs)
    | _, _, _ => none
  | [_] => none

/-- A byte sequence: a quoted text by its ASCII codes, or hexadecimal (95_test_vectors.md).  DESIGN CHOICE
(log 16): a character of a quoted text that is not ASCII is read as the low 8 bits of its code, and there is
no escape; a hexadecimal sequence is one token, without blanks. -/
def readBytes : List Char → Option (List Byte)
  | '"' :: cs => some (cs.map fun c => BitVec.ofNat 8 c.toNat)
  | cs => readHexBytes cs

/-- An offset in a buffer window, `IN+<o>` or `OUT+<o>`, after its window's name.  DESIGN CHOICE (log 15):
R88 only says that it stands for base + o and gives o no bound; the model refuses o from 0x10000 on, which
lies outside the window named. -/
def readWindow (base : Nat) (t : List Char) : Option Nat :=
  match readBelow 0x10000 t with
  | some o => some (base + o)
  | none => none

/-- An `<addr>`: a register name, `IN+<o>`, `OUT+<o>` or a number. -/
def readAddr (t : List Char) : Option Nat :=
  match registerNames.find? (fun e => e.1.toList == t) with
  | some e => some e.2.offset
  | none =>
    match t with
    | 'I' :: 'N' :: '+' :: o => readWindow 0x10000 o
    | 'O' :: 'U' :: 'T' :: '+' :: o => readWindow 0x20000 o
    | o => readBelow 0x40000 o

/-- An RD line. -/
def readRd (a : List Char) (expect : Option Word) : Option Line :=
  match readAddr a with
  | some a => some (.txn (.rd (BitVec.ofNat 18 a)) expect)
  | none => none

/-- A WR line. -/
def readWr (a d st : List Char) : Option Line :=
  match readAddr a, readBelow (2 ^ 32) d, readBelow 16 st with
  | some a, some d, some st =>
    some (.txn (.wr (BitVec.ofNat 18 a) (BitVec.ofNat 32 d) (BitVec.ofNat 4 st)) none)
  | _, _, _ => none

/-- A well-formed pseudo-instruction of a byte sequence. -/
def readPseudo (f : List Byte → Pseudo) (t : List Char) : Option Line :=
  match readBytes t with
  | some s => if (f s).wf then some (.pseudo (f s)) else none
  | none => none

/-- A line by its tokens.  DESIGN CHOICE (log 16): names in the case R88 and R89 write them, `=>` a token of
its own, and no further tokens.  A WAIT is read with `polls`, the number of its polls that do not see DONE,
which is the run's and not the text's. -/
def readTokens (polls : Nat) (ts : List (List Char)) : Option Line :=
  match ts with
  | [] => some .blank
  | [m] =>
    if m = "ENCODE".toList then some (.pseudo .encode)
    else if m = "DECODE".toList then some (.pseudo .decode)
    else if m = "DECODE.XIV".toList then some (.pseudo .decodeXiv)
    else if m = "DECODE.LENIENT".toList then some (.pseudo .decodeLenient)
    else if m = "WAIT".toList then some (.pseudo (.wait polls))
    else if m = "ACK".toList then some (.pseudo .ack)
    else if m = "ACKOVR".toList then some (.pseudo .ackOvr)
    else if m = "IRQON".toList then some (.pseudo .irqOn)
    else if m = "IRQOFF".toList then some (.pseudo .irqOff)
    else if m = "SRST".toList then some (.pseudo .srst)
    else none
  | [m, x] =>
    if m = "RD".toList then readRd x none
    else if m = "LOADKEY".toList then readPseudo .loadKey x
    else if m = "LOADNONCE".toList then readPseudo .loadNonce x
    else if m = "LOADIV".toList then readPseudo .loadIv x
    else none
  | [m, x, y] =>
    if m = "WR".toList then readWr x y "15".toList
    else if m = "FILL".toList then
      match x with
      | 'I' :: 'N' :: '+' :: o =>
        match readNum o with
        | some o => readPseudo (.fill o) y
        | none => none
      | _ => none
    else if m = "DUMP".toList ∧ x = "OUT".toList then
      match readNum y with
      | some n => if (Pseudo.dump n).wf then some (.pseudo (.dump n)) else none
      | none => none
    else none
  | [m, x, y, z] =>
    if m = "WR".toList then readWr x y z
    else if m = "RD".toList ∧ y = "=>".toList then
      match readBelow (2 ^ 32) z with
      | some v => readRd x (some (BitVec.ofNat 32 v))
      | none => none
    else none
  | _ => none

/-- A token that names a line, `<label>:`; host-side control flow is the host's (R88).  DESIGN CHOICE
(log 16): a label is a token of its own, so a blank (or a comma) must follow its `:` before the line's first
word. -/
def isLabel (t : List Char) : Bool := t.getLast? == some ':'

/-- One line of text, R88; at most one label, before everything else (log 16, DESIGN CHOICE). -/
def readLine (polls : Nat) (text : List Char) : Option Line :=
  match tokens false [] text with
  | t :: ts => if isLabel t then readTokens polls ts else readTokens polls (t :: ts)
  | [] => some .blank

/-- The transactions of a line (R89). -/
def Line.instrs : Line → List Instr
  | .blank => []
  | .txn i _ => [i]
  | .pseudo p => p.expand

/-- The BUS64 words of a list of transactions, as the host's coming events (R85). -/
def asEvents (is : List Instr) : List Event :=
  is.filterMap fun i =>
    match Sys2Proof.encode i with
    | .bus64 w => some (.txn w)
    | .cmd32 _ => none

end Sys2Proof.Machine
end

