-- ==== Sys2Proof/Safety.lean ====
section
/-! DEFINITION. The terms claims about runs are stated in: when a run is finished (00_scope.md R17), what
a clean entry state is (70_reset_and_hazards.md R304), which host programs are well-formed
(30_encoding.md R86), and the invariant every step keeps. -/

namespace Sys2Proof.Machine

/-- 00_scope.md R17: a run ends when the host has no further transaction and `fsm = IDLE`.  DESIGN CHOICE
(log 5): a hardware reset still to come counts as something left, so a run is not finished before it; R17
speaks of transactions only. -/
def State.finished (s : State) : Bool := s.inputs.isEmpty && s.fsm == .idle

/-- 70_reset_and_hazards.md R304: `fsm = IDLE`, `STATUS.OVR = 0` and no command in flight. -/
def State.cleanEntry (s : State) : Bool := s.fsm == .idle && !s.ovr

/-- An event the EVF can receive: a reset, or a word that is a transaction (30_encoding.md R86). -/
def Event.wf : Event → Bool
  | .txn w => isTransaction w
  | .reset => true

/-- The host's coming events are all ones the EVF can receive. -/
def State.inputsWf (s : State) : Bool := s.inputs.all Event.wf

/-- A command, not a transaction. -/
def isCommand : Instr → Bool
  | .rd _ => false
  | .wr _ _ _ => false
  | .encode => true
  | .decode => true
  | .decodeXiv => true
  | .decodeLenient => true

/-- The result registers are all 0. -/
def State.noResult (s : State) : Prop :=
  s.outLen = 0 ∧ s.resPoff = 0 ∧ s.resPlen = 0 ∧ s.resIoff = 0 ∧ s.resIlen = 0

/-- The invariant of the machine. -/
structure MachineInv (s : State) : Prop where
  /-- The parameters are ones R8 allows. -/
  params : s.params.wf
  /-- IN_BUF and OUT_BUF are in canonical form. -/
  inWf : s.inBuf.wf
  outWf : s.outBuf.wf
  /-- IN_BUF has no byte at or beyond BUF_BYTES (R43). -/
  inBound : ∀ c ∈ s.inBuf, c.1 < s.params.bufBytes
  /-- OUT_BUF[OUT_LEN : BUF_BYTES) is all zero (R44). -/
  outBound : ∀ c ∈ s.outBuf, c.1 < s.outLen.toNat
  /-- OUT_LEN counts bytes of OUT_BUF (R37, R44). -/
  outLen : s.outLen.toNat ≤ s.params.bufBytes
  /-- The payload and the identifier the result registers name lie in OUT_BUF[0 : OUT_LEN) (R38 to R41). -/
  payload : s.resPoff.toNat + s.resPlen.toNat ≤ s.outLen.toNat
  ident : s.resIoff.toNat + s.resIlen.toNat ≤ s.outLen.toNat
  /-- BUSY: DONE = 0 (R28, R273), and ERRCODE and the results are 0 from issue (R246). -/
  busy : s.fsm = .busy → s.done = false ∧ s.errcode = 0 ∧ s.noResult
  /-- A failed command has no result (R276). -/
  failed : s.errcode ≠ 0 → s.noResult
  /-- ERRCODE.CODE is never a reserved code (R270). -/
  code : s.errcode.toNat ≤ 9
  /-- The schedule counts host steps only while BUSY (the model's schedule, log 1). -/
  idle : s.fsm = .idle → s.wait = 0

end Sys2Proof.Machine
end

