-- ==== Sys2Proof/Certificates/Slice0/Obligations.lean ====
section
/-! DEFINITION. The statements for the provers: each says what a numbered rule of the spec says the EVF
does, or a law the rules imply.  Who moves next (`State.turn`, and the hypotheses on `wait` and `inputs`) is
the model's schedule (logs 1, 2, 3 and 5), and that a step refuses an ill-formed host word is the model's
(log 11).  The schedule fields (`wait`, `latencies`, `issues`) and
`Config.latency` are free in every statement but one: `InvariantHoldsAtReset` rests on `wait` being 0 at
reset (log 1). -/

namespace Sys2Proof.Machine

/-! ### Words the statements share -/

/-- The state after a completion with error code `c`: ERRCODE (60_exceptions.md R276), the key consumed
(R277), IDLE and DONE (R274); everything else as before. -/
def State.afterError (s : State) (c : BitVec 4) : State :=
  { s with
    errcode := c
    key := Vector.replicate 8 0
    keyLen := 0
    fsm := .idle
    done := true }

/-- `t` is `s` after a successful completion that returns `out` (60_exceptions.md R275, R277, R274): the
bytes of `out` in OUT_BUF from index 0, their count in OUT_LEN, the four result registers as given, the
key consumed, IDLE and DONE; every other field, and every OUT_BUF byte past `out`, as before. -/
structure State.AfterSuccess (s t : State) (out : List Byte) (poff plen ioff ilen : Word) : Prop where
  frame : t = { s with
    outBuf := t.outBuf
    outLen := BitVec.ofNat 32 out.length
    resPoff := poff
    resPlen := plen
    resIoff := ioff
    resIlen := ilen
    key := Vector.replicate 8 0
    keyLen := 0
    fsm := .idle
    done := true }
  bytes : ∀ x, t.outBuf.read x = if x < out.length then out.getD x 0 else s.outBuf.read x

/-- The byte sequence IN_BUF[off : off+n), byte by byte (00_scope.md R12). -/
def State.inputAt (s : State) (off n : Nat) : List Byte :=
  (List.range n).map (fun j => s.inBuf.read (off + j))

/-- The addresses of the gated targets, 46_host_bus.md R244, for a word address: CMD, KEY_LEN, the run of
registers from KEY0 to IN_LEN, and the IN_BUF window. -/
def gatedAddr (w : Nat) : Prop :=
  w = 0x00C ∨ w = 0x018 ∨ (0x020 ≤ w ∧ w ≤ 0x068) ∨ (0x10000 ≤ w ∧ w < 0x20000)

/-- The big-endian value of bytes [16,20) of a decrypted buffer (43_length_parser.md R160). -/
def prefixValue (d : List Byte) : Nat :=
  2 ^ 24 * (d.getD 16 0).toNat + 2 ^ 16 * (d.getD 17 0).toNat + 2 ^ 8 * (d.getD 18 0).toNat
    + (d.getD 19 0).toNat

/-- The base64 text after 45_decode_lenient.md R212: without its CR and LF bytes when B64_IGNORE_CRLF is
set, the whole text otherwise. -/
def withoutLineBreaks (p : Params) (s : List Byte) : List Byte :=
  if p.b64IgnoreCrlf = true then s.filter (fun c => decide (c ≠ 0x0D ∧ c ≠ 0x0A)) else s

/-- The operands a command reads agree in the two states (30_encoding.md R84), and so do the
parameters. -/
def SameOperands (i : Instr) (s s' : State) : Prop :=
  s.params = s'.params ∧ s.keyLen = s'.keyLen ∧ s.key = s'.key ∧
  match i with
  | .encode =>
    s.nonce = s'.nonce ∧ s.plen = s'.plen ∧ s.ilen = s'.ilen ∧
      ∀ x < s.plen.toNat + s.ilen.toNat, s.inBuf.read x = s'.inBuf.read x
  | .decode => s.inLen = s'.inLen ∧ ∀ x < s.inLen.toNat, s.inBuf.read x = s'.inBuf.read x
  | .decodeXiv =>
    s.iv = s'.iv ∧ s.inLen = s'.inLen ∧ ∀ x < s.inLen.toNat, s.inBuf.read x = s'.inBuf.read x
  | .decodeLenient => s.inLen = s'.inLen ∧ ∀ x < s.inLen.toNat, s.inBuf.read x = s'.inBuf.read x
  | .rd _ => False
  | .wr _ _ _ => False

/-- The outcome fields agree in the two states. -/
def SameOutcome (s s' : State) : Prop :=
  s.errcode = s'.errcode ∧ s.outLen = s'.outLen ∧ s.resPoff = s'.resPoff ∧ s.resPlen = s'.resPlen ∧
    s.resIoff = s'.resIoff ∧ s.resIlen = s'.resIlen ∧ s.outBuf = s'.outBuf

/-- The step of `s` performs the write of DATA = `d` with STRB = `st` at an address of the word `w`. -/
def State.writesNext (s : State) (w : Nat) (d : Word) (st : BitVec 4) : Prop :=
  ∃ x rest a, s.turn = .host (.txn x) rest ∧ Sys2Proof.decodeBus x = .ok (.wr a d st) ∧
    a.toNat - a.toNat % 4 = w

/-- The step of `s` is a reset: hardware, or a CTRL write with DATA[1] = 1 (R300, R301). -/
def State.resetsNext (s : State) : Prop :=
  (∃ rest, s.turn = .host .reset rest) ∨ (∃ d, s.writesNext 0x008 d 0xF ∧ d.getLsbD 1 = true)

/-- Execute a list of instructions one after another. -/
def execList : List Instr → State → Host.Outcome State Fault Refusal
  | [], s => .next s
  | i :: is, s =>
    match exec i s with
    | .next t => execList is t
    | .fault r => .fault r
    | .refused r => .refused r

end Sys2Proof.Machine

open Sys2Proof Sys2Proof.Machine

/-! ### Encoding -/

/-- Sanity: the words 30_encoding.md R85 and 95_test_vectors.md 2.9 write out (V-W1 to V-W9) and the four
command words of R82 decode as they say. -/
def Obligations.SpecWordsDecodeAsWritten : Prop :=
  decode (.bus64 0x8F00000C00000001) = .ok (.wr 0x0000C 0x00000001 0xF) ∧
  decode (.bus64 0x0000001000000000) = .ok (.rd 0x00010) ∧
  decode (.bus64 0x8301000800003332) = .ok (.wr 0x10008 0x00003332 0x3) ∧
  decode (.bus64 0x800000600000FFFF) = .ok (.wr 0x00060 0x0000FFFF 0x0) ∧
  decode (.bus64 0x0003FFFC00000000) = .ok (.rd 0x3FFFC) ∧
  decode (.bus64 0x4F00000C00000001) = .error (.notATransaction 0x4F00000C00000001) ∧
  decode (.bus64 0x0000001000000001) = .error (.notATransaction 0x0000001000000001) ∧
  decode (.bus64 0x0100001000000000) = .error (.notATransaction 0x0100001000000000) ∧
  decode (.bus64 0x8F04000C00000001) = .error (.notATransaction 0x8F04000C00000001) ∧
  decode (.cmd32 0x00000001) = .ok .encode ∧
  decode (.cmd32 0x00000002) = .ok .decode ∧
  decode (.cmd32 0x00000003) = .ok .decodeXiv ∧
  decode (.cmd32 0x00000004) = .ok .decodeLenient

/-- The decoder gives back every instruction from its encoding, whatever its operands. -/
def Obligations.DecodeOfEncodeIsTheInstruction : Prop :=
  ∀ i : Instr, decode (encode i) = .ok i

/-- Each code word that decodes has one meaning: it is the encoding of the instruction it decodes to. -/
def Obligations.EncodeOfDecodeIsTheWord : Prop :=
  ∀ (c : CodeWord) (i : Instr), decode c = .ok i → encode i = c

/-- 30_encoding.md R85 and R86, field by field: a word is RD when WE, Z0, STRB, Z1 and DATA are all 0, WR
when WE is 1 and Z0 and Z1 are 0, with ADDR, DATA and STRB taken from their bits; every other word is
refused by name by the decoder, as R86 says.  That a step that meets it as the next host event is refused
too, naming the word, is the model's (log 11), on its own list of host events (log 5). -/
def Obligations.BusWordsDecodeByTheirFields : Prop :=
  ∀ w : BitVec 64,
    let we := w.extractLsb' 63 1
    let z0 := w.extractLsb' 60 3
    let strb := w.extractLsb' 56 4
    let z1 := w.extractLsb' 50 6
    let addr := w.extractLsb' 32 18
    let data := w.extractLsb' 0 32
    (we = 0 ∧ z0 = 0 ∧ strb = 0 ∧ z1 = 0 ∧ data = 0 → decodeBus w = .ok (.rd addr)) ∧
    (we = 1 ∧ z0 = 0 ∧ z1 = 0 → decodeBus w = .ok (.wr addr data strb)) ∧
    (¬ (we = 0 ∧ z0 = 0 ∧ strb = 0 ∧ z1 = 0 ∧ data = 0) → ¬ (we = 1 ∧ z0 = 0 ∧ z1 = 0) →
      decodeBus w = .error (.notATransaction w) ∧
      ∀ (s : State) (rest : List Event), s.turn = .host (.txn w) rest →
        step s = .refused (.notATransaction w))

/-- 30_encoding.md R82: a CMD32 word selects an operation exactly when it is one of the four numbers. -/
def Obligations.CommandWordsAreTheFourNumbers : Prop :=
  ∀ (w : Word) (i : Instr), decodeCmd w = .ok i ↔
    (w = 0x00000001 ∧ i = .encode) ∨ (w = 0x00000002 ∧ i = .decode) ∨
    (w = 0x00000003 ∧ i = .decodeXiv) ∨ (w = 0x00000004 ∧ i = .decodeLenient)

/-- No code word matches two rows of the opcode table, and a word that decodes matches the row of the
instruction it decodes to. -/
def Obligations.OpcodeRowsDoNotOverlap : Prop :=
  (∀ (c : CodeWord) (r r' : OpcodeRow), r ∈ opcodeTable → r' ∈ opcodeTable →
    r.matches c = true → r'.matches c = true → r = r') ∧
  (∀ (c : CodeWord) (i : Instr), decode c = .ok i →
    ∃ r ∈ opcodeTable, r.mnemonic = mnemonic i ∧ r.matches c = true)

/-! ### One step -/

/-- A step runs the decoded instruction.  A transaction at the head of the host's events runs from the
state without it and with one host step less to wait; the command in CMDW runs when the engine's step is
due (the schedule is the model's: logs 1 and 2).  A placed word (log 8) runs in the very next step. -/
def Obligations.StepRunsTheDecodedInstruction : Prop :=
  (∀ (s : State) (w : BitVec 64) (rest : List Event) (i : Instr),
    s.inputs = .txn w :: rest → (s.fsm = .idle ∨ s.wait ≠ 0) → decodeBus w = .ok i →
    step s = exec i { s with inputs := rest, wait := s.wait - 1 }) ∧
  (∀ (s : State) (i : Instr),
    s.fsm = .busy → (s.wait = 0 ∨ s.inputs = []) → decodeCmd s.cmdw = .ok i →
    step s = exec i { s with wait := 0 }) ∧
  (∀ (s : State) (nbits w : Nat) (i : Instr), decodeTableWord nbits w = some i →
    (isCommand i = false → step (s.withFetchWord nbits w) =
      exec i { s with wait := if s.fsm = .busy then s.wait else s.wait - 1 }) ∧
    (isCommand i = true → step (s.withFetchWord nbits w) =
      exec i { s.accept (BitVec.ofNat 32 w) with wait := 0 }))

/-- 60_exceptions.md R288: IDLE with no host event left, the machine does nothing (that a step there is
the identity is the model's choice, log 3). -/
def Obligations.IdleWithoutEventsDoesNothing : Prop :=
  ∀ s : State, s.fsm = .idle → s.inputs = [] → step s = .next s

/-- A step is refused only for a host word that is no transaction, and from well-formed host events every
number of steps answers a next state.  R86 has a decoder refuse such a word; that a step refuses it is the
model's (log 11), on its own list of host events (log 5).  That steps go on for ever rests on the model's
schedule (logs 1 and 2) and on its choice that an IDLE step with no event left answers the same state
(log 3). -/
def Obligations.OnlyIllFormedHostWordsAreRefused : Prop :=
  (∀ (s : State) (r : Refusal), step s = .refused r →
    ∃ w rest, s.turn = .host (.txn w) rest ∧ isTransaction w = false ∧ r = .notATransaction w) ∧
  (∀ (s : State) (k : Nat), s.inputsWf = true → ∃ t, Sys2Proof.core.run k s = .next t ∧
    t.inputsWf = true)

/-- 60_exceptions.md R274, 93_implementation_defined.md U8: the engine's step comes after finitely many
host steps.  From a BUSY state, within `wait` steps the machine is at a step, still BUSY with the same
command, that makes it IDLE: the engine's, which sets DONE, or a reset's, which discards the command
(70_reset_and_hazards.md R302).  The count is the model's schedule (logs 1 and 2); the list of host events
is the model's (log 5). -/
def Obligations.EveryCommandCompletesOrIsResetAfterFinitelyManySteps : Prop :=
  ∀ s : State, s.inputsWf = true → s.fsm = .busy →
    ∃ k ≤ s.wait, ∃ u t, Sys2Proof.core.run k s = .next u ∧ u.fsm = .busy ∧ u.cmdw = s.cmdw ∧
      step u = .next t ∧ t.fsm = .idle ∧ ((u.turn = .engine ∧ t.done = true) ∨ u.resetsNext)

/-! ### RD, 46_host_bus.md R241 -/

/-- R241: RD always completes, with the word at W as its response (`responses`, log 6), and changes nothing
else.  While BUSY,
in a state of the invariant, every result reads 0 (corner case (a)). -/
def Obligations.ReadReturnsTheWordAndChangesNothing : Prop :=
  ∀ (a : BitVec 18) (s : State),
    let w := a.toNat - a.toNat % 4
    ∃ v : Word, exec (.rd a) s = .next { s with responses := s.responses ++ [v] } ∧
      (w = 0x000 → v = 0x454E5631) ∧
      (w = 0x004 → v = BitVec.ofNat 32 s.params.bufBytes) ∧
      (w = 0x008 → v = if s.irqEn then 1 else 0) ∧
      (w = 0x00C → v = 0) ∧
      (w = 0x010 → (v.getLsbD 0 = true ↔ s.fsm = .busy) ∧ v.getLsbD 1 = s.done ∧
        (v.getLsbD 2 = true ↔ s.errcode ≠ 0) ∧ v.getLsbD 3 = s.ovr ∧
        ∀ k, 4 ≤ k → v.getLsbD k = false) ∧
      (w = 0x014 → v.toNat = s.errcode.toNat) ∧
      (w = 0x018 → v = s.keyLen) ∧
      (w = 0x01C → v = 0) ∧
      (0x020 ≤ w → w ≤ 0x03C → v = 0) ∧
      (∀ i : Fin 4, w = 0x040 + 4 * i.val → v = s.nonce[i]) ∧
      (∀ i : Fin 4, w = 0x050 + 4 * i.val → v = s.iv[i]) ∧
      (w = 0x060 → v = s.plen) ∧
      (w = 0x064 → v = s.ilen) ∧
      (w = 0x068 → v = s.inLen) ∧
      (w = 0x06C → v = 0) ∧
      (w = 0x070 → v = s.outLen) ∧
      (w = 0x074 → v = s.resPoff) ∧
      (w = 0x078 → v = s.resPlen) ∧
      (w = 0x07C → v = s.resIoff) ∧
      (w = 0x080 → v = s.resIlen) ∧
      (0x084 ≤ w → w < 0x10000 → v = 0) ∧
      (∀ o < 0x10000, w = 0x10000 + o → ∀ j < 4, v.extractLsb' (8 * j) 8 =
        if o + j < s.params.bufBytes then s.inBuf.read (o + j) else 0) ∧
      (∀ o < 0x10000, w = 0x20000 + o → ∀ j < 4, v.extractLsb' (8 * j) 8 =
        if o + j < s.params.bufBytes then s.outBuf.read (o + j) else 0) ∧
      (0x30000 ≤ w → v = 0) ∧
      (MachineInv s → s.fsm = .busy → (0x070 ≤ w ∧ w ≤ 0x080) ∨ (0x20000 ≤ w ∧ w < 0x30000) → v = 0)

/-- 20_memory.md R65: address bits A[1:0] are ignored, by reads and by writes. -/
def Obligations.LowAddressBitsAreIgnored : Prop :=
  ∀ (a b : BitVec 18) (d : Word) (st : BitVec 4) (s : State), a.toNat / 4 = b.toNat / 4 →
    exec (.rd a) s = exec (.rd b) s ∧ exec (.wr a d st) s = exec (.wr b d st) s

/-! ### WR, 46_host_bus.md R242 to R251 -/

/-- R243: strobes.  STRB = 0 changes nothing; a partial register write changes nothing, but for OVR when
the register is gated and the engine BUSY; and outside the register block and IN_BUF no strobe selects
anything. -/
def Obligations.PartialWritesChangeNothing : Prop :=
  ∀ (a : BitVec 18) (d : Word) (st : BitVec 4) (s : State),
    let w := a.toNat - a.toNat % 4
    (st = 0 → exec (.wr a d st) s = .next s) ∧
    (w < 0x100 → st ≠ 0 → st ≠ 0xF → ¬ (gatedAddr w ∧ s.fsm = .busy) → exec (.wr a d st) s = .next s) ∧
    (w < 0x100 → st ≠ 0 → st ≠ 0xF → gatedAddr w → s.fsm = .busy →
      exec (.wr a d st) s = .next { s with ovr := true }) ∧
    (0x100 ≤ w → ¬ (0x10000 ≤ w ∧ w < 0x20000) → exec (.wr a d st) s = .next s)

/-- R244: a WR with STRB != 0 to a gated target while BUSY is dropped and sets OVR; a WR to any other
target never sets OVR, and none does while IDLE; a WR that leaves the command running leaves its inputs as
they were. -/
def Obligations.GatedWritesWhileBusyAreDropped : Prop :=
  ∀ (a : BitVec 18) (d : Word) (st : BitVec 4) (s : State),
    let w := a.toNat - a.toNat % 4
    (st ≠ 0 → gatedAddr w → s.fsm = .busy → exec (.wr a d st) s = .next { s with ovr := true }) ∧
    (¬ gatedAddr w ∨ s.fsm = .idle → ∃ t, exec (.wr a d st) s = .next t ∧ (t.ovr = true → s.ovr = true)) ∧
    (s.fsm = .busy → ∃ t, exec (.wr a d st) s = .next t ∧ (t.fsm = .busy →
      t.cmdw = s.cmdw ∧ t.keyLen = s.keyLen ∧ t.key = s.key ∧ t.nonce = s.nonce ∧ t.iv = s.iv ∧
      t.plen = s.plen ∧ t.ilen = s.ilen ∧ t.inLen = s.inLen ∧ t.inBuf = s.inBuf))

/-- R245 with 70_reset_and_hazards.md R301: a full CTRL write sets IRQ_EN to DATA[0], and with
DATA[1] = 1 resets every register and both buffers, IRQ_EN included; in either engine state.  What is
outside the EVF is not reset (the model's fields, logs 1, 4, 5 and 6). -/
def Obligations.CtrlWriteSetsIrqEnableOrResets : Prop :=
  ∀ (a : BitVec 18) (d : Word) (s : State), a.toNat - a.toNat % 4 = 0x008 →
    (d.getLsbD 1 = false → exec (.wr a d 0xF) s = .next { s with irqEn := d.getLsbD 0 }) ∧
    (d.getLsbD 1 = true → exec (.wr a d 0xF) s = .next
      { State.reset with
        params := s.params
        inputs := s.inputs
        responses := s.responses
        latencies := s.latencies
        issues := s.issues })

/-- R246: a full CMD write while IDLE issues a command, whatever DATA is; while BUSY it is dropped and
sets OVR.  The delay it draws is left open (log 1). -/
def Obligations.CmdWriteIssuesACommand : Prop :=
  ∀ (a : BitVec 18) (d : Word) (s : State), a.toNat - a.toNat % 4 = 0x00C →
    (s.fsm = .idle → ∃ n ls k, exec (.wr a d 0xF) s = .next
      { s with
        cmdw := d
        fsm := .busy
        done := false
        errcode := 0
        outLen := 0
        resPoff := 0
        resPlen := 0
        resIoff := 0
        resIlen := 0
        outBuf := []
        wait := n
        latencies := ls
        issues := k }) ∧
    (s.fsm = .busy → exec (.wr a d 0xF) s = .next { s with ovr := true })

/-- R247: a full STATUS write clears DONE where DATA[1] is 1 and OVR where DATA[3] is 1, and changes
nothing else; in either engine state. -/
def Obligations.StatusWriteClearsByWritingOne : Prop :=
  ∀ (a : BitVec 18) (d : Word) (s : State), a.toNat - a.toNat % 4 = 0x010 →
    exec (.wr a d 0xF) s = .next
      { s with
        done := s.done && !(d.getLsbD 1)
        ovr := s.ovr && !(d.getLsbD 3) }

/-- R248: a full operand register write while IDLE stores DATA, with no check, and changes nothing
else. -/
def Obligations.OperandWritesStoreTheData : Prop :=
  ∀ (a : BitVec 18) (d : Word) (s : State), s.fsm = .idle →
    let w := a.toNat - a.toNat % 4
    (w = 0x018 → exec (.wr a d 0xF) s = .next { s with keyLen := d }) ∧
    (∀ i : Fin 8, w = 0x020 + 4 * i.val →
      exec (.wr a d 0xF) s = .next { s with key := s.key.set i d }) ∧
    (∀ i : Fin 4, w = 0x040 + 4 * i.val →
      exec (.wr a d 0xF) s = .next { s with nonce := s.nonce.set i d }) ∧
    (∀ i : Fin 4, w = 0x050 + 4 * i.val →
      exec (.wr a d 0xF) s = .next { s with iv := s.iv.set i d }) ∧
    (w = 0x060 → exec (.wr a d 0xF) s = .next { s with plen := d }) ∧
    (w = 0x064 → exec (.wr a d 0xF) s = .next { s with ilen := d }) ∧
    (w = 0x068 → exec (.wr a d 0xF) s = .next { s with inLen := d })

/-- R249: an IN_BUF write while IDLE stores the lanes whose strobe is set, below BUF_BYTES, and changes no
other byte and no other field. -/
def Obligations.InBufWritesStoreTheStrobedLanes : Prop :=
  ∀ (a : BitVec 18) (d : Word) (st : BitVec 4) (s : State) (o : Nat), s.inBuf.wf → s.fsm = .idle →
    o < 0x10000 → a.toNat - a.toNat % 4 = 0x10000 + o →
    ∃ t, exec (.wr a d st) s = .next t ∧ t = { s with inBuf := t.inBuf } ∧
      (∀ j < 4, t.inBuf.read (o + j) =
        if st.getLsbD j = true ∧ o + j < s.params.bufBytes then d.extractLsb' (8 * j) 8
        else s.inBuf.read (o + j)) ∧
      (∀ x, x < o ∨ o + 4 ≤ x → t.inBuf.read x = s.inBuf.read x)

/-- R251, with R250: writes to OUT_BUF, to the read-only registers, to reserved offsets and to reserved
regions have no effect, with any strobe and in either engine state. -/
def Obligations.OtherWritesHaveNoEffect : Prop :=
  ∀ (a : BitVec 18) (d : Word) (st : BitVec 4) (s : State),
    let w := a.toNat - a.toNat % 4
    (w = 0x000 ∨ w = 0x004 ∨ w = 0x014 ∨ w = 0x01C ∨ (0x06C ≤ w ∧ w < 0x10000) ∨ 0x20000 ≤ w) →
    exec (.wr a d st) s = .next s

/-- R250: a WR to the OUT_BUF window has no effect, in either engine state, and sets no OVR; and no WR at
all puts a byte into OUT_BUF, nor changes a result register but by clearing all of them (issue or soft
reset). -/
def Obligations.WritesNeverProduceResults : Prop :=
  ∀ (a : BitVec 18) (d : Word) (st : BitVec 4) (s : State),
    let w := a.toNat - a.toNat % 4
    (0x20000 ≤ w → w < 0x30000 → exec (.wr a d st) s = .next s) ∧
    ∃ t, exec (.wr a d st) s = .next t ∧
    ((t.outBuf = s.outBuf ∧ t.outLen = s.outLen ∧ t.resPoff = s.resPoff ∧ t.resPlen = s.resPlen ∧
        t.resIoff = s.resIoff ∧ t.resIlen = s.resIlen ∧ t.errcode = s.errcode) ∨
      (t.outBuf = [] ∧ t.noResult ∧ t.errcode = 0))

/-! ### The four commands -/

/-- 41_framer_encode.md R124: ENCODE's word, and what it does on every input, its checks in order. -/
def Obligations.EncodeFramesPadsAndEncrypts : Prop :=
  Sys2Proof.decode (.cmd32 0x00000001) = .ok .encode ∧ ∀ s : State, s.outBuf.wf →
    let p := s.plen.toNat
    let i := s.ilen.toNat
    let u := 20 + p + i
    let pad := 32 - u % 32
    let plain := s.nonceBytes ++ be32 p ++ s.inputAt 0 p ++ s.inputAt p i
      ++ List.replicate pad (BitVec.ofNat 8 pad)
    let c := cbcE s.keyBytes (s.keyBytes.take 16) plain
    (s.keyLen ≠ 32 → exec .encode s = .next (s.afterError 1)) ∧
    (s.keyLen = 32 → u + pad > s.params.bufBytes → exec .encode s = .next (s.afterError 9)) ∧
    (s.keyLen = 32 → u + pad ≤ s.params.bufBytes →
      ∃ t, exec .encode s = .next t ∧ c.length = u + pad ∧
        s.AfterSuccess t c s.resPoff s.resPlen s.resIoff s.resIlen)

/-- 44_decode.md R180: DECODE's word, and what it does on every input, its checks in order. -/
def Obligations.DecodeDecryptsValidatesAndParses : Prop :=
  Sys2Proof.decode (.cmd32 0x00000002) = .ok .decode ∧ ∀ s : State, s.outBuf.wf →
    let l := s.inLen.toNat
    let d := cbcD s.keyBytes (s.keyBytes.take 16) (s.inputAt 0 l)
    let pad := (d.getD (l - 1) 0).toNat
    let t := l - pad
    let n := prefixValue d
    (l > s.params.bufBytes → exec .decode s = .next (s.afterError 9)) ∧
    (l ≤ s.params.bufBytes → l < 32 → exec .decode s = .next (s.afterError 2)) ∧
    (l ≤ s.params.bufBytes → 32 ≤ l → l % 32 ≠ 0 → exec .decode s = .next (s.afterError 3)) ∧
    (l ≤ s.params.bufBytes → 32 ≤ l → l % 32 = 0 → s.keyLen ≠ 32 →
      exec .decode s = .next (s.afterError 1)) ∧
    (l ≤ s.params.bufBytes → 32 ≤ l → l % 32 = 0 → s.keyLen = 32 →
      (pad < 1 ∨ 32 < pad → exec .decode s = .next (s.afterError 4)) ∧
      (1 ≤ pad → pad ≤ 32 → t ≤ 20 → exec .decode s = .next (s.afterError 5)) ∧
      (1 ≤ pad → pad ≤ 32 → 20 < t → 20 + n > t → exec .decode s = .next (s.afterError 6)) ∧
      (1 ≤ pad → pad ≤ 32 → 20 < t → 20 + n ≤ t →
        ∃ s', exec .decode s = .next s' ∧ (d.take t).length = t ∧
          s.AfterSuccess s' (d.take t) 20 (BitVec.ofNat 32 n) (BitVec.ofNat 32 (20 + n))
            (BitVec.ofNat 32 (t - 20 - n))))

/-- 44_decode.md R181: DECODE_XIV's word, and what it does on every input, its checks in order. -/
def Obligations.DecodeXivDecryptsWithTheExplicitIv : Prop :=
  Sys2Proof.decode (.cmd32 0x00000003) = .ok .decodeXiv ∧ ∀ s : State, s.outBuf.wf →
    let l := s.inLen.toNat
    let d := cbcD s.keyBytes s.ivBytes (s.inputAt 0 l)
    let pad := (d.getD (l - 1) 0).toNat
    let t := l - pad
    (l > s.params.bufBytes → exec .decodeXiv s = .next (s.afterError 9)) ∧
    (l ≤ s.params.bufBytes → l < 32 → exec .decodeXiv s = .next (s.afterError 2)) ∧
    (l ≤ s.params.bufBytes → 32 ≤ l → l % 16 ≠ 0 → exec .decodeXiv s = .next (s.afterError 3)) ∧
    (l ≤ s.params.bufBytes → 32 ≤ l → l % 16 = 0 → s.keyLen ≠ 32 →
      exec .decodeXiv s = .next (s.afterError 1)) ∧
    (l ≤ s.params.bufBytes → 32 ≤ l → l % 16 = 0 → s.keyLen = 32 →
      (pad < 1 ∨ 32 < pad → exec .decodeXiv s = .next (s.afterError 4)) ∧
      (1 ≤ pad → pad ≤ 32 → t ≤ 20 → exec .decodeXiv s = .next (s.afterError 5)) ∧
      (1 ≤ pad → pad ≤ 32 → 20 < t →
        ∃ s', exec .decodeXiv s = .next s' ∧ (d.take t).length = t ∧
          s.AfterSuccess s' (d.take t) s.resPoff s.resPlen s.resIoff s.resIlen))

/-- 45_decode_lenient.md R214: DECODE_LENIENT's word, and what it does on every input, its checks in order. -/
def Obligations.DecodeLenientReturnsTheNamedSlice : Prop :=
  Sys2Proof.decode (.cmd32 0x00000004) = .ok .decodeLenient ∧ ∀ s : State, s.outBuf.wf →
    let text := s.inputAt 0 s.inLen.toNat
    (s.inLen.toNat > s.params.bufBytes → exec .decodeLenient s = .next (s.afterError 9)) ∧
    (s.inLen.toNat ≤ s.params.bufBytes → b64Dec s.params text = none →
      exec .decodeLenient s = .next (s.afterError 7)) ∧
    (∀ b, s.inLen.toNat ≤ s.params.bufBytes → b64Dec s.params text = some b →
      let d := cbcD s.keyBytes (s.keyBytes.take 16) b
      let n := prefixValue d
      (b.length < 32 → exec .decodeLenient s = .next (s.afterError 2)) ∧
      (32 ≤ b.length → b.length % 16 ≠ 0 → exec .decodeLenient s = .next (s.afterError 3)) ∧
      (32 ≤ b.length → b.length % 16 = 0 → s.keyLen ≠ 32 →
        exec .decodeLenient s = .next (s.afterError 1)) ∧
      (32 ≤ b.length → b.length % 16 = 0 → s.keyLen = 32 → 20 + n > b.length →
        exec .decodeLenient s = .next (s.afterError 6)) ∧
      (32 ≤ b.length → b.length % 16 = 0 → s.keyLen = 32 → 20 + n ≤ b.length →
        ∃ s', exec .decodeLenient s = .next s' ∧ ((d.drop 20).take n).length = n ∧
          s.AfterSuccess s' ((d.drop 20).take n) 0 (BitVec.ofNat 32 n) s.resIoff s.resIlen))

/-! ### Completion, 60_exceptions.md R270 to R279 -/

/-- 30_encoding.md R83: an illegal word is accepted by a CMD write while IDLE, and the engine completes it
with IllegalCommand (code 8) and the key cleared, reading no input (46_host_bus.md R246; 60_exceptions.md
R274, R276, R277).  That the engine's step is due when `wait` is 0 or the host has no event left, and leaves
`wait` 0, is the model's schedule (logs 1 and 2). -/
def Obligations.IllegalWordsCompleteWithIllegalCommand : Prop :=
  ∀ d : Word, (d.extractLsb' 4 28 ≠ 0 ∨ d.extractLsb' 0 4 = 0 ∨ 5 ≤ (d.extractLsb' 0 4).toNat) →
    (∀ (a : BitVec 18) (s : State), a.toNat - a.toNat % 4 = 0x00C → s.fsm = .idle →
      ∃ t, exec (.wr a d 0xF) s = .next t ∧ t.fsm = .busy ∧ t.cmdw = d) ∧
    (∀ s : State, s.fsm = .busy → s.cmdw = d → (s.wait = 0 ∨ s.inputs = []) →
      step s = .next (({ s with wait := 0 } : State).afterError 8))

/-- 60_exceptions.md R270, the column "raised by": from issue (ERRCODE = 0) each command completes with
one of its own codes. -/
def Obligations.EachCommandRaisesOnlyItsOwnErrors : Prop :=
  ∀ s : State, s.errcode = 0 →
    (∃ t, exec .encode s = .next t ∧ (t.errcode = 0 ∨ t.errcode = 1 ∨ t.errcode = 9)) ∧
    (∃ t, exec .decode s = .next t ∧ t.errcode.toNat ≠ 7 ∧ t.errcode.toNat ≠ 8 ∧
      t.errcode.toNat ≤ 9) ∧
    (∃ t, exec .decodeXiv s = .next t ∧ (t.errcode.toNat ≤ 5 ∨ t.errcode = 9)) ∧
    (∃ t, exec .decodeLenient s = .next t ∧ t.errcode.toNat ≠ 4 ∧ t.errcode.toNat ≠ 5 ∧
      t.errcode.toNat ≠ 8 ∧ t.errcode.toNat ≤ 9)

/-- 60_exceptions.md R276: after a command that fails, OUT_BUF is all zero and OUT_LEN and RES_* are 0, so
no decrypted byte is visible.  When the engine's step is next is the model's schedule (logs 1 and 2). -/
def Obligations.AFailedCommandShowsNoResult : Prop :=
  ∀ (s t : State), MachineInv s → s.turn = .engine → step s = .next t → t.errcode ≠ 0 →
    t.noResult ∧ ∀ x, t.outBuf.read x = 0

/-- 60_exceptions.md R277: every completion, of a command or of an illegal word, clears KEY0..KEY7 and
KEY_LEN, and keeps NONCE, IV, PLEN, ILEN, IN_LEN and IN_BUF.  That a step with `wait` 0 or with no host
event left is the completion is the model's schedule (logs 1 and 2); that the parameters, the coming events
and what the host has read are kept is about the model's own fields (logs 4, 5 and 6). -/
def Obligations.EveryCompletionConsumesTheKey : Prop :=
  ∀ s : State, s.fsm = .busy → (s.wait = 0 ∨ s.inputs = []) →
    ∃ t, step s = .next t ∧ t.fsm = .idle ∧ t.done = true ∧
      (∀ i : Fin 8, t.key[i] = 0) ∧ t.keyLen = 0 ∧
      t.nonce = s.nonce ∧ t.iv = s.iv ∧ t.plen = s.plen ∧ t.ilen = s.ilen ∧ t.inLen = s.inLen ∧
      t.inBuf = s.inBuf ∧ t.cmdw = s.cmdw ∧ t.irqEn = s.irqEn ∧ t.ovr = s.ovr ∧
      t.params = s.params ∧ t.inputs = s.inputs ∧ t.responses = s.responses

/-- 70_reset_and_hazards.md R308: a command that runs with KEY_LEN not rewritten since the last completion
(so 0) never succeeds. -/
def Obligations.ASecondCommandNeedsTheKeyAgain : Prop :=
  ∀ (s : State) (i : Instr), isCommand i = true → s.keyLen = 0 →
    ∃ c, c ≠ 0 ∧ exec i s = .next (s.afterError c)

/-- 00_scope.md R16, 30_encoding.md R84: a command's outcome is a function of its operands.  Two BUSY
states of the invariant that agree on a command's operands get the same outcome from it, whatever else
differs. -/
def Obligations.CommandsAreFunctionsOfTheirOperands : Prop :=
  ∀ (i : Instr) (s s' : State), MachineInv s → MachineInv s' → s.fsm = .busy → s'.fsm = .busy →
    SameOperands i s s' →
    ∃ t t', exec i s = .next t ∧ exec i s' = .next t' ∧ SameOutcome t t'

/-! ### Whole-machine rules -/

/-- 10_state.md R21: `fsm` goes from IDLE to BUSY only by a full CMD write, and from BUSY to IDLE only by
the engine's step or a reset.  When the engine's step is next is the model's schedule (logs 1 and 2). -/
def Obligations.TheEngineStateMovesOnlyByIssueCompletionAndReset : Prop :=
  ∀ (s t : State), step s = .next t →
    (s.fsm = .idle → t.fsm = .busy → s.writesNext 0x00C t.cmdw 0xF) ∧
    (s.fsm = .busy → t.fsm = .idle → s.turn = .engine ∨ s.resetsNext)

/-- 10_state.md R28: what sets and what clears DONE and OVR.  When the engine's step is next is the model's
schedule (logs 1 and 2). -/
def Obligations.DoneAndOvrChangeOnlyAsTheirTableSays : Prop :=
  ∀ (s t : State), step s = .next t →
    (s.done = false → t.done = true → s.turn = .engine) ∧
    (s.done = true → t.done = false →
      (∃ d, s.writesNext 0x010 d 0xF ∧ d.getLsbD 1 = true) ∨ (∃ d, s.writesNext 0x00C d 0xF) ∨
        s.resetsNext) ∧
    (s.ovr = false → t.ovr = true →
      s.fsm = .busy ∧ ∃ w d st, s.writesNext w d st ∧ gatedAddr w ∧ st ≠ 0) ∧
    (s.ovr = true → t.ovr = false →
      (∃ d, s.writesNext 0x010 d 0xF ∧ d.getLsbD 3 = true) ∨ s.resetsNext)

/-- 46_host_bus.md R244, 20_memory.md R73: while a command is in flight its inputs are fixed.  A step that
leaves the engine BUSY leaves CMDW, every operand register and IN_BUF as they were.  That it also takes one
host step off `wait` is the model's schedule (log 1). -/
def Obligations.InputsAreFixedWhileACommandRuns : Prop :=
  ∀ (s t : State), s.fsm = .busy → step s = .next t → t.fsm = .busy →
    t.cmdw = s.cmdw ∧ t.keyLen = s.keyLen ∧ t.key = s.key ∧ t.nonce = s.nonce ∧ t.iv = s.iv ∧
    t.plen = s.plen ∧ t.ilen = s.ilen ∧ t.inLen = s.inLen ∧ t.inBuf = s.inBuf ∧
    t.wait + 1 = s.wait

/-- 10_state.md R31, 60_exceptions.md R283: host steps learn nothing of the key.  A step that is not the
engine's, from two states that differ only in KEY0..KEY7, is the same step, with the same response
(`responses`, log 6), and leaves two states that differ only in KEY0..KEY7.  The engine's step is left out:
what it returns depends on the key.  When it is next is the model's schedule (logs 1, 2, 3 and 5). -/
def Obligations.HostStepsLearnNothingOfTheKey : Prop :=
  ∀ (s s' t : State), s.turn ≠ .engine → s' = { s with key := s'.key } → step s = .next t →
    ∃ t', step s' = .next t' ∧ t' = { t with key := t'.key }

/-- 60_exceptions.md R280: the level of IRQ, what raises it (a completion, or IRQ_EN set while DONE is 1) and
what lowers it.  When the engine's step is next is the model's schedule (logs 1 and 2). -/
def Obligations.IrqFollowsItsLevel : Prop :=
  (∀ s : State, s.irq = true ↔ s.irqEn = true ∧ s.done = true) ∧
  (∀ (s t : State), step s = .next t → s.turn = .engine → t.irq = s.irqEn) ∧
  (∀ (s t : State), step s = .next t → s.irq = false → t.irq = true →
    s.turn = .engine ∨ (s.done = true ∧ ∃ d, s.writesNext 0x008 d 0xF ∧ d.getLsbD 0 = true)) ∧
  (∀ (s t : State), step s = .next t → s.irq = true → t.irq = false →
    (∃ d, s.writesNext 0x010 d 0xF ∧ d.getLsbD 1 = true) ∨ (∃ d, s.writesNext 0x00C d 0xF) ∨
    (∃ d, s.writesNext 0x008 d 0xF ∧ d.getLsbD 0 = false) ∨ s.resetsNext)

/-- 70_reset_and_hazards.md R300, R302: a hardware reset, also while BUSY, puts every register, the engine
and both buffers at their reset values, and discards the command in flight.  The parameters, the coming
events and what the host has read are not reset (the model's fields, logs 4, 5 and 6); that the reset is
the next step while BUSY only when `wait` is not 0 is the model's schedule (log 1). -/
def Obligations.HardwareResetRestoresEveryResetValue : Prop :=
  ∀ (s : State) (rest : List Event), s.inputs = .reset :: rest → (s.fsm = .idle ∨ s.wait ≠ 0) →
    ∃ t, step s = .next t ∧ t.fsm = .idle ∧ t.cmdw = 0 ∧ t.irqEn = false ∧ t.done = false ∧
      t.ovr = false ∧ t.errcode = 0 ∧ t.keyLen = 0 ∧ (∀ i : Fin 8, t.key[i] = 0) ∧
      (∀ i : Fin 4, t.nonce[i] = 0) ∧ (∀ i : Fin 4, t.iv[i] = 0) ∧ t.plen = 0 ∧ t.ilen = 0 ∧
      t.inLen = 0 ∧ t.noResult ∧ (∀ x, t.inBuf.read x = 0) ∧ (∀ x, t.outBuf.read x = 0) ∧
      t.irq = false ∧ t.busRead 0x00010 = 0 ∧ t.busRead 0x00000 = 0x454E5631 ∧
      t.busRead 0x00004 = BitVec.ofNat 32 s.params.bufBytes ∧ t.params = s.params ∧ t.inputs = rest ∧
      t.responses = s.responses

/-- The parameters are configuration (00_scope.md R16): no step changes them. -/
def Obligations.NoStepChangesTheParameters : Prop :=
  ∀ (s t : State), step s = .next t → t.params = s.params

/-- The invariant holds right after reset.  Its last clause, that IDLE leaves no wait, is about the model's
schedule and rests on `wait` being 0 in `State.reset`, which is the model's choice (log 1); that the
parameters stand in the state, at R8's defaults, is the model's too (log 4). -/
def Obligations.InvariantHoldsAtReset : Prop := MachineInv State.reset

/-- Every step keeps the invariant: canonical buffers inside BUF_BYTES, OUT_BUF zero from OUT_LEN on,
result slices inside OUT_LEN, nothing shown while BUSY or after an error, no reserved code; and, of the model's schedule,
no wait while IDLE (log 1). -/
def Obligations.EveryStepKeepsTheInvariant : Prop :=
  ∀ (s t : State), MachineInv s → step s = .next t → MachineInv t

/-! ### The units -/

/-- 41_framer_encode.md R121 to R123 and R125: the padded envelope is a whole number of pad blocks, at
least one, the formula of the source, and its last padLen(U) bytes all equal padLen(U). -/
def Obligations.PaddedEnvelopeIsAWholeNumberOfPadBlocks : Prop :=
  ∀ n p i : List Byte, n.length = 16 →
    let u := 20 + p.length + i.length
    let e := envelope n p i
    e.length % 32 = 0 ∧ 32 ≤ e.length ∧ e.length = (u + 1 + 31) / 32 * 32 ∧
    1 ≤ padLen u ∧ padLen u ≤ 32 ∧ e.length = u + padLen u ∧
    e.take 16 = n ∧ (e.drop 20).take p.length = p ∧ (e.drop (20 + p.length)).take i.length = i ∧
    ∀ j, u ≤ j → j < e.length → (e.getD j 0).toNat = padLen u

/-- 42_padding_validator.md R141: the validator examines only the length and the last byte. -/
def Obligations.PadValidatorExaminesOnlyTheLastByte : Prop :=
  ∀ d d' : List Byte, 32 ≤ d.length → d.length = d'.length → d.getLast? = d'.getLast? →
    padValidate d = padValidate d'

/-- 42_padding_validator.md R144 and 43_length_parser.md R163: the validator and the parser agree with the
framer, but for the empty envelope, which is rejected. -/
def Obligations.ValidatorAndParserUndoTheFramer : Prop :=
  ∀ n p i : List Byte, n.length = 16 → p.length < 2 ^ 32 →
    let u := 20 + p.length + i.length
    (1 ≤ p.length + i.length →
      padValidate (envelope n p i) = .ok u ∧ lenParse (envelope n p i) u = .ok p.length) ∧
    (p.length + i.length = 0 → padValidate (envelope n p i) = .error .truncatedPlaintext)

/-- 10_state.md R31 to R33: byte 4i+j of KEY, NONCE and IVREG is bits [8j+7:8j] of the i-th register. -/
def Obligations.OperandBytesAreTheRegisterLanes : Prop :=
  ∀ s : State, s.keyBytes.length = 32 ∧ s.nonceBytes.length = 16 ∧ s.ivBytes.length = 16 ∧
    (∀ (i : Fin 8) (j : Fin 4), s.keyBytes[4 * i.val + j.val]? = some (s.key[i].extractLsb' (8 * j.val) 8)) ∧
    (∀ i j : Fin 4, s.nonceBytes[4 * i.val + j.val]? = some (s.nonce[i].extractLsb' (8 * j.val) 8)) ∧
    (∀ i j : Fin 4, s.ivBytes[4 * i.val + j.val]? = some (s.iv[i].extractLsb' (8 * j.val) 8))

/-- 80_aes256_reference.md R331 to R333: each entry of the S-box table is the affine image of the byte's
inverse in the field (0 for 0), and the second table is the inverse of the first, both ways. -/
def Obligations.SboxTableIsTheAffineInverse : Prop :=
  (∀ a : Byte, ∃ b : Byte, (if a = 0 then b = 0 else gmul a b = 1) ∧
    sbox a = b ^^^ b.rotateLeft 1 ^^^ b.rotateLeft 2 ^^^ b.rotateLeft 3 ^^^ b.rotateLeft 4 ^^^ 0x63) ∧
  ∀ a : Byte, invSbox (sbox a) = a ∧ sbox (invSbox a) = a

/-- 80_aes256_reference.md R339: the vector of FIPS-197 Appendix C.3, both ways. -/
def Obligations.AesAgreesWithTheFipsVector : Prop :=
  let k := (List.range 32).map (BitVec.ofNat 8)
  let b := Block.ofBytes ((List.range 16).map fun j => BitVec.ofNat 8 (0x11 * j))
  let c := Block.ofBytes [0x8e, 0xa2, 0xb7, 0xca, 0x51, 0x67, 0x45, 0xbf, 0xea, 0xfc, 0x49, 0x90,
    0x4b, 0x49, 0x60, 0x89]
  aesE k b = c ∧ aesD k c = b

/-- 40_cipher.md R100: the two block functions undo each other, for every key and block. -/
def Obligations.AesInverseUndoesAes : Prop :=
  ∀ (k : List Byte) (b : Block), aesD k (aesE k b) = b ∧ aesE k (aesD k b) = b

/-- 40_cipher.md R102 and R103, block by block: ciphertext block j is AES_E of plaintext block j XOR the
ciphertext block before it, and plaintext block j is AES_D of ciphertext block j, XOR the ciphertext block
before it; the IV stands before block 0.  XOR is byte by byte, both lengths are kept, and a block holds the
bytes it was made from. -/
def Obligations.CbcChainsEachBlockWithTheOneBeforeIt : Prop :=
  ∀ (k iv s : List Byte) (j : Nat), iv.length = 16 → s.length % 16 = 0 → 16 * (j + 1) ≤ s.length →
    let block := fun (x : List Byte) (i : Nat) => slice x (16 * i) (16 * (i + 1))
    let before := fun (x : List Byte) => if j = 0 then iv else block x (j - 1)
    (cbcE k iv s).length = s.length ∧ (cbcD k iv s).length = s.length ∧
    block (cbcE k iv s) j = (aesE k (Block.ofBytes
      (List.zipWith (fun a b => a ^^^ b) (block s j) (before (cbcE k iv s))))).toBytes ∧
    block (cbcD k iv s) j =
      List.zipWith (fun a b => a ^^^ b) (aesD k (Block.ofBytes (block s j))).toBytes (before s) ∧
    (Block.ofBytes (block s j)).toBytes = block s j

/-- 40_cipher.md R104 (a): CBC decryption undoes CBC encryption. -/
def Obligations.CbcDecryptionUndoesEncryption : Prop :=
  ∀ k iv p : List Byte, p.length % 16 = 0 → cbcD k iv (cbcE k iv p) = p

/-- 40_cipher.md R104 (b): plaintext block j depends only on ciphertext blocks j and j-1, the IV standing
for block -1. -/
def Obligations.CbcErrorsSpreadToOneBlockOnly : Prop :=
  ∀ (k iv iv' c c' : List Byte) (j : Nat), c.length % 16 = 0 → c'.length = c.length →
    16 * (j + 1) ≤ c.length →
    slice c (16 * j) (16 * (j + 1)) = slice c' (16 * j) (16 * (j + 1)) →
    (j = 0 → iv.take 16 = iv'.take 16) →
    (1 ≤ j → slice c (16 * (j - 1)) (16 * j) = slice c' (16 * (j - 1)) (16 * j)) →
    slice (cbcD k iv c) (16 * j) (16 * (j + 1)) = slice (cbcD k iv' c') (16 * j) (16 * (j + 1))

/-- 45_decode_lenient.md R210: the 6-bit value v belongs to the v-th character of the standard alphabet,
and to no other byte. -/
def Obligations.Base64AlphabetIsTheStandardOne : Prop :=
  ∀ (c : Byte) (v : BitVec 6), b64Val c = some v ↔
    "ABCDEFGHIJKLMNOPQRSTUVWXYZabcdefghijklmnopqrstuvwxyz0123456789+/".toList[v.toNat]?.map Char.toNat
      = some c.toNat

/-- 45_decode_lenient.md R211 to R213: exactly which texts are well-formed base64, under every value of the
two options, and how many bytes they decode to.  Without its line breaks (R212) the text is whole quanta of
alphabet characters, with one or two `=` at the very end or none; with the strict tail (R213) the unused low
bits of the last character before one or two `=` are 0.  It decodes to three bytes a quantum, less one for
each `=`. -/
def Obligations.Base64AcceptsExactlyTheWellFormedTexts : Prop :=
  ∀ (p : Params) (s : List Byte),
    let t := withoutLineBreaks p s
    let shape := fun (body : List Byte) (k : Nat) =>
      k ≤ 2 ∧ t = body ++ List.replicate k 0x3D ∧ (∀ c ∈ body, ∃ v, b64Val c = some v) ∧
        (p.b64StrictTail = true → ∀ v, body.getLast?.bind b64Val = some v →
          (k = 1 → v.toNat % 4 = 0) ∧ (k = 2 → v.toNat % 16 = 0))
    ((∃ out, b64Dec p s = some out) ↔ t.length % 4 = 0 ∧ ∃ body k, shape body k) ∧
    ∀ out body k, b64Dec p s = some out → shape body k → out.length = 3 * (t.length / 4) - k

/-- 45_decode_lenient.md R211, R212: every decoded byte, from the 6-bit values of its quantum in the text
without its line breaks. -/
def Obligations.Base64BytesAreTheQuantumBits : Prop :=
  ∀ (p : Params) (s out : List Byte), b64Dec p s = some out →
    let v := fun k => ((b64Val ((withoutLineBreaks p s).getD k 0)).getD 0).toNat
    ∀ j < out.length, (out.getD j 0).toNat =
      if j % 3 = 0 then 4 * v (4 * (j / 3)) + v (4 * (j / 3) + 1) / 16
      else if j % 3 = 1 then 16 * (v (4 * (j / 3) + 1) % 16) + v (4 * (j / 3) + 2) / 4
      else 64 * (v (4 * (j / 3) + 2) % 4) + v (4 * (j / 3) + 3)

/-- 45_decode_lenient.md R213: with the strict tail, two texts that decode to the same bytes are the same
but for the line breaks R212 skips. -/
def Obligations.StrictBase64HasOneTextPerByteSequence : Prop :=
  ∀ (p : Params) (s s' out : List Byte), p.b64StrictTail = true →
    b64Dec p s = some out → b64Dec p s' = some out → withoutLineBreaks p s = withoutLineBreaks p s'

/-! ### Laws across commands -/

/-- 44_decode.md R182, the round trip: DECODE of what ENCODE returned, under the same key, gives the nonce,
the payload and the identifier back exactly when the payload and the identifier are not both empty, and
TruncatedPlaintext when they are. -/
def Obligations.DecodeReturnsWhatEncodeFramed : Prop :=
  ∀ s t s2 : State,
    let p := s.plen.toNat
    let i := s.ilen.toNat
    s.params.wf → s.outBuf.wf → s2.outBuf.wf → s.keyLen = 32 →
    20 + p + i + (32 - (20 + p + i) % 32) ≤ s.params.bufBytes →
    exec .encode s = .next t →
    s2.params = s.params → s2.key = s.key → s2.keyLen = 32 → s2.inLen = t.outLen →
    (∀ x < t.outLen.toNat, s2.inBuf.read x = t.outBuf.read x) →
    (1 ≤ p + i → ∃ u, exec .decode s2 = .next u ∧ u.errcode = s2.errcode ∧ u.done = true ∧
      u.outLen = BitVec.ofNat 32 (20 + p + i) ∧ u.resPoff = 20 ∧ u.resPlen = s.plen ∧
      u.resIoff = BitVec.ofNat 32 (20 + p) ∧ u.resIlen = s.ilen ∧
      (∀ j < 16, u.outBuf.read j = s.nonceBytes.getD j 0) ∧
      (∀ j < p, u.outBuf.read (20 + j) = s.inBuf.read j) ∧
      (∀ j < i, u.outBuf.read (20 + p + j) = s.inBuf.read (p + j))) ∧
    (p + i = 0 → exec .decode s2 = .next (s2.afterError 5))

/-- 44_decode.md R181, corner case (d): with IVREG = KEY[0:16) and a length of whole pad blocks, DECODE_XIV
fails exactly when DECODE fails before its step 7, with the same code, and where both succeed OUT_BUF and
OUT_LEN are the same. -/
def Obligations.ExplicitIvDecodeAgreesWithDecode : Prop :=
  ∀ s : State, s.errcode = 0 → s.ivBytes = s.keyBytes.take 16 → s.inLen.toNat % 32 = 0 →
    ∃ t u, exec .decode s = .next t ∧ exec .decodeXiv s = .next u ∧
      (u.errcode ≠ 0 → t.errcode = u.errcode) ∧
      (u.errcode = 0 → t.errcode = 0 ∨ t.errcode = 6) ∧
      (t.errcode = 0 → u.errcode = 0 ∧ u.outBuf = t.outBuf ∧ u.outLen = t.outLen)

/-- 45_decode_lenient.md R216: where DECODE succeeds on a ciphertext, DECODE_LENIENT succeeds on any base64
text of it under the same key, and returns the same payload. -/
def Obligations.LenientDecodeReturnsTheStrictPayload : Prop :=
  ∀ s t s2 : State, s.params.wf → s.outBuf.wf → s2.outBuf.wf → s.errcode = 0 →
    exec .decode s = .next t → t.errcode = 0 →
    s2.key = s.key → s2.keyLen = 32 → s2.inLen.toNat ≤ s2.params.bufBytes →
    b64Dec s2.params (s2.inputAt 0 s2.inLen.toNat) = some (s.inputAt 0 s.inLen.toNat) →
    ∃ u, exec .decodeLenient s2 = .next u ∧ u.errcode = s2.errcode ∧ u.outLen = t.resPlen ∧
      u.resPoff = 0 ∧ u.resPlen = t.resPlen ∧
      ∀ j < t.resPlen.toNat, u.outBuf.read j = t.outBuf.read (20 + j)

/-! ### The host's notation, 30_encoding.md R89 -/

/-- LOADKEY, while IDLE, leaves the key in KEY and 32 in KEY_LEN, and changes nothing else. -/
def Obligations.LoadKeyLoadsTheKey : Prop :=
  ∀ (s : State) (k : List Byte), s.fsm = .idle → k.length = 32 →
    ∃ t, execList (Pseudo.loadKey k).expand s = .next t ∧ t.keyBytes = k ∧
      t = { s with key := t.key, keyLen := 32 }

/-- FILL, while IDLE, stores its bytes in IN_BUF from its offset on, and changes no other byte and no
other field. -/
def Obligations.FillStoresTheBytes : Prop :=
  ∀ (s : State) (o : Nat) (bs : List Byte), s.fsm = .idle → s.inBuf.wf → s.params.wf → o % 4 = 0 →
    o + bs.length ≤ s.params.bufBytes →
    ∃ t, execList (Pseudo.fill o bs).expand s = .next t ∧ t = { s with inBuf := t.inBuf } ∧
      ∀ x, t.inBuf.read x = if o ≤ x ∧ x < o + bs.length then bs.getD (x - o) 0 else s.inBuf.read x
end

