-- ==== Sys2Proof/Laws/Bytes.lean ====
section
/-! SUPPORT. Byte sequences: lengths, big-endian integers, and blocks as bytes. -/

namespace Sys2Proof.Machine

/-! ### Lengths -/

@[simp] theorem wordBytes_length (w : Word) : (wordBytes w).length = 4 := rfl

@[simp] theorem seqBytes_length (ws : List Word) : (seqBytes ws).length = 4 * ws.length := by
  induction ws with
  | nil => rfl
  | cons w ws ih =>
    simp only [seqBytes, List.flatMap_cons, List.length_append, wordBytes_length, List.length_cons] at ih ⊢
    omega

@[simp] theorem State.keyBytes_length (s : State) : s.keyBytes.length = 32 := by simp [State.keyBytes]
@[simp] theorem State.nonceBytes_length (s : State) : s.nonceBytes.length = 16 := by
  simp [State.nonceBytes]
@[simp] theorem State.ivBytes_length (s : State) : s.ivBytes.length = 16 := by simp [State.ivBytes]
@[simp] theorem State.inBytes_length (s : State) (off n : Nat) : (s.inBytes off n).length = n := by
  simp only [State.inBytes, Memory.readBytes, List.length_map, List.length_range]
@[simp] theorem be32_length (n : Nat) : (be32 n).length = 4 := rfl

/-- The length of a slice that lies inside the sequence. -/
theorem slice_length (s : List Byte) (a b : Nat) (h : b ≤ s.length) : (slice s a b).length = b - a := by
  simp only [slice, List.length_take, List.length_drop]; omega

/-- Byte j of a slice. -/
theorem slice_getD (s : List Byte) (a b j : Nat) (h : j < b - a) :
    (slice s a b).getD j 0 = s.getD (a + j) 0 := by
  simp only [slice, List.getD_eq_getElem?_getD, List.getElem?_take, List.getElem?_drop, h, if_true]

/-- Two byte sequences of one length with the same bytes are the same. -/
theorem bytes_ext {s t : List Byte} (h : s.length = t.length) (hb : ∀ j < s.length, s.getD j 0 = t.getD j 0) :
    s = t := by
  apply List.ext_getElem h
  intro j h1 h2
  have := hb j h1
  simpa [List.getD_eq_getElem?_getD, List.getElem?_eq_getElem h1, List.getElem?_eq_getElem h2] using this

/-! ### Lanes, 20_memory.md R61 -/

/-- The lanes of a word made of four bytes. -/
theorem lane_wordOfLanes (b0 b1 b2 b3 : Byte) (j : Nat) (hj : j < 4) :
    lane (wordOfLanes b0 b1 b2 b3) j =
      if j = 0 then b0 else if j = 1 then b1 else if j = 2 then b2 else b3 := by
  apply BitVec.eq_of_getLsbD_eq
  intro i hi
  simp only [lane, BitVec.getLsbD_extractLsb', hi, decide_true, Bool.true_and, wordOfLanes,
    BitVec.getLsbD_append]
  interval_cases j
  · rw [if_pos (by omega)]; simp
  · rw [if_neg (by omega), if_pos (by omega)]; simp
  · rw [if_neg (by omega), if_neg (by omega), if_pos (by omega), show 8 * 2 + i - 8 - 8 = i by omega]; simp
  · rw [if_neg (by omega), if_neg (by omega), if_neg (by omega), show 8 * 3 + i - 8 - 8 - 8 = i by omega]; simp

theorem wordBytes_wordOfLanes (b0 b1 b2 b3 : Byte) : wordBytes (wordOfLanes b0 b1 b2 b3) = [b0, b1, b2, b3] := by
  simp only [wordBytes]
  rw [lane_wordOfLanes _ _ _ _ 0 (by omega), lane_wordOfLanes _ _ _ _ 1 (by omega),
    lane_wordOfLanes _ _ _ _ 2 (by omega), lane_wordOfLanes _ _ _ _ 3 (by omega)]
  simp

/-! ### Big-endian integers -/

/-- `beval(BE32(n)) = n` for n < 2^32 (00_scope.md R11). -/
theorem beval_be32 (n : Nat) (h : n < 2 ^ 32) : beval (be32 n) = n := by
  simp only [beval, be32, List.getD_cons_zero, List.getD_cons_succ, BitVec.toNat_ofNat]
  omega

/-- A big-endian value of four bytes is below 2^32. -/
theorem beval_lt (s : List Byte) : beval s < 2 ^ 32 := by
  simp only [beval]
  have h0 := (s.getD 0 0).isLt
  have h1 := (s.getD 1 0).isLt
  have h2 := (s.getD 2 0).isLt
  have h3 := (s.getD 3 0).isLt
  omega

/-! ### Blocks as bytes -/

@[simp] theorem Col.toBytes_length (c : Col) : c.toBytes.length = 4 := rfl
@[simp] theorem Block.toBytes_length (b : Block) : b.toBytes.length = 16 := rfl

/-- A block read back from its bytes. -/
theorem Block.ofBytes_toBytes_append (b : Block) (rest : List Byte) :
    Block.ofBytes (b.toBytes ++ rest) = b := by
  obtain ⟨⟨_, _, _, _⟩, ⟨_, _, _, _⟩, ⟨_, _, _, _⟩, ⟨_, _, _, _⟩⟩ := b
  simp [Block.ofBytes, Block.toBytes, Col.ofBytes, Col.toBytes]

/-- The block of a 16-byte sequence, written back. -/
theorem Block.toBytes_ofBytes (s : List Byte) (h : 16 ≤ s.length) :
    (Block.ofBytes s).toBytes = s.take 16 := by
  apply List.ext_getElem
  · simp only [Block.toBytes_length, List.length_take]; omega
  · intro i h1 h2
    simp only [Block.toBytes_length] at h1
    rw [List.getElem_take]
    interval_cases i <;>
      simp (disch := omega) [Block.ofBytes, Block.toBytes, Col.ofBytes, Col.toBytes]

@[simp] theorem blocksOf_length (n : Nat) (s : List Byte) : (blocksOf n s).length = n := by
  induction n generalizing s with
  | zero => rfl
  | succ n ih => simp [blocksOf, ih]

@[simp] theorem blocksBytes_length (bs : List Block) : (blocksBytes bs).length = 16 * bs.length := by
  induction bs with
  | nil => rfl
  | cons b bs ih =>
    simp only [blocksBytes, List.flatMap_cons, List.length_append, Block.toBytes_length,
      List.length_cons] at ih ⊢
    omega

/-- The blocks of a sequence of blocks' bytes are those blocks. -/
theorem blocksOf_blocksBytes (bs : List Block) : blocksOf bs.length (blocksBytes bs) = bs := by
  induction bs with
  | nil => rfl
  | cons b bs ih =>
    have hd : (blocksBytes (b :: bs)).drop 16 = blocksBytes bs := by
      rw [blocksBytes, List.flatMap_cons, List.drop_left' (Block.toBytes_length b)]; rfl
    rw [List.length_cons, blocksOf, hd, ih]
    rw [blocksBytes, List.flatMap_cons, Block.ofBytes_toBytes_append]

/-- The bytes of the n whole blocks of a sequence of 16n bytes are that sequence. -/
theorem blocksBytes_blocksOf (n : Nat) (s : List Byte) (h : s.length = 16 * n) :
    blocksBytes (blocksOf n s) = s := by
  induction n generalizing s with
  | zero =>
    have := List.length_eq_zero_iff.mp (by omega : s.length = 0)
    subst this; rfl
  | succ n ih =>
    have hd := ih (s.drop 16) (by rw [List.length_drop]; omega)
    rw [blocksOf, blocksBytes, List.flatMap_cons, Block.toBytes_ofBytes s (by omega)]
    rw [blocksBytes] at hd
    rw [hd, List.take_append_drop]

/-! ### The lengths of CBC -/

@[simp] theorem cbcEncBlocks_length (k : List Byte) (prev : Block) (ps : List Block) :
    (cbcEncBlocks k prev ps).length = ps.length := by
  induction ps generalizing prev with
  | nil => rfl
  | cons p ps ih => simp [cbcEncBlocks, ih]

@[simp] theorem cbcDecBlocks_length (k : List Byte) (prev : Block) (cs : List Block) :
    (cbcDecBlocks k prev cs).length = cs.length := by
  induction cs generalizing prev with
  | nil => rfl
  | cons c cs ih => simp [cbcDecBlocks, ih]

/-- `|CBC_E(k, iv, p)| = |p|` for a whole number of blocks (40_cipher.md R102). -/
theorem cbcE_length (k iv p : List Byte) (h : p.length % 16 = 0) : (cbcE k iv p).length = p.length := by
  simp only [cbcE, blocksBytes_length, cbcEncBlocks_length, blocksOf_length]; omega

/-- The XOR of two blocks, byte by byte from where they were made (40_cipher.md R102). -/
theorem Block.xor_ofBytes {x y : List Byte} (hx : x.length = 16) (hy : y.length = 16) :
    (Block.ofBytes x).xor (Block.ofBytes y) = Block.ofBytes (List.zipWith (fun a b => a ^^^ b) x y) := by
  match x, y, hx, hy with
  | [_, _, _, _, _, _, _, _, _, _, _, _, _, _, _, _], [_, _, _, _, _, _, _, _, _, _, _, _, _, _, _, _], _, _ =>
    rfl

/-- The bytes of the XOR of a block with 16 bytes (40_cipher.md R103). -/
theorem Block.toBytes_xor_ofBytes (b : Block) {y : List Byte} (hy : y.length = 16) :
    (b.xor (Block.ofBytes y)).toBytes = List.zipWith (fun a b => a ^^^ b) b.toBytes y := by
  match y, hy with
  | [_, _, _, _, _, _, _, _, _, _, _, _, _, _, _, _], _ => rfl

/-- `|CBC_D(k, iv, c)| = |c|` for a whole number of blocks (40_cipher.md R103). -/
theorem cbcD_length (k iv c : List Byte) (h : c.length % 16 = 0) : (cbcD k iv c).length = c.length := by
  simp only [cbcD, blocksBytes_length, cbcDecBlocks_length, blocksOf_length]; omega

end Sys2Proof.Machine
end

