-- ==== Sys2Proof/Laws/Aes.lean ====
section
/-! SUPPORT. The AES round transformations undo one another, one transformation at a time. -/

namespace Sys2Proof.Machine

/-! ### XOR -/

theorem Col.xor_xor_cancel (a b : Col) : (a.xor b).xor b = a := by
  simp [Col.xor]

theorem Block.xor_xor_cancel (a b : Block) : (a.xor b).xor b = a := by
  simp [Block.xor, Col.xor_xor_cancel]

/-! ### The S-box, R332 and R333 -/

/-- The two tables are inverse to each other. -/
theorem sbox_tables_inverse :
    ∀ a : Fin 256, invSbox (sbox (BitVec.ofFin a)) = BitVec.ofFin a ∧
      sbox (invSbox (BitVec.ofFin a)) = BitVec.ofFin a := by
  decide +kernel

theorem invSbox_sbox (a : Byte) : invSbox (sbox a) = a := (sbox_tables_inverse a.toFin).1
theorem sbox_invSbox (a : Byte) : sbox (invSbox a) = a := (sbox_tables_inverse a.toFin).2

theorem invSubBytes_subBytes (s : Block) : invSubBytes (subBytes s) = s := by
  simp [invSubBytes, subBytes, Block.mapCols, Col.map, invSbox_sbox]

theorem subBytes_invSubBytes (s : Block) : subBytes (invSubBytes s) = s := by
  simp [invSubBytes, subBytes, Block.mapCols, Col.map, sbox_invSbox]

/-! ### ShiftRows, R336 -/

theorem invShiftRows_shiftRows (s : Block) : invShiftRows (shiftRows s) = s := rfl
theorem shiftRows_invShiftRows (s : Block) : shiftRows (invShiftRows s) = s := rfl

/-! ### Multiplication in the field, R331 -/

theorem xtime_xor (a b : Byte) : xtime (a ^^^ b) = xtime a ^^^ xtime b := by
  have h : ∀ x y : Bool, (if (x ^^ y) = true then (0x1B : Byte) else 0)
      = (if x = true then 0x1B else 0) ^^^ (if y = true then 0x1B else 0) := by decide
  simp only [xtime, BitVec.getLsbD_xor, h, BitVec.shiftLeft_xor_distrib]
  ac_rfl

theorem gmulBits_xor (n : Nat) (a b c : Byte) :
    gmulBits n (a ^^^ b) c = gmulBits n a c ^^^ gmulBits n b c := by
  induction n generalizing a b c with
  | zero => simp [gmulBits]
  | succ n ih =>
    have h : ∀ x : Bool, (if x = true then a ^^^ b else 0)
        = (if x = true then a else 0) ^^^ (if x = true then b else 0) := by
      intro x; cases x <;> simp
    simp only [gmulBits, xtime_xor, ih, h]
    ac_rfl

/-- Multiplication by a constant is linear. -/
theorem gmul_xor (a b c : Byte) : gmul (a ^^^ b) c = gmul a c ^^^ gmul b c := gmulBits_xor 8 a b c

/-- The coefficient of one input byte in one output byte of a mix of a mixed column. -/
def mixedCoeff (n0 n1 n2 n3 m0 m1 m2 m3 : Byte) (x : Byte) : Byte :=
  gmul (gmul x m0) n0 ^^^ gmul (gmul x m1) n1 ^^^ gmul (gmul x m2) n2 ^^^ gmul (gmul x m3) n3

/-- A row of coefficients over a column of mixed bytes, gathered by input byte. -/
theorem mixRow_mixCol (n0 n1 n2 n3 : Byte) (a : Col) :
    mixRow n0 n1 n2 n3 (mixCol a) =
      mixedCoeff n0 n1 n2 n3 2 1 1 3 a.r0 ^^^ mixedCoeff n0 n1 n2 n3 3 2 1 1 a.r1 ^^^
      mixedCoeff n0 n1 n2 n3 1 3 2 1 a.r2 ^^^ mixedCoeff n0 n1 n2 n3 1 1 3 2 a.r3 := by
  simp only [mixRow, mixCol, mixedCoeff, gmul_xor]
  ac_rfl

/-- The same for InvMixColumns. -/
theorem mixRow_invMixCol (n0 n1 n2 n3 : Byte) (a : Col) :
    mixRow n0 n1 n2 n3 (invMixCol a) =
      mixedCoeff n0 n1 n2 n3 14 9 13 11 a.r0 ^^^ mixedCoeff n0 n1 n2 n3 11 14 9 13 a.r1 ^^^
      mixedCoeff n0 n1 n2 n3 13 11 14 9 a.r2 ^^^ mixedCoeff n0 n1 n2 n3 9 13 11 14 a.r3 := by
  simp only [mixRow, invMixCol, mixedCoeff, gmul_xor]
  ac_rfl

/-- The sixteen coefficients of InvMixColumns after MixColumns: the identity matrix. -/
theorem unmix_coeffs : ∀ x : Fin 256, let x := (BitVec.ofFin x : Byte)
    mixedCoeff 14 11 13 9 2 1 1 3 x = x ∧ mixedCoeff 14 11 13 9 3 2 1 1 x = 0 ∧
    mixedCoeff 14 11 13 9 1 3 2 1 x = 0 ∧ mixedCoeff 14 11 13 9 1 1 3 2 x = 0 ∧
    mixedCoeff 9 14 11 13 2 1 1 3 x = 0 ∧ mixedCoeff 9 14 11 13 3 2 1 1 x = x ∧
    mixedCoeff 9 14 11 13 1 3 2 1 x = 0 ∧ mixedCoeff 9 14 11 13 1 1 3 2 x = 0 ∧
    mixedCoeff 13 9 14 11 2 1 1 3 x = 0 ∧ mixedCoeff 13 9 14 11 3 2 1 1 x = 0 ∧
    mixedCoeff 13 9 14 11 1 3 2 1 x = x ∧ mixedCoeff 13 9 14 11 1 1 3 2 x = 0 ∧
    mixedCoeff 11 13 9 14 2 1 1 3 x = 0 ∧ mixedCoeff 11 13 9 14 3 2 1 1 x = 0 ∧
    mixedCoeff 11 13 9 14 1 3 2 1 x = 0 ∧ mixedCoeff 11 13 9 14 1 1 3 2 x = x := by
  decide +kernel

/-- The sixteen coefficients of MixColumns after InvMixColumns: the identity matrix. -/
theorem mix_coeffs : ∀ x : Fin 256, let x := (BitVec.ofFin x : Byte)
    mixedCoeff 2 3 1 1 14 9 13 11 x = x ∧ mixedCoeff 2 3 1 1 11 14 9 13 x = 0 ∧
    mixedCoeff 2 3 1 1 13 11 14 9 x = 0 ∧ mixedCoeff 2 3 1 1 9 13 11 14 x = 0 ∧
    mixedCoeff 1 2 3 1 14 9 13 11 x = 0 ∧ mixedCoeff 1 2 3 1 11 14 9 13 x = x ∧
    mixedCoeff 1 2 3 1 13 11 14 9 x = 0 ∧ mixedCoeff 1 2 3 1 9 13 11 14 x = 0 ∧
    mixedCoeff 1 1 2 3 14 9 13 11 x = 0 ∧ mixedCoeff 1 1 2 3 11 14 9 13 x = 0 ∧
    mixedCoeff 1 1 2 3 13 11 14 9 x = x ∧ mixedCoeff 1 1 2 3 9 13 11 14 x = 0 ∧
    mixedCoeff 3 1 1 2 14 9 13 11 x = 0 ∧ mixedCoeff 3 1 1 2 11 14 9 13 x = 0 ∧
    mixedCoeff 3 1 1 2 13 11 14 9 x = 0 ∧ mixedCoeff 3 1 1 2 9 13 11 14 x = x := by
  decide +kernel

theorem invMixCol_mixCol (a : Col) : invMixCol (mixCol a) = a := by
  have h := fun x : Byte => unmix_coeffs x.toFin
  simp only [BitVec.ofFin_toFin] at h
  obtain ⟨a0, a1, a2, a3⟩ := a
  rw [invMixCol]
  simp only [mixRow_mixCol, h]
  simp

theorem mixCol_invMixCol (a : Col) : mixCol (invMixCol a) = a := by
  have h := fun x : Byte => mix_coeffs x.toFin
  simp only [BitVec.ofFin_toFin] at h
  obtain ⟨a0, a1, a2, a3⟩ := a
  rw [mixCol]
  simp only [mixRow_invMixCol, h]
  simp

theorem invMixColumns_mixColumns (s : Block) : invMixColumns (mixColumns s) = s := by
  simp [invMixColumns, mixColumns, Block.mapCols, invMixCol_mixCol]

theorem mixColumns_invMixColumns (s : Block) : mixColumns (invMixColumns s) = s := by
  simp [invMixColumns, mixColumns, Block.mapCols, mixCol_invMixCol]

end Sys2Proof.Machine
end

