-- ==== Sys2Proof/Laws/Memory.lean ====
section
/-! SUPPORT. The buffers: reading after writing, the canonical form, and where the listed indices lie. -/

namespace Sys2Proof.Machine

/-! ### Reading one byte after writing one byte -/

@[simp] theorem Memory.read_nil (x : Nat) : Memory.read [] x = 0#8 := rfl

theorem Memory.read_cons (a : Nat) (v : Byte) (m : Memory) (x : Nat) :
    Memory.read ((a, v) :: m) x = if x = a then v else Memory.read m x := rfl

/-- An index below every listed one reads 0. -/
theorem Memory.read_of_lt_all (m : Memory) (x : Nat) (h : ∀ c ∈ m, x < c.1) : Memory.read m x = 0#8 := by
  induction m with
  | nil => rfl
  | cons c m ih =>
    have hx := h c (by simp)
    rw [Memory.read_cons, if_neg (by omega)]
    exact ih (fun d hd => h d (by simp [hd]))

theorem Memory.wf_tail {c : Host.Cell} {m : Memory} (h : Memory.wf (c :: m)) : Memory.wf m :=
  ⟨(List.pairwise_cons.mp h.1).2, fun d hd => h.2 d (by simp [hd])⟩

theorem Memory.head_lt {c : Host.Cell} {m : Memory} (h : Memory.wf (c :: m)) : ∀ d ∈ m, c.1 < d.1 :=
  (List.pairwise_cons.mp h.1).1

/-- Every entry after a write is one from before, or the written one with a nonzero byte. -/
theorem Memory.mem_write {m : Memory} {x : Nat} {v : Byte} {c : Host.Cell}
    (h : c ∈ m.write x v) : c ∈ m ∨ (c = (x, v) ∧ v ≠ 0#8) := by
  induction m with
  | nil =>
    simp only [Memory.write] at h
    split at h
    · simp at h
    · exact .inr ⟨by simpa using h, by assumption⟩
  | cons d m ih =>
    obtain ⟨a, w⟩ := d
    simp only [Memory.write] at h
    split at h
    · split at h
      · exact .inl h
      · rcases List.mem_cons.mp h with h | h
        · exact .inr ⟨h, by assumption⟩
        · exact .inl h
    · split at h
      · split at h
        · exact .inl (List.mem_cons_of_mem _ h)
        · rcases List.mem_cons.mp h with h | h
          · exact .inr ⟨h, by assumption⟩
          · exact .inl (List.mem_cons_of_mem _ h)
      · rcases List.mem_cons.mp h with h | h
        · exact .inl (by simp [h])
        · rcases ih h with h | h
          · exact .inl (List.mem_cons_of_mem _ h)
          · exact .inr h

/-- A write keeps the canonical form. -/
theorem Memory.write_wf {m : Memory} (h : m.wf) (x : Nat) (v : Byte) : (m.write x v).wf := by
  induction m with
  | nil =>
    simp only [Memory.write]
    split
    · exact h
    · rename_i hv; exact ⟨by simp, by simpa using hv⟩
  | cons d m ih =>
    obtain ⟨a, w⟩ := d
    have hlt := Memory.head_lt h
    have ht := Memory.wf_tail h
    simp only [Memory.write]
    split
    · split
      · exact h
      · rename_i hxa hv
        refine ⟨List.pairwise_cons.mpr ⟨?_, h.1⟩, ?_⟩
        · intro c hc
          rcases List.mem_cons.mp hc with rfl | hc
          · exact hxa
          · exact Nat.lt_trans hxa (hlt c hc)
        · intro c hc
          rcases List.mem_cons.mp hc with rfl | hc
          · exact hv
          · exact h.2 c hc
    · split
      · rename_i hxa
        subst hxa
        split
        · exact ht
        · rename_i hv
          refine ⟨List.pairwise_cons.mpr ⟨hlt, ht.1⟩, ?_⟩
          intro c hc
          rcases List.mem_cons.mp hc with rfl | hc
          · exact hv
          · exact ht.2 c hc
      · have hw := ih ht
        refine ⟨List.pairwise_cons.mpr ⟨?_, hw.1⟩, ?_⟩
        · intro c hc
          rcases Memory.mem_write hc with hc | ⟨rfl, _⟩
          · exact hlt c hc
          · show a < x; omega
        · intro c hc
          rcases List.mem_cons.mp hc with rfl | hc
          · exact h.2 _ (by simp)
          · exact hw.2 c hc

/-- Reading after one write to a memory in canonical form. -/
theorem Memory.read_write {m : Memory} (h : m.wf) (x : Nat) (v : Byte) (y : Nat) :
    (m.write x v).read y = if y = x then v else m.read y := by
  induction m with
  | nil =>
    by_cases hv : v = 0#8 <;> by_cases hy : y = x <;> simp [Memory.write, Memory.read_cons, hv, hy]
  | cons d m ih =>
    obtain ⟨a, w⟩ := d
    have hlt := Memory.head_lt h
    have hxs : x ≤ a → Memory.read m x = 0#8 := fun hx =>
      Memory.read_of_lt_all m x (fun c hc => Nat.lt_of_le_of_lt hx (hlt c hc))
    have iht := ih (Memory.wf_tail h)
    by_cases hxa : x < a
    · by_cases hv : v = 0#8
      · by_cases hy : y = x
        · subst hy
          simp [Memory.write, hxa, hv, Memory.read_cons, hxs (by omega), Nat.ne_of_lt hxa]
        · simp [Memory.write, hxa, hv, hy]
      · simp [Memory.write, hxa, hv, Memory.read_cons]
    · by_cases hxe : x = a
      · subst hxe
        by_cases hv : v = 0#8
        · by_cases hy : y = x
          · subst hy; simp [Memory.write, hv, hxs (Nat.le_refl _)]
          · simp [Memory.write, hv, hy, Memory.read_cons]
        · by_cases hy : y = x <;> simp [Memory.write, hv, hy, Memory.read_cons]
      · by_cases hy : y = x
        · subst hy
          simp [Memory.write, hxa, hxe, Memory.read_cons, iht]
        · by_cases hya : y = a
          · subst hya
            simp [Memory.write, hxa, hxe, Memory.read_cons, hy]
          · simp [Memory.write, hxa, hxe, Memory.read_cons, iht, hy, hya]

/-! ### Writing a byte sequence -/

/-- A sequence of writes keeps the canonical form. -/
theorem Memory.writeBytes_wf {m : Memory} (h : m.wf) (off : Nat) (s : List Byte) :
    (m.writeBytes off s).wf := by
  induction s generalizing m off with
  | nil => exact h
  | cons b s ih => exact ih (Memory.write_wf h off b) (off + 1)

/-- Reading after a `MemWrite`: the written bytes inside its range, the old ones outside it. -/
theorem Memory.read_writeBytes {m : Memory} (h : m.wf) (off : Nat) (s : List Byte) (y : Nat) :
    (m.writeBytes off s).read y =
      if off ≤ y ∧ y < off + s.length then s.getD (y - off) 0 else m.read y := by
  induction s generalizing m off with
  | nil => rw [if_neg (by simp)]; rfl
  | cons b s ih =>
    simp only [Memory.writeBytes]
    rw [ih (Memory.write_wf h off b) (off + 1), Memory.read_write h]
    by_cases h1 : y = off
    · subst h1
      rw [if_neg (by omega), if_pos rfl, if_pos (by simp)]
      simp
    · by_cases h2 : off + 1 ≤ y ∧ y < off + 1 + s.length
      · rw [if_pos h2, if_pos (by simp only [List.length_cons]; omega)]
        obtain ⟨k, hk⟩ : ∃ k, y - off = k + 1 := ⟨y - off - 1, by omega⟩
        rw [hk, show y - (off + 1) = k by omega]
        simp
      · rw [if_neg h2, if_neg h1, if_neg (by simp only [List.length_cons]; omega)]

/-- The entries after a `MemWrite` are old ones or lie in its range. -/
theorem Memory.mem_writeBytes {m : Memory} {off : Nat} {s : List Byte} {c : Host.Cell}
    (h : c ∈ m.writeBytes off s) : c ∈ m ∨ (off ≤ c.1 ∧ c.1 < off + s.length) := by
  induction s generalizing m off with
  | nil => exact .inl h
  | cons b s ih =>
    rcases ih h with h | h
    · rcases Memory.mem_write h with h | ⟨rfl, _⟩
      · exact .inl h
      · exact .inr ⟨Nat.le_refl _, by simp⟩
    · exact .inr ⟨by omega, by simp only [List.length_cons]; omega⟩

/-! ### Reading a byte sequence -/

@[simp] theorem Memory.readBytes_length (m : Memory) (off n : Nat) : (m.readBytes off n).length = n := by
  simp [Memory.readBytes]

/-- Byte j of a `MemRead`. -/
theorem Memory.readBytes_getD (m : Memory) (off n j : Nat) (h : j < n) :
    (m.readBytes off n).getD j 0 = m.read (off + j) := by
  simp [Memory.readBytes, List.getD, List.getElem?_map, List.getElem?_range h]

/-- Two buffers that agree on a range give the same `MemRead` of it. -/
theorem Memory.readBytes_congr {m m' : Memory} {off n : Nat}
    (h : ∀ j < n, m.read (off + j) = m'.read (off + j)) : m.readBytes off n = m'.readBytes off n := by
  simp only [Memory.readBytes]
  exact List.map_congr_left fun j hj => h j (List.mem_range.mp hj)

/-! ### Equal memories are equal data -/

/-- An index that is not listed reads 0. -/
theorem Memory.read_of_not_mem (m : Memory) (x : Nat) (h : ∀ c ∈ m, c.1 ≠ x) : m.read x = 0 := by
  induction m with
  | nil => rfl
  | cons c m ih =>
    obtain ⟨a, v⟩ := c
    rw [Memory.read_cons, if_neg (fun hx => h (a, v) (by simp) hx.symm)]
    exact ih (fun d hd => h d (by simp [hd]))

/-- In canonical form, a listed entry is what its index reads as. -/
theorem Memory.read_of_mem {m : Memory} (h : m.wf) {c : Host.Cell} (hc : c ∈ m) : m.read c.1 = c.2 := by
  induction m with
  | nil => simp at hc
  | cons d m ih =>
    obtain ⟨a, v⟩ := d
    rw [Memory.read_cons]
    rcases List.mem_cons.mp hc with rfl | hc
    · simp
    · have := Memory.head_lt h c hc
      rw [if_neg (by simp only at this; omega)]
      exact ih (Memory.wf_tail h) hc

/-- Two memories in canonical form that read alike everywhere are the same list. -/
theorem Memory.ext_of_read {m m' : Memory} (h : m.wf) (h' : m'.wf) (hr : ∀ x, m.read x = m'.read x) :
    m = m' := by
  have mem : ∀ (p q : Memory), p.wf → q.wf → (∀ x, p.read x = q.read x) → ∀ c ∈ p, c ∈ q := by
    intro p q hp hq hpq c hc
    have hv := Memory.read_of_mem hp hc
    have hne := hp.2 c hc
    by_contra hcon
    by_cases hx : ∃ d ∈ q, d.1 = c.1
    · obtain ⟨d, hd, hdc⟩ := hx
      have hdv := Memory.read_of_mem hq hd
      rw [hdc, ← hpq, hv] at hdv
      exact hcon (by rw [show c = d from Prod.ext hdc.symm hdv]; exact hd)
    · have := Memory.read_of_not_mem q c.1 (fun d hd hdc => hx ⟨d, hd, hdc⟩)
      rw [← hpq, hv] at this
      exact hne this
  have nodup : ∀ (p : Memory), p.wf → p.Nodup := fun p hp =>
    hp.1.imp (fun hlt heq => by rw [heq] at hlt; exact Nat.lt_irrefl _ hlt)
  have hperm : m.Perm m' := (List.perm_ext_iff_of_nodup (nodup m h) (nodup m' h')).mpr
    fun c => ⟨mem m m' h h' hr c, mem m' m h' h (fun x => (hr x).symm) c⟩
  refine hperm.eq_of_pairwise (le := fun c d => c.1 < d.1) ?_ h.1 h'.1
  intro a b _ _ hab hba
  omega

end Sys2Proof.Machine
end

