-- ==== Sys2Proof/Laws/State.lean ====
section
/-! SUPPORT. One lemma per field per update of State, so that no later proof unfolds a record update. -/

namespace Sys2Proof.Machine

/-! ### `State.respond` -/

@[simp] theorem State.respond_params (s : State) (v : Word) :
    (s.respond v).params = s.params := rfl
@[simp] theorem State.respond_fsm (s : State) (v : Word) :
    (s.respond v).fsm = s.fsm := rfl
@[simp] theorem State.respond_cmdw (s : State) (v : Word) :
    (s.respond v).cmdw = s.cmdw := rfl
@[simp] theorem State.respond_irqEn (s : State) (v : Word) :
    (s.respond v).irqEn = s.irqEn := rfl
@[simp] theorem State.respond_done (s : State) (v : Word) :
    (s.respond v).done = s.done := rfl
@[simp] theorem State.respond_ovr (s : State) (v : Word) :
    (s.respond v).ovr = s.ovr := rfl
@[simp] theorem State.respond_errcode (s : State) (v : Word) :
    (s.respond v).errcode = s.errcode := rfl
@[simp] theorem State.respond_keyLen (s : State) (v : Word) :
    (s.respond v).keyLen = s.keyLen := rfl
@[simp] theorem State.respond_key (s : State) (v : Word) :
    (s.respond v).key = s.key := rfl
@[simp] theorem State.respond_nonce (s : State) (v : Word) :
    (s.respond v).nonce = s.nonce := rfl
@[simp] theorem State.respond_iv (s : State) (v : Word) :
    (s.respond v).iv = s.iv := rfl
@[simp] theorem State.respond_plen (s : State) (v : Word) :
    (s.respond v).plen = s.plen := rfl
@[simp] theorem State.respond_ilen (s : State) (v : Word) :
    (s.respond v).ilen = s.ilen := rfl
@[simp] theorem State.respond_inLen (s : State) (v : Word) :
    (s.respond v).inLen = s.inLen := rfl
@[simp] theorem State.respond_outLen (s : State) (v : Word) :
    (s.respond v).outLen = s.outLen := rfl
@[simp] theorem State.respond_resPoff (s : State) (v : Word) :
    (s.respond v).resPoff = s.resPoff := rfl
@[simp] theorem State.respond_resPlen (s : State) (v : Word) :
    (s.respond v).resPlen = s.resPlen := rfl
@[simp] theorem State.respond_resIoff (s : State) (v : Word) :
    (s.respond v).resIoff = s.resIoff := rfl
@[simp] theorem State.respond_resIlen (s : State) (v : Word) :
    (s.respond v).resIlen = s.resIlen := rfl
@[simp] theorem State.respond_inBuf (s : State) (v : Word) :
    (s.respond v).inBuf = s.inBuf := rfl
@[simp] theorem State.respond_outBuf (s : State) (v : Word) :
    (s.respond v).outBuf = s.outBuf := rfl
@[simp] theorem State.respond_inputs (s : State) (v : Word) :
    (s.respond v).inputs = s.inputs := rfl
@[simp] theorem State.respond_responses (s : State) (v : Word) :
    (s.respond v).responses = s.responses ++ [v] := rfl
@[simp] theorem State.respond_wait (s : State) (v : Word) :
    (s.respond v).wait = s.wait := rfl
@[simp] theorem State.respond_latencies (s : State) (v : Word) :
    (s.respond v).latencies = s.latencies := rfl
@[simp] theorem State.respond_issues (s : State) (v : Word) :
    (s.respond v).issues = s.issues := rfl

/-! ### `State.accept` -/

@[simp] theorem State.accept_params (s : State) (w : Word) :
    (s.accept w).params = s.params := rfl
@[simp] theorem State.accept_fsm (s : State) (w : Word) :
    (s.accept w).fsm = .busy := rfl
@[simp] theorem State.accept_cmdw (s : State) (w : Word) :
    (s.accept w).cmdw = w := rfl
@[simp] theorem State.accept_irqEn (s : State) (w : Word) :
    (s.accept w).irqEn = s.irqEn := rfl
@[simp] theorem State.accept_done (s : State) (w : Word) :
    (s.accept w).done = false := rfl
@[simp] theorem State.accept_ovr (s : State) (w : Word) :
    (s.accept w).ovr = s.ovr := rfl
@[simp] theorem State.accept_errcode (s : State) (w : Word) :
    (s.accept w).errcode = 0 := rfl
@[simp] theorem State.accept_keyLen (s : State) (w : Word) :
    (s.accept w).keyLen = s.keyLen := rfl
@[simp] theorem State.accept_key (s : State) (w : Word) :
    (s.accept w).key = s.key := rfl
@[simp] theorem State.accept_nonce (s : State) (w : Word) :
    (s.accept w).nonce = s.nonce := rfl
@[simp] theorem State.accept_iv (s : State) (w : Word) :
    (s.accept w).iv = s.iv := rfl
@[simp] theorem State.accept_plen (s : State) (w : Word) :
    (s.accept w).plen = s.plen := rfl
@[simp] theorem State.accept_ilen (s : State) (w : Word) :
    (s.accept w).ilen = s.ilen := rfl
@[simp] theorem State.accept_inLen (s : State) (w : Word) :
    (s.accept w).inLen = s.inLen := rfl
@[simp] theorem State.accept_outLen (s : State) (w : Word) :
    (s.accept w).outLen = 0 := rfl
@[simp] theorem State.accept_resPoff (s : State) (w : Word) :
    (s.accept w).resPoff = 0 := rfl
@[simp] theorem State.accept_resPlen (s : State) (w : Word) :
    (s.accept w).resPlen = 0 := rfl
@[simp] theorem State.accept_resIoff (s : State) (w : Word) :
    (s.accept w).resIoff = 0 := rfl
@[simp] theorem State.accept_resIlen (s : State) (w : Word) :
    (s.accept w).resIlen = 0 := rfl
@[simp] theorem State.accept_inBuf (s : State) (w : Word) :
    (s.accept w).inBuf = s.inBuf := rfl
@[simp] theorem State.accept_outBuf (s : State) (w : Word) :
    (s.accept w).outBuf = [] := rfl
@[simp] theorem State.accept_inputs (s : State) (w : Word) :
    (s.accept w).inputs = s.inputs := rfl
@[simp] theorem State.accept_responses (s : State) (w : Word) :
    (s.accept w).responses = s.responses := rfl
@[simp] theorem State.accept_wait (s : State) (w : Word) :
    (s.accept w).wait = s.wait := rfl
@[simp] theorem State.accept_latencies (s : State) (w : Word) :
    (s.accept w).latencies = s.latencies := rfl
@[simp] theorem State.accept_issues (s : State) (w : Word) :
    (s.accept w).issues = s.issues := rfl

/-! ### `State.emit` -/

@[simp] theorem State.emit_params (s : State) (o : Output) :
    (s.emit o).params = s.params := rfl
@[simp] theorem State.emit_fsm (s : State) (o : Output) :
    (s.emit o).fsm = s.fsm := rfl
@[simp] theorem State.emit_cmdw (s : State) (o : Output) :
    (s.emit o).cmdw = s.cmdw := rfl
@[simp] theorem State.emit_irqEn (s : State) (o : Output) :
    (s.emit o).irqEn = s.irqEn := rfl
@[simp] theorem State.emit_done (s : State) (o : Output) :
    (s.emit o).done = s.done := rfl
@[simp] theorem State.emit_ovr (s : State) (o : Output) :
    (s.emit o).ovr = s.ovr := rfl
@[simp] theorem State.emit_errcode (s : State) (o : Output) :
    (s.emit o).errcode = s.errcode := rfl
@[simp] theorem State.emit_keyLen (s : State) (o : Output) :
    (s.emit o).keyLen = s.keyLen := rfl
@[simp] theorem State.emit_key (s : State) (o : Output) :
    (s.emit o).key = s.key := rfl
@[simp] theorem State.emit_nonce (s : State) (o : Output) :
    (s.emit o).nonce = s.nonce := rfl
@[simp] theorem State.emit_iv (s : State) (o : Output) :
    (s.emit o).iv = s.iv := rfl
@[simp] theorem State.emit_plen (s : State) (o : Output) :
    (s.emit o).plen = s.plen := rfl
@[simp] theorem State.emit_ilen (s : State) (o : Output) :
    (s.emit o).ilen = s.ilen := rfl
@[simp] theorem State.emit_inLen (s : State) (o : Output) :
    (s.emit o).inLen = s.inLen := rfl
@[simp] theorem State.emit_outLen (s : State) (o : Output) :
    (s.emit o).outLen = BitVec.ofNat 32 o.bytes.length := rfl
@[simp] theorem State.emit_resPoff (s : State) (o : Output) :
    (s.emit o).resPoff = written o.poff s.resPoff := rfl
@[simp] theorem State.emit_resPlen (s : State) (o : Output) :
    (s.emit o).resPlen = written o.plen s.resPlen := rfl
@[simp] theorem State.emit_resIoff (s : State) (o : Output) :
    (s.emit o).resIoff = written o.ioff s.resIoff := rfl
@[simp] theorem State.emit_resIlen (s : State) (o : Output) :
    (s.emit o).resIlen = written o.ilen s.resIlen := rfl
@[simp] theorem State.emit_inBuf (s : State) (o : Output) :
    (s.emit o).inBuf = s.inBuf := rfl
@[simp] theorem State.emit_outBuf (s : State) (o : Output) :
    (s.emit o).outBuf = s.outBuf.writeBytes 0 o.bytes := rfl
@[simp] theorem State.emit_inputs (s : State) (o : Output) :
    (s.emit o).inputs = s.inputs := rfl
@[simp] theorem State.emit_responses (s : State) (o : Output) :
    (s.emit o).responses = s.responses := rfl
@[simp] theorem State.emit_wait (s : State) (o : Output) :
    (s.emit o).wait = s.wait := rfl
@[simp] theorem State.emit_latencies (s : State) (o : Output) :
    (s.emit o).latencies = s.latencies := rfl
@[simp] theorem State.emit_issues (s : State) (o : Output) :
    (s.emit o).issues = s.issues := rfl

/-! ### `State.raise` -/

@[simp] theorem State.raise_params (s : State) (e : Err) :
    (s.raise e).params = s.params := rfl
@[simp] theorem State.raise_fsm (s : State) (e : Err) :
    (s.raise e).fsm = s.fsm := rfl
@[simp] theorem State.raise_cmdw (s : State) (e : Err) :
    (s.raise e).cmdw = s.cmdw := rfl
@[simp] theorem State.raise_irqEn (s : State) (e : Err) :
    (s.raise e).irqEn = s.irqEn := rfl
@[simp] theorem State.raise_done (s : State) (e : Err) :
    (s.raise e).done = s.done := rfl
@[simp] theorem State.raise_ovr (s : State) (e : Err) :
    (s.raise e).ovr = s.ovr := rfl
@[simp] theorem State.raise_errcode (s : State) (e : Err) :
    (s.raise e).errcode = e.code := rfl
@[simp] theorem State.raise_keyLen (s : State) (e : Err) :
    (s.raise e).keyLen = s.keyLen := rfl
@[simp] theorem State.raise_key (s : State) (e : Err) :
    (s.raise e).key = s.key := rfl
@[simp] theorem State.raise_nonce (s : State) (e : Err) :
    (s.raise e).nonce = s.nonce := rfl
@[simp] theorem State.raise_iv (s : State) (e : Err) :
    (s.raise e).iv = s.iv := rfl
@[simp] theorem State.raise_plen (s : State) (e : Err) :
    (s.raise e).plen = s.plen := rfl
@[simp] theorem State.raise_ilen (s : State) (e : Err) :
    (s.raise e).ilen = s.ilen := rfl
@[simp] theorem State.raise_inLen (s : State) (e : Err) :
    (s.raise e).inLen = s.inLen := rfl
@[simp] theorem State.raise_outLen (s : State) (e : Err) :
    (s.raise e).outLen = s.outLen := rfl
@[simp] theorem State.raise_resPoff (s : State) (e : Err) :
    (s.raise e).resPoff = s.resPoff := rfl
@[simp] theorem State.raise_resPlen (s : State) (e : Err) :
    (s.raise e).resPlen = s.resPlen := rfl
@[simp] theorem State.raise_resIoff (s : State) (e : Err) :
    (s.raise e).resIoff = s.resIoff := rfl
@[simp] theorem State.raise_resIlen (s : State) (e : Err) :
    (s.raise e).resIlen = s.resIlen := rfl
@[simp] theorem State.raise_inBuf (s : State) (e : Err) :
    (s.raise e).inBuf = s.inBuf := rfl
@[simp] theorem State.raise_outBuf (s : State) (e : Err) :
    (s.raise e).outBuf = s.outBuf := rfl
@[simp] theorem State.raise_inputs (s : State) (e : Err) :
    (s.raise e).inputs = s.inputs := rfl
@[simp] theorem State.raise_responses (s : State) (e : Err) :
    (s.raise e).responses = s.responses := rfl
@[simp] theorem State.raise_wait (s : State) (e : Err) :
    (s.raise e).wait = s.wait := rfl
@[simp] theorem State.raise_latencies (s : State) (e : Err) :
    (s.raise e).latencies = s.latencies := rfl
@[simp] theorem State.raise_issues (s : State) (e : Err) :
    (s.raise e).issues = s.issues := rfl

/-! ### `State.consumeKey` -/

@[simp] theorem State.consumeKey_params (s : State) :
    (s.consumeKey).params = s.params := rfl
@[simp] theorem State.consumeKey_fsm (s : State) :
    (s.consumeKey).fsm = s.fsm := rfl
@[simp] theorem State.consumeKey_cmdw (s : State) :
    (s.consumeKey).cmdw = s.cmdw := rfl
@[simp] theorem State.consumeKey_irqEn (s : State) :
    (s.consumeKey).irqEn = s.irqEn := rfl
@[simp] theorem State.consumeKey_done (s : State) :
    (s.consumeKey).done = s.done := rfl
@[simp] theorem State.consumeKey_ovr (s : State) :
    (s.consumeKey).ovr = s.ovr := rfl
@[simp] theorem State.consumeKey_errcode (s : State) :
    (s.consumeKey).errcode = s.errcode := rfl
@[simp] theorem State.consumeKey_keyLen (s : State) :
    (s.consumeKey).keyLen = 0 := rfl
@[simp] theorem State.consumeKey_key (s : State) :
    (s.consumeKey).key = Vector.replicate 8 0 := rfl
@[simp] theorem State.consumeKey_nonce (s : State) :
    (s.consumeKey).nonce = s.nonce := rfl
@[simp] theorem State.consumeKey_iv (s : State) :
    (s.consumeKey).iv = s.iv := rfl
@[simp] theorem State.consumeKey_plen (s : State) :
    (s.consumeKey).plen = s.plen := rfl
@[simp] theorem State.consumeKey_ilen (s : State) :
    (s.consumeKey).ilen = s.ilen := rfl
@[simp] theorem State.consumeKey_inLen (s : State) :
    (s.consumeKey).inLen = s.inLen := rfl
@[simp] theorem State.consumeKey_outLen (s : State) :
    (s.consumeKey).outLen = s.outLen := rfl
@[simp] theorem State.consumeKey_resPoff (s : State) :
    (s.consumeKey).resPoff = s.resPoff := rfl
@[simp] theorem State.consumeKey_resPlen (s : State) :
    (s.consumeKey).resPlen = s.resPlen := rfl
@[simp] theorem State.consumeKey_resIoff (s : State) :
    (s.consumeKey).resIoff = s.resIoff := rfl
@[simp] theorem State.consumeKey_resIlen (s : State) :
    (s.consumeKey).resIlen = s.resIlen := rfl
@[simp] theorem State.consumeKey_inBuf (s : State) :
    (s.consumeKey).inBuf = s.inBuf := rfl
@[simp] theorem State.consumeKey_outBuf (s : State) :
    (s.consumeKey).outBuf = s.outBuf := rfl
@[simp] theorem State.consumeKey_inputs (s : State) :
    (s.consumeKey).inputs = s.inputs := rfl
@[simp] theorem State.consumeKey_responses (s : State) :
    (s.consumeKey).responses = s.responses := rfl
@[simp] theorem State.consumeKey_wait (s : State) :
    (s.consumeKey).wait = s.wait := rfl
@[simp] theorem State.consumeKey_latencies (s : State) :
    (s.consumeKey).latencies = s.latencies := rfl
@[simp] theorem State.consumeKey_issues (s : State) :
    (s.consumeKey).issues = s.issues := rfl

/-! ### `State.finish` -/

@[simp] theorem State.finish_params (s : State) :
    (s.finish).params = s.params := rfl
@[simp] theorem State.finish_fsm (s : State) :
    (s.finish).fsm = .idle := rfl
@[simp] theorem State.finish_cmdw (s : State) :
    (s.finish).cmdw = s.cmdw := rfl
@[simp] theorem State.finish_irqEn (s : State) :
    (s.finish).irqEn = s.irqEn := rfl
@[simp] theorem State.finish_done (s : State) :
    (s.finish).done = true := rfl
@[simp] theorem State.finish_ovr (s : State) :
    (s.finish).ovr = s.ovr := rfl
@[simp] theorem State.finish_errcode (s : State) :
    (s.finish).errcode = s.errcode := rfl
@[simp] theorem State.finish_keyLen (s : State) :
    (s.finish).keyLen = s.keyLen := rfl
@[simp] theorem State.finish_key (s : State) :
    (s.finish).key = s.key := rfl
@[simp] theorem State.finish_nonce (s : State) :
    (s.finish).nonce = s.nonce := rfl
@[simp] theorem State.finish_iv (s : State) :
    (s.finish).iv = s.iv := rfl
@[simp] theorem State.finish_plen (s : State) :
    (s.finish).plen = s.plen := rfl
@[simp] theorem State.finish_ilen (s : State) :
    (s.finish).ilen = s.ilen := rfl
@[simp] theorem State.finish_inLen (s : State) :
    (s.finish).inLen = s.inLen := rfl
@[simp] theorem State.finish_outLen (s : State) :
    (s.finish).outLen = s.outLen := rfl
@[simp] theorem State.finish_resPoff (s : State) :
    (s.finish).resPoff = s.resPoff := rfl
@[simp] theorem State.finish_resPlen (s : State) :
    (s.finish).resPlen = s.resPlen := rfl
@[simp] theorem State.finish_resIoff (s : State) :
    (s.finish).resIoff = s.resIoff := rfl
@[simp] theorem State.finish_resIlen (s : State) :
    (s.finish).resIlen = s.resIlen := rfl
@[simp] theorem State.finish_inBuf (s : State) :
    (s.finish).inBuf = s.inBuf := rfl
@[simp] theorem State.finish_outBuf (s : State) :
    (s.finish).outBuf = s.outBuf := rfl
@[simp] theorem State.finish_inputs (s : State) :
    (s.finish).inputs = s.inputs := rfl
@[simp] theorem State.finish_responses (s : State) :
    (s.finish).responses = s.responses := rfl
@[simp] theorem State.finish_wait (s : State) :
    (s.finish).wait = s.wait := rfl
@[simp] theorem State.finish_latencies (s : State) :
    (s.finish).latencies = s.latencies := rfl
@[simp] theorem State.finish_issues (s : State) :
    (s.finish).issues = s.issues := rfl

/-! ### `State.acknowledge` -/

@[simp] theorem State.acknowledge_params (s : State) :
    (s.acknowledge).params = s.params := rfl
@[simp] theorem State.acknowledge_fsm (s : State) :
    (s.acknowledge).fsm = s.fsm := rfl
@[simp] theorem State.acknowledge_cmdw (s : State) :
    (s.acknowledge).cmdw = s.cmdw := rfl
@[simp] theorem State.acknowledge_irqEn (s : State) :
    (s.acknowledge).irqEn = s.irqEn := rfl
@[simp] theorem State.acknowledge_done (s : State) :
    (s.acknowledge).done = false := rfl
@[simp] theorem State.acknowledge_ovr (s : State) :
    (s.acknowledge).ovr = s.ovr := rfl
@[simp] theorem State.acknowledge_errcode (s : State) :
    (s.acknowledge).errcode = s.errcode := rfl
@[simp] theorem State.acknowledge_keyLen (s : State) :
    (s.acknowledge).keyLen = s.keyLen := rfl
@[simp] theorem State.acknowledge_key (s : State) :
    (s.acknowledge).key = s.key := rfl
@[simp] theorem State.acknowledge_nonce (s : State) :
    (s.acknowledge).nonce = s.nonce := rfl
@[simp] theorem State.acknowledge_iv (s : State) :
    (s.acknowledge).iv = s.iv := rfl
@[simp] theorem State.acknowledge_plen (s : State) :
    (s.acknowledge).plen = s.plen := rfl
@[simp] theorem State.acknowledge_ilen (s : State) :
    (s.acknowledge).ilen = s.ilen := rfl
@[simp] theorem State.acknowledge_inLen (s : State) :
    (s.acknowledge).inLen = s.inLen := rfl
@[simp] theorem State.acknowledge_outLen (s : State) :
    (s.acknowledge).outLen = s.outLen := rfl
@[simp] theorem State.acknowledge_resPoff (s : State) :
    (s.acknowledge).resPoff = s.resPoff := rfl
@[simp] theorem State.acknowledge_resPlen (s : State) :
    (s.acknowledge).resPlen = s.resPlen := rfl
@[simp] theorem State.acknowledge_resIoff (s : State) :
    (s.acknowledge).resIoff = s.resIoff := rfl
@[simp] theorem State.acknowledge_resIlen (s : State) :
    (s.acknowledge).resIlen = s.resIlen := rfl
@[simp] theorem State.acknowledge_inBuf (s : State) :
    (s.acknowledge).inBuf = s.inBuf := rfl
@[simp] theorem State.acknowledge_outBuf (s : State) :
    (s.acknowledge).outBuf = s.outBuf := rfl
@[simp] theorem State.acknowledge_inputs (s : State) :
    (s.acknowledge).inputs = s.inputs := rfl
@[simp] theorem State.acknowledge_responses (s : State) :
    (s.acknowledge).responses = s.responses := rfl
@[simp] theorem State.acknowledge_wait (s : State) :
    (s.acknowledge).wait = s.wait := rfl
@[simp] theorem State.acknowledge_latencies (s : State) :
    (s.acknowledge).latencies = s.latencies := rfl
@[simp] theorem State.acknowledge_issues (s : State) :
    (s.acknowledge).issues = s.issues := rfl

/-! ### `State.hardReset` -/

@[simp] theorem State.hardReset_params (s : State) :
    (s.hardReset).params = s.params := rfl
@[simp] theorem State.hardReset_fsm (s : State) :
    (s.hardReset).fsm = .idle := rfl
@[simp] theorem State.hardReset_cmdw (s : State) :
    (s.hardReset).cmdw = 0 := rfl
@[simp] theorem State.hardReset_irqEn (s : State) :
    (s.hardReset).irqEn = false := rfl
@[simp] theorem State.hardReset_done (s : State) :
    (s.hardReset).done = false := rfl
@[simp] theorem State.hardReset_ovr (s : State) :
    (s.hardReset).ovr = false := rfl
@[simp] theorem State.hardReset_errcode (s : State) :
    (s.hardReset).errcode = 0 := rfl
@[simp] theorem State.hardReset_keyLen (s : State) :
    (s.hardReset).keyLen = 0 := rfl
@[simp] theorem State.hardReset_key (s : State) :
    (s.hardReset).key = Vector.replicate 8 0 := rfl
@[simp] theorem State.hardReset_nonce (s : State) :
    (s.hardReset).nonce = Vector.replicate 4 0 := rfl
@[simp] theorem State.hardReset_iv (s : State) :
    (s.hardReset).iv = Vector.replicate 4 0 := rfl
@[simp] theorem State.hardReset_plen (s : State) :
    (s.hardReset).plen = 0 := rfl
@[simp] theorem State.hardReset_ilen (s : State) :
    (s.hardReset).ilen = 0 := rfl
@[simp] theorem State.hardReset_inLen (s : State) :
    (s.hardReset).inLen = 0 := rfl
@[simp] theorem State.hardReset_outLen (s : State) :
    (s.hardReset).outLen = 0 := rfl
@[simp] theorem State.hardReset_resPoff (s : State) :
    (s.hardReset).resPoff = 0 := rfl
@[simp] theorem State.hardReset_resPlen (s : State) :
    (s.hardReset).resPlen = 0 := rfl
@[simp] theorem State.hardReset_resIoff (s : State) :
    (s.hardReset).resIoff = 0 := rfl
@[simp] theorem State.hardReset_resIlen (s : State) :
    (s.hardReset).resIlen = 0 := rfl
@[simp] theorem State.hardReset_inBuf (s : State) :
    (s.hardReset).inBuf = [] := rfl
@[simp] theorem State.hardReset_outBuf (s : State) :
    (s.hardReset).outBuf = [] := rfl
@[simp] theorem State.hardReset_inputs (s : State) :
    (s.hardReset).inputs = s.inputs := rfl
@[simp] theorem State.hardReset_responses (s : State) :
    (s.hardReset).responses = s.responses := rfl
@[simp] theorem State.hardReset_wait (s : State) :
    (s.hardReset).wait = 0 := rfl
@[simp] theorem State.hardReset_latencies (s : State) :
    (s.hardReset).latencies = s.latencies := rfl
@[simp] theorem State.hardReset_issues (s : State) :
    (s.hardReset).issues = s.issues := rfl

/-! ### `State.drawWait` -/

@[simp] theorem State.drawWait_params (s : State) :
    (s.drawWait).params = s.params := by
  unfold State.drawWait; split <;> rfl
@[simp] theorem State.drawWait_fsm (s : State) :
    (s.drawWait).fsm = s.fsm := by
  unfold State.drawWait; split <;> rfl
@[simp] theorem State.drawWait_cmdw (s : State) :
    (s.drawWait).cmdw = s.cmdw := by
  unfold State.drawWait; split <;> rfl
@[simp] theorem State.drawWait_irqEn (s : State) :
    (s.drawWait).irqEn = s.irqEn := by
  unfold State.drawWait; split <;> rfl
@[simp] theorem State.drawWait_done (s : State) :
    (s.drawWait).done = s.done := by
  unfold State.drawWait; split <;> rfl
@[simp] theorem State.drawWait_ovr (s : State) :
    (s.drawWait).ovr = s.ovr := by
  unfold State.drawWait; split <;> rfl
@[simp] theorem State.drawWait_errcode (s : State) :
    (s.drawWait).errcode = s.errcode := by
  unfold State.drawWait; split <;> rfl
@[simp] theorem State.drawWait_keyLen (s : State) :
    (s.drawWait).keyLen = s.keyLen := by
  unfold State.drawWait; split <;> rfl
@[simp] theorem State.drawWait_key (s : State) :
    (s.drawWait).key = s.key := by
  unfold State.drawWait; split <;> rfl
@[simp] theorem State.drawWait_nonce (s : State) :
    (s.drawWait).nonce = s.nonce := by
  unfold State.drawWait; split <;> rfl
@[simp] theorem State.drawWait_iv (s : State) :
    (s.drawWait).iv = s.iv := by
  unfold State.drawWait; split <;> rfl
@[simp] theorem State.drawWait_plen (s : State) :
    (s.drawWait).plen = s.plen := by
  unfold State.drawWait; split <;> rfl
@[simp] theorem State.drawWait_ilen (s : State) :
    (s.drawWait).ilen = s.ilen := by
  unfold State.drawWait; split <;> rfl
@[simp] theorem State.drawWait_inLen (s : State) :
    (s.drawWait).inLen = s.inLen := by
  unfold State.drawWait; split <;> rfl
@[simp] theorem State.drawWait_outLen (s : State) :
    (s.drawWait).outLen = s.outLen := by
  unfold State.drawWait; split <;> rfl
@[simp] theorem State.drawWait_resPoff (s : State) :
    (s.drawWait).resPoff = s.resPoff := by
  unfold State.drawWait; split <;> rfl
@[simp] theorem State.drawWait_resPlen (s : State) :
    (s.drawWait).resPlen = s.resPlen := by
  unfold State.drawWait; split <;> rfl
@[simp] theorem State.drawWait_resIoff (s : State) :
    (s.drawWait).resIoff = s.resIoff := by
  unfold State.drawWait; split <;> rfl
@[simp] theorem State.drawWait_resIlen (s : State) :
    (s.drawWait).resIlen = s.resIlen := by
  unfold State.drawWait; split <;> rfl
@[simp] theorem State.drawWait_inBuf (s : State) :
    (s.drawWait).inBuf = s.inBuf := by
  unfold State.drawWait; split <;> rfl
@[simp] theorem State.drawWait_outBuf (s : State) :
    (s.drawWait).outBuf = s.outBuf := by
  unfold State.drawWait; split <;> rfl
@[simp] theorem State.drawWait_inputs (s : State) :
    (s.drawWait).inputs = s.inputs := by
  unfold State.drawWait; split <;> rfl
@[simp] theorem State.drawWait_responses (s : State) :
    (s.drawWait).responses = s.responses := by
  unfold State.drawWait; split <;> rfl

/-- The drawn delay comes from the state's own list when it has one. -/
theorem State.drawWait_of_cons (s : State) (n : Nat) (rest : List Nat) (h : s.latencies = n :: rest) :
    s.drawWait = { s with wait := n, latencies := rest } := by
  simp only [State.drawWait, h]

/-- The drawn delay is the free value when the state's own list is empty. -/
theorem State.drawWait_of_nil (s : State) (h : s.latencies = []) :
    s.drawWait = { s with wait := Config.latency s.issues, issues := s.issues + 1 } := by
  simp only [State.drawWait, h]

/-! ### `State.issue` -/

@[simp] theorem State.issue_params (s : State) (w : Word) :
    (s.issue w).params = s.params := by
  simp only [State.issue, State.drawWait_params, State.accept_params]
@[simp] theorem State.issue_fsm (s : State) (w : Word) :
    (s.issue w).fsm = .busy := by
  simp only [State.issue, State.drawWait_fsm, State.accept_fsm]
@[simp] theorem State.issue_cmdw (s : State) (w : Word) :
    (s.issue w).cmdw = w := by
  simp only [State.issue, State.drawWait_cmdw, State.accept_cmdw]
@[simp] theorem State.issue_irqEn (s : State) (w : Word) :
    (s.issue w).irqEn = s.irqEn := by
  simp only [State.issue, State.drawWait_irqEn, State.accept_irqEn]
@[simp] theorem State.issue_done (s : State) (w : Word) :
    (s.issue w).done = false := by
  simp only [State.issue, State.drawWait_done, State.accept_done]
@[simp] theorem State.issue_ovr (s : State) (w : Word) :
    (s.issue w).ovr = s.ovr := by
  simp only [State.issue, State.drawWait_ovr, State.accept_ovr]
@[simp] theorem State.issue_errcode (s : State) (w : Word) :
    (s.issue w).errcode = 0 := by
  simp only [State.issue, State.drawWait_errcode, State.accept_errcode]
@[simp] theorem State.issue_keyLen (s : State) (w : Word) :
    (s.issue w).keyLen = s.keyLen := by
  simp only [State.issue, State.drawWait_keyLen, State.accept_keyLen]
@[simp] theorem State.issue_key (s : State) (w : Word) :
    (s.issue w).key = s.key := by
  simp only [State.issue, State.drawWait_key, State.accept_key]
@[simp] theorem State.issue_nonce (s : State) (w : Word) :
    (s.issue w).nonce = s.nonce := by
  simp only [State.issue, State.drawWait_nonce, State.accept_nonce]
@[simp] theorem State.issue_iv (s : State) (w : Word) :
    (s.issue w).iv = s.iv := by
  simp only [State.issue, State.drawWait_iv, State.accept_iv]
@[simp] theorem State.issue_plen (s : State) (w : Word) :
    (s.issue w).plen = s.plen := by
  simp only [State.issue, State.drawWait_plen, State.accept_plen]
@[simp] theorem State.issue_ilen (s : State) (w : Word) :
    (s.issue w).ilen = s.ilen := by
  simp only [State.issue, State.drawWait_ilen, State.accept_ilen]
@[simp] theorem State.issue_inLen (s : State) (w : Word) :
    (s.issue w).inLen = s.inLen := by
  simp only [State.issue, State.drawWait_inLen, State.accept_inLen]
@[simp] theorem State.issue_outLen (s : State) (w : Word) :
    (s.issue w).outLen = 0 := by
  simp only [State.issue, State.drawWait_outLen, State.accept_outLen]
@[simp] theorem State.issue_resPoff (s : State) (w : Word) :
    (s.issue w).resPoff = 0 := by
  simp only [State.issue, State.drawWait_resPoff, State.accept_resPoff]
@[simp] theorem State.issue_resPlen (s : State) (w : Word) :
    (s.issue w).resPlen = 0 := by
  simp only [State.issue, State.drawWait_resPlen, State.accept_resPlen]
@[simp] theorem State.issue_resIoff (s : State) (w : Word) :
    (s.issue w).resIoff = 0 := by
  simp only [State.issue, State.drawWait_resIoff, State.accept_resIoff]
@[simp] theorem State.issue_resIlen (s : State) (w : Word) :
    (s.issue w).resIlen = 0 := by
  simp only [State.issue, State.drawWait_resIlen, State.accept_resIlen]
@[simp] theorem State.issue_inBuf (s : State) (w : Word) :
    (s.issue w).inBuf = s.inBuf := by
  simp only [State.issue, State.drawWait_inBuf, State.accept_inBuf]
@[simp] theorem State.issue_outBuf (s : State) (w : Word) :
    (s.issue w).outBuf = [] := by
  simp only [State.issue, State.drawWait_outBuf, State.accept_outBuf]
@[simp] theorem State.issue_inputs (s : State) (w : Word) :
    (s.issue w).inputs = s.inputs := by
  simp only [State.issue, State.drawWait_inputs, State.accept_inputs]
@[simp] theorem State.issue_responses (s : State) (w : Word) :
    (s.issue w).responses = s.responses := by
  simp only [State.issue, State.drawWait_responses, State.accept_responses]

/-! ### `State.complete` -/

@[simp] theorem State.complete_params (s : State) (r : Except Err Output) :
    (s.complete r).params = s.params := by
  cases r <;> rfl
@[simp] theorem State.complete_fsm (s : State) (r : Except Err Output) :
    (s.complete r).fsm = .idle := by
  cases r <;> rfl
@[simp] theorem State.complete_cmdw (s : State) (r : Except Err Output) :
    (s.complete r).cmdw = s.cmdw := by
  cases r <;> rfl
@[simp] theorem State.complete_irqEn (s : State) (r : Except Err Output) :
    (s.complete r).irqEn = s.irqEn := by
  cases r <;> rfl
@[simp] theorem State.complete_done (s : State) (r : Except Err Output) :
    (s.complete r).done = true := by
  cases r <;> rfl
@[simp] theorem State.complete_ovr (s : State) (r : Except Err Output) :
    (s.complete r).ovr = s.ovr := by
  cases r <;> rfl
@[simp] theorem State.complete_keyLen (s : State) (r : Except Err Output) :
    (s.complete r).keyLen = 0 := by
  cases r <;> rfl
@[simp] theorem State.complete_key (s : State) (r : Except Err Output) :
    (s.complete r).key = Vector.replicate 8 0 := by
  cases r <;> rfl
@[simp] theorem State.complete_nonce (s : State) (r : Except Err Output) :
    (s.complete r).nonce = s.nonce := by
  cases r <;> rfl
@[simp] theorem State.complete_iv (s : State) (r : Except Err Output) :
    (s.complete r).iv = s.iv := by
  cases r <;> rfl
@[simp] theorem State.complete_plen (s : State) (r : Except Err Output) :
    (s.complete r).plen = s.plen := by
  cases r <;> rfl
@[simp] theorem State.complete_ilen (s : State) (r : Except Err Output) :
    (s.complete r).ilen = s.ilen := by
  cases r <;> rfl
@[simp] theorem State.complete_inLen (s : State) (r : Except Err Output) :
    (s.complete r).inLen = s.inLen := by
  cases r <;> rfl
@[simp] theorem State.complete_inBuf (s : State) (r : Except Err Output) :
    (s.complete r).inBuf = s.inBuf := by
  cases r <;> rfl
@[simp] theorem State.complete_inputs (s : State) (r : Except Err Output) :
    (s.complete r).inputs = s.inputs := by
  cases r <;> rfl
@[simp] theorem State.complete_responses (s : State) (r : Except Err Output) :
    (s.complete r).responses = s.responses := by
  cases r <;> rfl
@[simp] theorem State.complete_wait (s : State) (r : Except Err Output) :
    (s.complete r).wait = s.wait := by
  cases r <;> rfl
@[simp] theorem State.complete_latencies (s : State) (r : Except Err Output) :
    (s.complete r).latencies = s.latencies := by
  cases r <;> rfl
@[simp] theorem State.complete_issues (s : State) (r : Except Err Output) :
    (s.complete r).issues = s.issues := by
  cases r <;> rfl

/-- A success writes its outputs, and the key is consumed (60_exceptions.md R275, R277). -/
theorem State.complete_ok (s : State) (o : Output) :
    s.complete (.ok o) = (s.emit o).consumeKey.finish := rfl

/-- An error writes ERRCODE and no output, and the key is consumed (60_exceptions.md R276, R277). -/
theorem State.complete_error (s : State) (e : Err) :
    s.complete (.error e) = (s.raise e).consumeKey.finish := rfl

end Sys2Proof.Machine
end

