-- ==== Sys2Proof/Laws/Bus.lean ====
section
/-! SUPPORT. What a bus transaction can do: where an address leads, and the cases of a write. -/

namespace Sys2Proof.Machine

/-! ### Addresses -/

/-- The word addressed is the aligned one (20_memory.md R61). -/
theorem wordAddr_eq (a : BitVec 18) : wordAddr a = 4 * (a.toNat / 4) := by
  simp only [wordAddr]; omega

theorem wordAddr_lt (a : BitVec 18) : wordAddr a < 0x40000 := by
  have := a.isLt
  simp only [wordAddr]; omega

/-- Two addresses of one word have one target (20_memory.md R65). -/
theorem target_congr {a b : BitVec 18} (h : a.toNat / 4 = b.toNat / 4) : target a = target b := by
  have : wordAddr a = wordAddr b := by rw [wordAddr_eq, wordAddr_eq, h]
  simp only [target, this]

/-- In the register block the target is the register at the word's offset, or a reserved offset. -/
theorem target_of_reg {a : BitVec 18} (h : wordAddr a < 0x100) :
    target a = match regAt (wordAddr a) with
      | some r => .reg r
      | none => .reservedReg := by
  unfold target
  exact if_pos h

theorem target_of_inBuf {a : BitVec 18} (h1 : 0x10000 ≤ wordAddr a) (h2 : wordAddr a < 0x20000) :
    target a = .inBuf (wordAddr a - 0x10000) := by
  simp only [target]
  rw [if_neg (by omega), if_neg (by omega), if_pos h2]

theorem target_of_outBuf {a : BitVec 18} (h1 : 0x20000 ≤ wordAddr a) (h2 : wordAddr a < 0x30000) :
    target a = .outBuf (wordAddr a - 0x20000) := by
  simp only [target]
  rw [if_neg (by omega), if_neg (by omega), if_neg (by omega), if_pos h2]

theorem target_of_reserved {a : BitVec 18}
    (h : (0x100 ≤ wordAddr a ∧ wordAddr a < 0x10000) ∨ 0x30000 ≤ wordAddr a) : target a = .reserved := by
  simp only [target]
  rcases h with ⟨h1, h2⟩ | h
  · rw [if_neg (by omega), if_pos h2]
  · rw [if_neg (by omega), if_neg (by omega), if_neg (by omega), if_neg (by omega)]

/-- The target of a word address at a register's offset. -/
theorem target_eq_reg {a : BitVec 18} {o : Nat} {r : Reg} (h : wordAddr a = o) (hr : regAt o = some r)
    (ho : o < 0x100) : target a = .reg r := by
  rw [target_of_reg (by omega), h, hr]

/-- The target of a word address at a reserved offset. -/
theorem target_eq_reservedReg {a : BitVec 18} {o : Nat} (h : wordAddr a = o) (hr : regAt o = none)
    (ho : o < 0x100) : target a = .reservedReg := by
  rw [target_of_reg (by omega), h, hr]

/-- The gated offsets of the register block, among the aligned ones. -/
theorem regBlock_gated : ∀ o : Fin 0x100, o.val % 4 = 0 →
    ((match regAt o.val with
      | some r => Target.reg r
      | none => Target.reservedReg).gated = true ↔
      (o.val = 0x00C ∨ o.val = 0x018 ∨ (0x020 ≤ o.val ∧ o.val ≤ 0x068))) := by
  decide +kernel

/-- The gated targets by address (46_host_bus.md R244). -/
theorem target_gated_iff (a : BitVec 18) :
    (target a).gated = true ↔
      wordAddr a = 0x00C ∨ wordAddr a = 0x018 ∨ (0x020 ≤ wordAddr a ∧ wordAddr a ≤ 0x068) ∨
        (0x10000 ≤ wordAddr a ∧ wordAddr a < 0x20000) := by
  have ha : wordAddr a % 4 = 0 := by rw [wordAddr_eq]; omega
  by_cases h : wordAddr a < 0x100
  · rw [target_of_reg h]
    refine (regBlock_gated ⟨wordAddr a, h⟩ ha).trans ?_
    simp only; omega
  by_cases h2 : wordAddr a < 0x10000
  · rw [target_of_reserved (.inl ⟨by omega, h2⟩)]; simp [Target.gated]; omega
  by_cases h3 : wordAddr a < 0x20000
  · rw [target_of_inBuf (by omega) h3]; simp [Target.gated]; omega
  by_cases h4 : wordAddr a < 0x30000
  · rw [target_of_outBuf (by omega) h4]; simp [Target.gated]; omega
  · rw [target_of_reserved (.inr (by omega))]; simp [Target.gated]; omega

/-- The register block by address (20_memory.md R68). -/
theorem target_inRegBlock_iff (a : BitVec 18) : (target a).inRegBlock = true ↔ wordAddr a < 0x100 := by
  by_cases h : wordAddr a < 0x100
  · rw [target_of_reg h]; simp only [h, iff_true]; split <;> rfl
  simp only [h, iff_false]
  by_cases h2 : wordAddr a < 0x10000
  · rw [target_of_reserved (.inl ⟨by omega, h2⟩)]; simp [Target.inRegBlock]
  by_cases h3 : wordAddr a < 0x20000
  · rw [target_of_inBuf (by omega) h3]; simp [Target.inRegBlock]
  by_cases h4 : wordAddr a < 0x30000
  · rw [target_of_outBuf (by omega) h4]; simp [Target.inRegBlock]
  · rw [target_of_reserved (.inr (by omega))]; simp [Target.inRegBlock]

/-- An address that leads to a register is in the register map at that register's offset. -/
theorem target_reg_mem {a : BitVec 18} {r : Reg} (h : target a = .reg r) :
    (wordAddr a, r) ∈ registerMap := by
  have look : ∀ (m : List (Nat × Reg)) (o : Nat), m.lookup o = some r → (o, r) ∈ m := by
    intro m o hm
    induction m with
    | nil => simp at hm
    | cons e m ih =>
      obtain ⟨x, q⟩ := e
      rw [List.lookup_cons] at hm
      by_cases hx : o == x
      · rw [hx] at hm
        simp_all
      · rw [Bool.not_eq_true] at hx
        rw [hx] at hm
        exact List.mem_cons_of_mem _ (ih hm)
  simp only [target] at h
  by_cases hw : wordAddr a < 0x100
  · rw [if_pos hw] at h
    cases hr : regAt (wordAddr a) with
    | some q =>
      rw [hr] at h
      exact look registerMap _ (by rw [regAt] at hr; simp_all)
    | none => rw [hr] at h; exact absurd h (by simp)
  · rw [if_neg hw] at h
    split at h
    · exact absurd h (by simp)
    split at h
    · exact absurd h (by simp)
    split at h <;> exact absurd h (by simp)

/-- An address that leads to IN_BUF lies in its window. -/
theorem target_inBuf_range {a : BitVec 18} {o : Nat} (h : target a = .inBuf o) :
    0x10000 ≤ wordAddr a ∧ wordAddr a < 0x20000 ∧ o = wordAddr a - 0x10000 := by
  simp only [target] at h
  split at h
  · split at h <;> exact absurd h (by simp)
  split at h
  · exact absurd h (by simp)
  split at h
  · injection h with h; omega
  split at h <;> exact absurd h (by simp)

/-! ### IN_BUF writes -/

theorem writeLane_wf {m : Memory} (h : m.wf) (p : Params) (d : Word) (st : BitVec 4) (o j : Nat) :
    (writeLane p d st o j m).wf := by
  simp only [writeLane]; split
  · exact Memory.write_wf h _ _
  · exact h

theorem mem_writeLane {m : Memory} {p : Params} {d : Word} {st : BitVec 4} {o j : Nat} {c : Host.Cell}
    (h : c ∈ writeLane p d st o j m) : c ∈ m ∨ c.1 < p.bufBytes := by
  simp only [writeLane] at h; split at h
  · rcases Memory.mem_write h with h | ⟨rfl, _⟩
    · exact .inl h
    · exact .inr (by simp_all)
  · exact .inl h

/-- Reading after one lane of an IN_BUF write. -/
theorem read_writeLane {m : Memory} (h : m.wf) (p : Params) (d : Word) (st : BitVec 4) (o j x : Nat) :
    (writeLane p d st o j m).read x =
      if x = o + j ∧ st.getLsbD j = true ∧ x < p.bufBytes then lane d j else m.read x := by
  simp only [writeLane]
  by_cases hc : st.getLsbD j = true ∧ o + j < p.bufBytes
  · rw [if_pos hc, Memory.read_write h]
    by_cases hx : x = o + j
    · subst hx; rw [if_pos rfl, if_pos ⟨rfl, hc.1, hc.2⟩]
    · rw [if_neg hx, if_neg (fun hh => hx hh.1)]
  · rw [if_neg hc, if_neg]
    rintro ⟨rfl, h2, h3⟩
    exact hc ⟨h2, h3⟩

theorem writeIn_inBuf_wf {s : State} (h : s.inBuf.wf) (o : Nat) (d : Word) (st : BitVec 4) :
    (s.writeIn o d st).inBuf.wf := by
  simp only [State.writeIn]
  exact writeLane_wf (writeLane_wf (writeLane_wf (writeLane_wf h _ _ _ _ _) _ _ _ _ _) _ _ _ _ _) _ _ _ _ _

theorem mem_writeIn {s : State} {o : Nat} {d : Word} {st : BitVec 4} {c : Host.Cell}
    (h : c ∈ (s.writeIn o d st).inBuf) : c ∈ s.inBuf ∨ c.1 < s.params.bufBytes := by
  simp only [State.writeIn] at h
  rcases mem_writeLane h with h | h
  · rcases mem_writeLane h with h | h
    · rcases mem_writeLane h with h | h
      · exact mem_writeLane h
      · exact .inr h
    · exact .inr h
  · exact .inr h

/-- Reading after an IN_BUF write (46_host_bus.md R249). -/
theorem read_writeIn {s : State} (h : s.inBuf.wf) (o : Nat) (d : Word) (st : BitVec 4) (x : Nat) :
    (s.writeIn o d st).inBuf.read x =
      if o ≤ x ∧ x < o + 4 ∧ st.getLsbD (x - o) = true ∧ x < s.params.bufBytes then lane d (x - o)
      else s.inBuf.read x := by
  simp only [State.writeIn]
  have w0 := writeLane_wf h s.params d st o 0
  have w1 := writeLane_wf w0 s.params d st o 1
  have w2 := writeLane_wf w1 s.params d st o 2
  rw [read_writeLane w2, read_writeLane w1, read_writeLane w0, read_writeLane h]
  by_cases hx : o ≤ x ∧ x < o + 4
  · obtain ⟨j, rfl⟩ : ∃ j, x = o + j := ⟨x - o, by omega⟩
    have hj : j < 4 := by omega
    rw [Nat.add_sub_cancel_left]
    interval_cases j <;> simp
  · rw [if_neg (by omega), if_neg (by omega), if_neg (by omega), if_neg (by omega), if_neg (by tauto)]

/-! ### The cases of a write, 46_host_bus.md R242 -/

/-- A full-word write of a register that is not gated, or while IDLE, is the write of the register. -/
theorem State.busWrite_reg {s : State} {a : BitVec 18} {r : Reg} (d : Word) (ht : target a = .reg r)
    (hg : r.gated = false ∨ s.fsm = .idle) : s.busWrite a d 0xF = s.writeReg r d := by
  simp only [State.busWrite, ht, Target.gated, State.writeTarget]
  rw [if_neg (by decide), if_neg, if_neg]
  · simp
  · rcases hg with h | h <;> simp [h]

/-- A write of an IN_BUF word while IDLE. -/
theorem State.busWrite_inBuf {s : State} {a : BitVec 18} (d : Word) (st : BitVec 4) (hi : s.fsm = .idle)
    (h1 : 0x10000 ≤ wordAddr a) (h2 : wordAddr a < 0x20000) :
    s.busWrite a d st = s.writeIn (wordAddr a - 0x10000) d st := by
  simp only [State.busWrite, target_of_inBuf h1 h2, hi, Target.inRegBlock, State.writeTarget]
  by_cases h : st = 0
  · subst h; simp [State.writeIn, writeLane]
  · rw [if_neg h]; simp

/-- A WR does one of three things: nothing, a dropped write that sets OVR, or the write of its target. -/
theorem State.busWrite_cases (s : State) (a : BitVec 18) (d : Word) (st : BitVec 4) :
    s.busWrite a d st = s ∨
    (st ≠ 0 ∧ (target a).gated = true ∧ s.fsm = .busy ∧ s.busWrite a d st = { s with ovr := true }) ∨
    (st ≠ 0 ∧ ¬ ((target a).gated = true ∧ s.fsm = .busy) ∧
      ((target a).inRegBlock = true → st = 0xF) ∧ s.busWrite a d st = s.writeTarget (target a) d st) := by
  simp only [State.busWrite]
  by_cases h0 : st = 0
  · exact .inl (if_pos h0)
  by_cases h1 : (target a).gated = true ∧ s.fsm = .busy
  · exact .inr (.inl ⟨h0, h1.1, h1.2, by rw [if_neg h0, if_pos h1]⟩)
  by_cases h2 : (target a).inRegBlock = true ∧ st ≠ 0xF
  · exact .inl (by rw [if_neg h0, if_neg h1, if_pos h2])
  · refine .inr (.inr ⟨h0, h1, fun hr => ?_, by rw [if_neg h0, if_neg h1, if_neg h2]⟩)
    by_contra hst; exact h2 ⟨hr, hst⟩

/-- Everything a WR can do: nothing; a dropped write; a CTRL, CMD or STATUS write; an operand register
write; an IN_BUF write. -/
theorem State.busWrite_shapes (s : State) (a : BitVec 18) (d : Word) (st : BitVec 4) :
    s.busWrite a d st = s ∨
    (st ≠ 0 ∧ (target a).gated = true ∧ s.fsm = .busy ∧ s.busWrite a d st = { s with ovr := true }) ∨
    (st = 0xF ∧ wordAddr a = 0x008 ∧ s.busWrite a d st = s.writeCtrl d) ∨
    (st = 0xF ∧ wordAddr a = 0x00C ∧ s.fsm = .idle ∧ s.busWrite a d st = s.issue d) ∨
    (st = 0xF ∧ wordAddr a = 0x010 ∧ s.busWrite a d st = s.writeStatus d) ∨
    (st = 0xF ∧ s.fsm = .idle ∧ ∃ (kl : Word) (k : Vector Word 8) (n v : Vector Word 4) (p i l : Word),
      s.busWrite a d st =
        { s with keyLen := kl, key := k, nonce := n, iv := v, plen := p, ilen := i, inLen := l }) ∨
    (st ≠ 0 ∧ s.fsm = .idle ∧ ∃ o, s.busWrite a d st = s.writeIn o d st) := by
  rcases s.busWrite_cases a d st with h | h | ⟨h0, hg, hr, h⟩
  · exact .inl h
  · exact .inr (.inl h)
  rw [h]
  have idle : (target a).gated = true → s.fsm = .idle := by
    intro hh
    cases hf : s.fsm with
    | idle => rfl
    | busy => exact absurd ⟨hh, hf⟩ hg
  cases ht : target a with
  | reservedReg => exact .inl rfl
  | reserved => exact .inl rfl
  | outBuf o => exact .inl rfl
  | inBuf o =>
    rw [ht] at idle
    exact .inr (.inr (.inr (.inr (.inr (.inr ⟨h0, idle rfl, o, rfl⟩)))))
  | reg r =>
    have hm := target_reg_mem ht
    have hst : st = 0xF := hr (by rw [ht]; rfl)
    rw [ht] at idle
    simp only [registerMap, List.mem_cons, Prod.mk.injEq, List.not_mem_nil, or_false] at hm
    cases r with
    | ctrl => exact .inr (.inr (.inl ⟨hst, by simpa using hm, rfl⟩))
    | cmd => exact .inr (.inr (.inr (.inl ⟨hst, by simpa using hm, idle rfl, rfl⟩)))
    | status => exact .inr (.inr (.inr (.inr (.inl ⟨hst, by simpa using hm, rfl⟩))))
    | keyLen => exact .inr (.inr (.inr (.inr (.inr (.inl ⟨hst, idle rfl, _, _, _, _, _, _, _, rfl⟩)))))
    | key i => exact .inr (.inr (.inr (.inr (.inr (.inl ⟨hst, idle rfl, _, _, _, _, _, _, _, rfl⟩)))))
    | nonce i => exact .inr (.inr (.inr (.inr (.inr (.inl ⟨hst, idle rfl, _, _, _, _, _, _, _, rfl⟩)))))
    | iv i => exact .inr (.inr (.inr (.inr (.inr (.inl ⟨hst, idle rfl, _, _, _, _, _, _, _, rfl⟩)))))
    | plen => exact .inr (.inr (.inr (.inr (.inr (.inl ⟨hst, idle rfl, _, _, _, _, _, _, _, rfl⟩)))))
    | ilen => exact .inr (.inr (.inr (.inr (.inr (.inl ⟨hst, idle rfl, _, _, _, _, _, _, _, rfl⟩)))))
    | inLen => exact .inr (.inr (.inr (.inr (.inr (.inl ⟨hst, idle rfl, _, _, _, _, _, _, _, rfl⟩)))))
    | ident => exact .inl rfl
    | cap => exact .inl rfl
    | errcode => exact .inl rfl
    | outLen => exact .inl rfl
    | resPoff => exact .inl rfl
    | resPlen => exact .inl rfl
    | resIoff => exact .inl rfl
    | resIlen => exact .inl rfl

end Sys2Proof.Machine
end

