-- ==== Sys2Proof/Laws/Commands.lean ====
section
/-! SUPPORT. What a command's success says: the checks it passed, and the sizes of its outputs. -/

namespace Sys2Proof.Machine

/-! ### The framer -/

/-- 1 <= padLen(U) <= 32 (41_framer_encode.md R121). -/
theorem padLen_bounds (u : Nat) : 1 ≤ padLen u ∧ padLen u ≤ 32 := by
  simp only [padLen]; omega

/-- L(U) mod 32 = 0 and L(U) >= U + 1 (41_framer_encode.md R121). -/
theorem paddedLen_facts (u : Nat) : paddedLen u % 32 = 0 ∧ u + 1 ≤ paddedLen u := by
  simp only [paddedLen, padLen]; omega

theorem padBytes_length (u : Nat) : (padBytes u).length = padLen u := by simp [padBytes]

theorem frame_length (n p i : List Byte) (h : n.length = 16) :
    (frame n p i).length = 20 + p.length + i.length := by
  simp only [frame, List.length_append, be32_length, h]

theorem envelope_length (n p i : List Byte) (h : n.length = 16) :
    (envelope n p i).length = paddedLen (20 + p.length + i.length) := by
  simp only [envelope, List.length_append, frame_length n p i h, padBytes_length, paddedLen]

/-! ### The validator and the parser -/

/-- What a successful `PadValidate` says (42_padding_validator.md R140, R142). -/
theorem padValidate_ok {d : List Byte} {t : Nat} (h : padValidate d = .ok t) :
    1 ≤ (d.getD (d.length - 1) 0).toNat ∧ (d.getD (d.length - 1) 0).toNat ≤ 32 ∧
    t = d.length - (d.getD (d.length - 1) 0).toNat ∧ 21 ≤ t ∧ t + 1 ≤ d.length := by
  simp only [padValidate] at h
  split at h
  · exact absurd h (by simp)
  · split at h
    · exact absurd h (by simp)
    · have := Except.ok.inj h; omega

/-- The three outcomes of `PadValidate`, by the last byte (42_padding_validator.md R140). -/
theorem padValidate_eq (d : List Byte) :
    let pad := (d.getD (d.length - 1) 0).toNat
    (pad < 1 ∨ 32 < pad → padValidate d = .error .invalidPadding) ∧
    (1 ≤ pad → pad ≤ 32 → d.length - pad ≤ 20 → padValidate d = .error .truncatedPlaintext) ∧
    (1 ≤ pad → pad ≤ 32 → 20 < d.length - pad → padValidate d = .ok (d.length - pad)) := by
  simp only [padValidate]
  refine ⟨?_, ?_, ?_⟩
  · intro h; rw [if_pos h]
  · intro h1 h2 h3; rw [if_neg (by omega), if_pos h3]
  · intro h1 h2 h3; rw [if_neg (by omega), if_neg (by omega)]

/-- What a successful `LenParse` says (43_length_parser.md R160). -/
theorem lenParse_ok {d : List Byte} {t n : Nat} (h : lenParse d t = .ok n) :
    n = beval (slice d 16 20) ∧ 20 + n ≤ t := by
  simp only [lenParse] at h
  split at h
  · exact absurd h (by simp)
  · have := Except.ok.inj h; omega

/-! ### The four commands -/

theorem exec_encode (s : State) : exec .encode s = .next (s.complete (encodeOutcome s)) := rfl
theorem exec_decode (s : State) : exec .decode s = .next (s.complete (decodeOutcome s)) := rfl
theorem exec_decodeXiv (s : State) : exec .decodeXiv s = .next (s.complete (decodeXivOutcome s)) := rfl
theorem exec_decodeLenient (s : State) :
    exec .decodeLenient s = .next (s.complete (decodeLenientOutcome s)) := rfl

/-- The plaintext ENCODE encrypts, `P` of 41_framer_encode.md R124. -/
def State.plaintext (s : State) : List Byte :=
  envelope s.nonceBytes (s.inBytes 0 s.plen.toNat) (s.inBytes s.plen.toNat s.ilen.toNat)

theorem State.plaintext_length (s : State) :
    s.plaintext.length = paddedLen (20 + s.plen.toNat + s.ilen.toNat) := by
  rw [State.plaintext, envelope_length _ _ _ (by simp)]; simp

/-- The checks a successful ENCODE has passed. -/
theorem encodeOutcome_checks {s : State} {o : Output} (h : encodeOutcome s = .ok o) :
    s.keyLen = 32 ∧ paddedLen (20 + s.plen.toNat + s.ilen.toNat) ≤ s.params.bufBytes := by
  simp only [encodeOutcome] at h
  split at h
  · exact absurd h (by simp)
  rename_i hk
  split at h
  · exact absurd h (by simp)
  · exact ⟨by simpa using hk, by omega⟩

/-- The outputs of a successful ENCODE. -/
theorem encodeOutcome_output {s : State} {o : Output} (h : encodeOutcome s = .ok o) :
    o = { bytes := cbcE s.keyBytes s.keyIv s.plaintext } := by
  simp only [encodeOutcome] at h
  split at h
  · exact absurd h (by simp)
  split at h
  · exact absurd h (by simp)
  · have ho := (Except.ok.inj h).symm
    rw [← State.plaintext] at ho
    exact ho

theorem State.ciphertext_length (s : State) :
    (cbcE s.keyBytes s.keyIv s.plaintext).length = paddedLen (20 + s.plen.toNat + s.ilen.toNat) := by
  have hl := s.plaintext_length
  have hm := (paddedLen_facts (20 + s.plen.toNat + s.ilen.toNat)).1
  rw [cbcE_length _ _ _ (by rw [hl]; omega), hl]

/-- What a successful ENCODE says (41_framer_encode.md R124). -/
theorem encodeOutcome_ok {s : State} {o : Output} (h : encodeOutcome s = .ok o) :
    s.keyLen = 32 ∧ paddedLen (20 + s.plen.toNat + s.ilen.toNat) ≤ s.params.bufBytes ∧
    o = { bytes := cbcE s.keyBytes s.keyIv s.plaintext } ∧
    o.bytes.length = paddedLen (20 + s.plen.toNat + s.ilen.toNat) :=
  ⟨(encodeOutcome_checks h).1, (encodeOutcome_checks h).2, encodeOutcome_output h, by
    rw [encodeOutcome_output h]; exact s.ciphertext_length⟩

/-- The decrypted buffer `D` of DECODE (44_decode.md R180, step 3). -/
def State.strictPlain (s : State) : List Byte :=
  cbcD s.keyBytes s.keyIv (s.inBytes 0 s.inLen.toNat)

/-- The decrypted buffer `D` of DECODE_XIV (44_decode.md R181). -/
def State.xivPlain (s : State) : List Byte :=
  cbcD s.keyBytes s.ivBytes (s.inBytes 0 s.inLen.toNat)

theorem State.strictPlain_length (s : State) (h : s.inLen.toNat % 16 = 0) :
    s.strictPlain.length = s.inLen.toNat := by
  rw [State.strictPlain, cbcD_length _ _ _ (by simpa using h)]; simp

theorem State.xivPlain_length (s : State) (h : s.inLen.toNat % 16 = 0) :
    s.xivPlain.length = s.inLen.toNat := by
  rw [State.xivPlain, cbcD_length _ _ _ (by simpa using h)]; simp

/-- What a successful DECODE says (44_decode.md R180). -/
theorem decodeOutcome_ok {s : State} {o : Output} (h : decodeOutcome s = .ok o) :
    s.inLen.toNat ≤ s.params.bufBytes ∧ 32 ≤ s.inLen.toNat ∧ s.inLen.toNat % 32 = 0 ∧ s.keyLen = 32 ∧
    ∃ t n, padValidate s.strictPlain = .ok t ∧ lenParse s.strictPlain t = .ok n ∧
      o = { bytes := s.strictPlain.take t, poff := some 20, plen := some n, ioff := some (20 + n),
            ilen := some (t - 20 - n) } ∧ o.bytes.length = t := by
  simp only [decodeOutcome] at h
  rw [← State.strictPlain] at h
  split at h
  · exact absurd h (by simp)
  rename_i h1
  split at h
  · exact absurd h (by simp)
  rename_i h2
  split at h
  · exact absurd h (by simp)
  rename_i h3
  split at h
  · exact absurd h (by simp)
  rename_i h4
  split at h
  · exact absurd h (by simp)
  rename_i t ht
  split at h
  · exact absurd h (by simp)
  rename_i n hn
  have ho := (Except.ok.inj h).symm
  refine ⟨by omega, by omega, by omega, by simpa using h4, t, n, ht, hn, ho, ?_⟩
  subst ho
  have := (padValidate_ok ht).2.2.2.2
  simp only [List.length_take]; omega

/-- What a successful DECODE_XIV says (44_decode.md R181). -/
theorem decodeXivOutcome_ok {s : State} {o : Output} (h : decodeXivOutcome s = .ok o) :
    s.inLen.toNat ≤ s.params.bufBytes ∧ 32 ≤ s.inLen.toNat ∧ s.inLen.toNat % 16 = 0 ∧ s.keyLen = 32 ∧
    ∃ t, padValidate s.xivPlain = .ok t ∧ o = { bytes := s.xivPlain.take t } ∧ o.bytes.length = t := by
  simp only [decodeXivOutcome] at h
  rw [← State.xivPlain] at h
  split at h
  · exact absurd h (by simp)
  rename_i h1
  split at h
  · exact absurd h (by simp)
  rename_i h2
  split at h
  · exact absurd h (by simp)
  rename_i h3
  split at h
  · exact absurd h (by simp)
  rename_i h4
  split at h
  · exact absurd h (by simp)
  rename_i t ht
  have ho := (Except.ok.inj h).symm
  refine ⟨by omega, by omega, by omega, by simpa using h4, t, ht, ho, ?_⟩
  subst ho
  have := (padValidate_ok ht).2.2.2.2
  simp only [List.length_take]; omega

/-! ### Base64 -/

/-- Two bit fields side by side, as a number. -/
theorem append_toNat {m n : Nat} (x : BitVec m) (y : BitVec n) :
    (x ++ y).toNat = 2 ^ n * x.toNat + y.toNat := by
  rw [BitVec.toNat_append, ← Nat.shiftLeft_add_eq_or_of_lt y.isLt, Nat.shiftLeft_eq, Nat.mul_comm]

/-- The 24 bits of a quantum, as a number (45_decode_lenient.md R211). -/
theorem quantumBits_toNat (v0 v1 v2 v3 : BitVec 6) :
    (quantumBits v0 v1 v2 v3).toNat =
      2 ^ 18 * v0.toNat + 2 ^ 12 * v1.toNat + 2 ^ 6 * v2.toNat + v3.toNat := by
  simp only [quantumBits, append_toNat]; omega

theorem fullQuantum_length {c0 c1 c2 c3 : Byte} {out : List Byte} (h : fullQuantum c0 c1 c2 c3 = some out) :
    out.length = 3 := by
  simp only [fullQuantum] at h
  split at h
  · have := Option.some.inj h; subst this; rfl
  · exact absurd h (by simp)

theorem lastQuantum_length {strict : Bool} {c0 c1 c2 c3 : Byte} {out : List Byte}
    (h : lastQuantum strict c0 c1 c2 c3 = some out) : 1 ≤ out.length ∧ out.length ≤ 3 := by
  simp only [lastQuantum] at h
  split at h
  · have := fullQuantum_length h; omega
  split at h
  · simp only [twoByteQuantum] at h
    split at h
    · split at h
      · exact absurd h (by simp)
      · have := Option.some.inj h; subst this; simp
    · exact absurd h (by simp)
  split at h
  · simp only [oneByteQuantum] at h
    split at h
    · split at h
      · exact absurd h (by simp)
      · have := Option.some.inj h; subst this; simp
    · exact absurd h (by simp)
  · exact absurd h (by simp)

/-- The decoding of q quanta has at most 3q bytes, and more than 3(q-1) (45_decode_lenient.md R211). -/
theorem b64Quanta_length (strict : Bool) (s out : List Byte) (h : b64Quanta strict s = some out) :
    s.length % 4 = 0 ∧ out.length ≤ 3 * (s.length / 4) ∧ 3 * (s.length / 4) ≤ out.length + 2 := by
  induction s using b64Quanta.induct (strict := strict) generalizing out with
  | case1 => simp only [b64Quanta] at h; have := Option.some.inj h; subst this; simp
  | case2 c0 c1 c2 c3 =>
    have := lastQuantum_length (by simpa only [b64Quanta] using h)
    rw [show [c0, c1, c2, c3].length = 4 from rfl]; omega
  | case3 c0 c1 c2 c3 rest hne o1 o2 h2 h1 ih =>
    have := ih o2 h2
    have := fullQuantum_length h1
    rw [b64Quanta.eq_3 _ _ _ _ _ _ hne, h1, h2] at h
    have ho := (Option.some.inj h).symm
    subst ho
    simp only [List.length_append, List.length_cons]; omega
  | case4 c0 c1 c2 c3 rest hne hno ih =>
    rw [b64Quanta.eq_3 _ _ _ _ _ _ hne] at h
    split at h
    · rename_i o1 o2 h1 h2
      exact (hno o1 o2 h1 h2).elim
    · exact absurd h (by simp)
  | case5 t h1 h2 h3 => rw [b64Quanta.eq_4 _ _ h1 h2 h3] at h; exact absurd h (by simp)

/-- A text decodes exactly when, without its line breaks, it is whole quanta that decode (R211, R212). -/
theorem b64Dec_eq_some (p : Params) (s out : List Byte) : b64Dec p s = some out ↔
    (b64Text p s).length % 4 = 0 ∧ b64Quanta p.b64StrictTail (b64Text p s) = some out := by
  simp only [b64Dec]
  split <;> simp_all

theorem b64Text_length_le (p : Params) (s : List Byte) : (b64Text p s).length ≤ s.length := by
  simp only [b64Text]; split
  · exact List.length_filter_le _ _
  · exact Nat.le_refl _

/-- A base64 decoding is no longer than its text. -/
theorem b64Dec_length_le {p : Params} {s out : List Byte} (h : b64Dec p s = some out) :
    out.length ≤ s.length := by
  simp only [b64Dec] at h
  split at h
  · exact absurd h (by simp)
  · have := b64Quanta_length _ _ _ h
    have := b64Text_length_le p s
    omega

/-- What a successful DECODE_LENIENT says (45_decode_lenient.md R214). -/
theorem decodeLenientOutcome_ok {s : State} {o : Output} (h : decodeLenientOutcome s = .ok o) :
    s.inLen.toNat ≤ s.params.bufBytes ∧ s.keyLen = 32 ∧
    ∃ b n, b64Dec s.params (s.inBytes 0 s.inLen.toNat) = some b ∧ 32 ≤ b.length ∧ b.length % 16 = 0 ∧
      n = beval (slice (cbcD s.keyBytes s.keyIv b) 16 20) ∧ 20 + n ≤ b.length ∧
      o = { bytes := slice (cbcD s.keyBytes s.keyIv b) 20 (20 + n), poff := some 0, plen := some n } ∧
      o.bytes.length = n := by
  simp only [decodeLenientOutcome] at h
  split at h
  · exact absurd h (by simp)
  rename_i h1
  split at h
  · exact absurd h (by simp)
  rename_i b hb
  split at h
  · exact absurd h (by simp)
  rename_i h2
  split at h
  · exact absurd h (by simp)
  rename_i h3
  split at h
  · exact absurd h (by simp)
  rename_i h4
  split at h
  · exact absurd h (by simp)
  rename_i h5
  have ho := (Except.ok.inj h).symm
  refine ⟨by omega, by simpa using h4, b, _, hb, by omega, by omega, rfl, by omega, ho, ?_⟩
  subst ho
  change (slice (cbcD s.keyBytes s.keyIv b) 20 _).length = _
  rw [slice_length]
  · omega
  · rw [cbcD_length _ _ _ (by omega)]; omega

end Sys2Proof.Machine
end

