-- ==== Sys2Proof/Laws/Encoding.lean ====
section
/-! SUPPORT. The fields of a BUS64 word (30_encoding.md R85), bit by bit and one by one, and the two masks
of R86 in terms of them. -/

namespace Sys2Proof

/-- Every bit of a BUS64 word, by its field. -/
theorem bus64Word_getLsbD (we : BitVec 1) (st : BitVec 4) (a : BitVec 18) (d : Word) (i : Nat) :
    (bus64Word we st a d).getLsbD i =
      if i < 32 then d.getLsbD i
      else if i < 50 then a.getLsbD (i - 32)
      else if i < 56 then false
      else if i < 60 then st.getLsbD (i - 56)
      else if i < 63 then false
      else we.getLsbD (i - 63) := by
  have e : i - 32 - 18 = i - 50 := by omega
  simp only [bus64Word, BitVec.getLsbD_append, BitVec.getLsbD_zero]
  by_cases h1 : i < 32
  · simp [h1]
  by_cases h2 : i < 50
  · simp [h1, h2, show i - 32 < 18 by omega]
  by_cases h3 : i < 56
  · simp [h1, h2, h3, show ¬ i - 32 < 18 by omega, show i - 32 - 18 < 6 by omega]
  by_cases h4 : i < 60
  · simp [h1, h2, h3, h4, show ¬ i - 32 < 18 by omega, show ¬ i - 32 - 18 < 6 by omega,
      show i - 32 - 18 - 6 = i - 56 by omega, show i - 56 < 4 by omega]
  by_cases h5 : i < 63
  · simp [h1, h2, h3, h4, h5, show ¬ i - 32 < 18 by omega, show ¬ i - 32 - 18 < 6 by omega,
      show ¬ i - 32 - 18 - 6 < 4 by omega, show i - 32 - 18 - 6 - 4 < 3 by omega]
  · simp [h1, h2, h3, h4, h5, show ¬ i - 32 < 18 by omega, show ¬ i - 32 - 18 < 6 by omega,
      show ¬ i - 32 - 18 - 6 < 4 by omega, show ¬ i - 32 - 18 - 6 - 4 < 3 by omega,
      show i - 32 - 18 - 6 - 4 - 3 = i - 63 by omega]

/-- The ADDR field, bits [49:32]. -/
theorem bus64Word_addr (we : BitVec 1) (st : BitVec 4) (a : BitVec 18) (d : Word) :
    (bus64Word we st a d).extractLsb' 32 18 = a := by
  apply BitVec.eq_of_getLsbD_eq
  intro i hi
  simp only [BitVec.getLsbD_extractLsb', hi, decide_true, Bool.true_and, bus64Word_getLsbD]
  rw [if_neg (by omega), if_pos (by omega), Nat.add_sub_cancel_left]

/-- The DATA field, bits [31:0]. -/
theorem bus64Word_data (we : BitVec 1) (st : BitVec 4) (a : BitVec 18) (d : Word) :
    (bus64Word we st a d).extractLsb' 0 32 = d := by
  apply BitVec.eq_of_getLsbD_eq
  intro i hi
  simp only [BitVec.getLsbD_extractLsb', hi, decide_true, Bool.true_and, bus64Word_getLsbD, Nat.zero_add,
    if_true]

/-- The STRB field, bits [59:56]. -/
theorem bus64Word_strb (we : BitVec 1) (st : BitVec 4) (a : BitVec 18) (d : Word) :
    (bus64Word we st a d).extractLsb' 56 4 = st := by
  apply BitVec.eq_of_getLsbD_eq
  intro i hi
  simp only [BitVec.getLsbD_extractLsb', hi, decide_true, Bool.true_and, bus64Word_getLsbD]
  rw [if_neg (by omega), if_neg (by omega), if_neg (by omega), if_pos (by omega), Nat.add_sub_cancel_left]

/-- The RD mask of R86 keeps nothing of an RD word. -/
theorem bus64Word_rd_masked (a : BitVec 18) :
    bus64Word 0 0 a 0 &&& 0xFFFC0000FFFFFFFF#64 = 0#64 := by
  apply BitVec.eq_of_getLsbD_eq
  intro i hi
  rw [BitVec.getLsbD_and, bus64Word_getLsbD]
  interval_cases i <;> simp

/-- The RD mask of R86 keeps bit 63 of a WR word. -/
theorem bus64Word_wr_rdMasked (a : BitVec 18) (d : Word) (st : BitVec 4) :
    bus64Word 1 st a d &&& 0xFFFC0000FFFFFFFF#64 ≠ 0#64 := by
  intro h
  have := congrArg (fun w => w.getLsbD 63) h
  rw [BitVec.getLsbD_and, bus64Word_getLsbD] at this
  simp at this

/-- The WR mask of R86 keeps exactly WE of a WR word. -/
theorem bus64Word_wr_masked (a : BitVec 18) (d : Word) (st : BitVec 4) :
    bus64Word 1 st a d &&& 0xF0FC000000000000#64 = 0x8000000000000000#64 := by
  apply BitVec.eq_of_getLsbD_eq
  intro i hi
  rw [BitVec.getLsbD_and, bus64Word_getLsbD]
  interval_cases i <;> simp

/-- The WR mask of R86 keeps nothing of an RD word. -/
theorem bus64Word_rd_wrMasked (a : BitVec 18) :
    bus64Word 0 0 a 0 &&& 0xF0FC000000000000#64 = 0#64 := by
  apply BitVec.eq_of_getLsbD_eq
  intro i hi
  rw [BitVec.getLsbD_and, bus64Word_getLsbD]
  interval_cases i <;> simp

end Sys2Proof
end

