-- ==== Sys2Proof/Laws/PerInstr.lean ====
section
/-! SUPPORT. The per-instruction family TableRow: the encoded word of an instruction matches its own row
of the opcode table and no other. -/

namespace Sys2Proof.Laws.TableRow

/-- The rows the word of `i` matches are exactly those of its mnemonic. -/
def Statement (i : Instr) : Prop :=
  ∀ r ∈ opcodeTable, r.matches (Sys2Proof.encode i) = true ↔ r.mnemonic = mnemonic i

/-- A masked BUS64 word, as a number. -/
theorem masked_toNat (w m p : BitVec 64) : (w.toNat &&& m.toNat == p.toNat) = (w &&& m == p) := by
  rw [← BitVec.toNat_and, Bool.eq_iff_iff, beq_iff_eq, beq_iff_eq, BitVec.toNat_inj]

theorem rd (addr : BitVec 18) : Statement (.rd addr) := by
  have h1 := masked_toNat (bus64Word 0 0 addr 0) 0xFFFC0000FFFFFFFF#64 0#64
  have h2 := masked_toNat (bus64Word 0 0 addr 0) 0xF0FC000000000000#64 0x8000000000000000#64
  rw [bus64Word_rd_masked] at h1
  rw [bus64Word_rd_wrMasked] at h2
  intro r hr
  simp only [opcodeTable, List.mem_cons, List.not_mem_nil, or_false] at hr
  rcases hr with rfl | rfl | rfl | rfl | rfl | rfl
  · exact iff_of_true (by simpa [OpcodeRow.matches, Sys2Proof.encode, CodeWord.bits, CodeWord.value] using h1)
      rfl
  · refine iff_of_false ?_ (by simp [mnemonic])
    simpa [OpcodeRow.matches, Sys2Proof.encode, CodeWord.bits, CodeWord.value] using h2
  all_goals
    refine iff_of_false ?_ (by simp [mnemonic])
    simp [OpcodeRow.matches, Sys2Proof.encode, CodeWord.bits]

theorem wr (addr : BitVec 18) (data : Word) (strb : BitVec 4) : Statement (.wr addr data strb) := by
  have h1 := masked_toNat (bus64Word 1 strb addr data) 0xFFFC0000FFFFFFFF#64 0#64
  have h2 := masked_toNat (bus64Word 1 strb addr data) 0xF0FC000000000000#64 0x8000000000000000#64
  rw [beq_eq_false_iff_ne.mpr (bus64Word_wr_rdMasked addr data strb)] at h1
  rw [bus64Word_wr_masked] at h2
  intro r hr
  simp only [opcodeTable, List.mem_cons, List.not_mem_nil, or_false] at hr
  rcases hr with rfl | rfl | rfl | rfl | rfl | rfl
  · refine iff_of_false ?_ (by simp [mnemonic])
    simpa [OpcodeRow.matches, Sys2Proof.encode, CodeWord.bits, CodeWord.value] using h1
  · exact iff_of_true (by simpa [OpcodeRow.matches, Sys2Proof.encode, CodeWord.bits, CodeWord.value] using h2)
      rfl
  all_goals
    refine iff_of_false ?_ (by simp [mnemonic])
    simp [OpcodeRow.matches, Sys2Proof.encode, CodeWord.bits]

theorem encode : Statement .encode := by unfold Statement; decide
theorem decode : Statement .decode := by unfold Statement; decide
theorem decodeXiv : Statement .decodeXiv := by unfold Statement; decide
theorem decodeLenient : Statement .decodeLenient := by unfold Statement; decide

end Sys2Proof.Laws.TableRow
end

