-- ==== Sys2Proof/Laws/Step.lean ====
section
/-! SUPPORT. What one step can do: who moves, and the five shapes of a next state. -/

namespace Sys2Proof.Machine

/-- Every instruction answers a next state. -/
theorem exec_next (i : Instr) (s : State) : ∃ t, exec i s = .next t := by
  cases i <;> exact ⟨_, rfl⟩

/-! ### Who moves -/

/-- The engine moves exactly when it is BUSY and no host step comes first. -/
theorem turn_engine_iff (s : State) :
    s.turn = .engine ↔ s.fsm = .busy ∧ (s.wait = 0 ∨ s.inputs = []) := by
  simp only [State.turn]
  split <;> simp_all

/-- Nothing moves exactly when the engine is IDLE and the host has nothing left to send. -/
theorem turn_quiet_iff (s : State) : s.turn = .quiet ↔ s.fsm = .idle ∧ s.inputs = [] := by
  simp only [State.turn]
  split <;> simp_all

/-- The host moves exactly when it has an event and the engine's step is not due. -/
theorem turn_host_iff (s : State) (e : Event) (rest : List Event) :
    s.turn = .host e rest ↔ s.inputs = e :: rest ∧ (s.fsm = .idle ∨ s.wait ≠ 0) := by
  simp only [State.turn]
  split <;> simp_all

/-! ### A step by its turn -/

theorem step_of_quiet {s : State} (h : s.turn = .quiet) : step s = .next s := by
  simp only [step, fetch, h]

/-- A hardware reset. -/
theorem step_of_reset {s : State} {rest : List Event} (h : s.turn = .host .reset rest) :
    step s = .next ({ s with inputs := rest, wait := s.wait - 1 } : State).hardReset := by
  simp only [step, fetch, h, fetchEvent]

/-- A transaction runs its decoded instruction. -/
theorem step_of_txn {s : State} {w : BitVec 64} {rest : List Event} {i : Instr}
    (h : s.turn = .host (.txn w) rest) (hd : decodeBus w = .ok i) :
    step s = exec i { s with inputs := rest, wait := s.wait - 1 } := by
  simp only [step, fetch, h, fetchEvent, hd]

/-- A word that is no transaction is refused, naming it. -/
theorem step_of_notATransaction {s : State} {w : BitVec 64} {rest : List Event} {e : DecodeError}
    (h : s.turn = .host (.txn w) rest) (hd : decodeBus w = .error e) :
    step s = .refused (.notATransaction w) := by
  simp only [step, fetch, h, fetchEvent, hd]

/-- The engine runs the command in CMDW. -/
theorem step_of_command {s : State} {i : Instr} (h : s.turn = .engine) (hd : decodeCmd s.cmdw = .ok i) :
    step s = exec i { s with wait := 0 } := by
  simp only [step, fetch, h, fetchCommand, hd]

/-- The engine completes an illegal word with IllegalCommand. -/
theorem step_of_illegal {s : State} {e : DecodeError} (h : s.turn = .engine)
    (hd : decodeCmd s.cmdw = .error e) :
    step s = .next (({ s with wait := 0 } : State).complete (.error .illegalCommand)) := by
  simp only [step, fetch, h, fetchCommand, hd]

/-! ### The outcome of the command in flight -/

/-- The outcome of a command word (60_exceptions.md R274): the command's own for a legal word,
IllegalCommand for an illegal one. -/
def commandOutcome (w : Word) (s : State) : Except Err Output :=
  match decodeCmd w with
  | .ok .encode => encodeOutcome s
  | .ok .decode => decodeOutcome s
  | .ok .decodeXiv => decodeXivOutcome s
  | .ok .decodeLenient => decodeLenientOutcome s
  | _ => .error .illegalCommand

/-- A command word decodes to a command or to an illegal word, never to a transaction. -/
theorem decodeCmd_cases (w : Word) :
    decodeCmd w = .ok .encode ∨ decodeCmd w = .ok .decode ∨ decodeCmd w = .ok .decodeXiv ∨
    decodeCmd w = .ok .decodeLenient ∨ decodeCmd w = .error (.illegalCommand w) := by
  simp only [decodeCmd]
  repeat' split
  all_goals simp

/-- The engine's step is the completion with the outcome of the word in CMDW. -/
theorem step_of_engine {s : State} (h : s.turn = .engine) :
    step s = .next (({ s with wait := 0 } : State).complete
      (commandOutcome s.cmdw { s with wait := 0 })) := by
  rcases decodeCmd_cases s.cmdw with hd | hd | hd | hd | hd
  · rw [step_of_command h hd, exec_encode]; simp only [commandOutcome, hd]
  · rw [step_of_command h hd, exec_decode]; simp only [commandOutcome, hd]
  · rw [step_of_command h hd, exec_decodeXiv]; simp only [commandOutcome, hd]
  · rw [step_of_command h hd, exec_decodeLenient]; simp only [commandOutcome, hd]
  · rw [step_of_illegal h hd]; simp only [commandOutcome, hd]

/-- A successful command returns no more bytes than a buffer holds. -/
theorem commandOutcome_length {s : State} {w : Word} {o : Output} (h : commandOutcome w s = .ok o) :
    o.bytes.length ≤ s.params.bufBytes := by
  simp only [commandOutcome] at h
  split at h
  · have := encodeOutcome_ok h; omega
  · obtain ⟨h1, h2, h3, -, t, n, hp, -, -, ho⟩ := decodeOutcome_ok h
    have := padValidate_ok hp
    rw [s.strictPlain_length (by omega)] at this; omega
  · obtain ⟨h1, h2, h3, -, t, hp, -, ho⟩ := decodeXivOutcome_ok h
    have := padValidate_ok hp
    rw [s.xivPlain_length (by omega)] at this; omega
  · obtain ⟨h1, -, b, n, hb, -, -, -, hn, -, ho⟩ := decodeLenientOutcome_ok h
    have := b64Dec_length_le hb
    rw [State.inBytes_length] at this; omega
  · exact absurd h (by simp)

/-- The result registers a successful command writes come in pairs, an offset and a length, that lie in
what it returns (10_state.md R38 to R41). -/
theorem commandOutcome_slices {s : State} {w : Word} {o : Output} (h : commandOutcome w s = .ok o) :
    ((o.poff = none ∧ o.plen = none) ∨
      ∃ x y, o.poff = some x ∧ o.plen = some y ∧ x + y ≤ o.bytes.length) ∧
    ((o.ioff = none ∧ o.ilen = none) ∨
      ∃ x y, o.ioff = some x ∧ o.ilen = some y ∧ x + y ≤ o.bytes.length) := by
  simp only [commandOutcome] at h
  split at h
  · rw [(encodeOutcome_ok h).2.2.1]; exact ⟨.inl ⟨rfl, rfl⟩, .inl ⟨rfl, rfl⟩⟩
  · obtain ⟨-, -, -, -, t, n, -, hn, ho, hl⟩ := decodeOutcome_ok h
    have := lenParse_ok hn
    rw [hl, ho]
    refine ⟨.inr ⟨_, _, rfl, rfl, ?_⟩, .inr ⟨_, _, rfl, rfl, ?_⟩⟩ <;> omega
  · obtain ⟨-, -, -, -, t, -, ho, -⟩ := decodeXivOutcome_ok h
    rw [ho]; exact ⟨.inl ⟨rfl, rfl⟩, .inl ⟨rfl, rfl⟩⟩
  · obtain ⟨-, -, b, n, -, -, -, -, -, ho, hl⟩ := decodeLenientOutcome_ok h
    rw [hl, ho]
    exact ⟨.inr ⟨_, _, rfl, rfl, by omega⟩, .inl ⟨rfl, rfl⟩⟩
  · exact absurd h (by simp)

/-- A transaction word decodes to a transaction. -/
theorem decodeBus_cases (w : BitVec 64) :
    (∃ a, decodeBus w = .ok (.rd a)) ∨ (∃ a d st, decodeBus w = .ok (.wr a d st)) ∨
    decodeBus w = .error (.notATransaction w) := by
  simp only [decodeBus]
  split
  · exact .inl ⟨_, rfl⟩
  split
  · exact .inr (.inl ⟨_, _, _, rfl⟩)
  · exact .inr (.inr rfl)

/-! ### Runs -/

/-- A run whose first step answers a next state goes on from it. -/
theorem run_succ {s t : State} (k : Nat) (h : step s = .next t) :
    Sys2Proof.core.run (k + 1) s = Sys2Proof.core.run k t := by
  have h' : Sys2Proof.core.step s = .next t := h
  simp only [Host.Core.run, h']

/-- The EVF receives exactly the words that decode (30_encoding.md R86). -/
theorem isTransaction_iff (w : BitVec 64) :
    isTransaction w = false ↔ decodeBus w = .error (.notATransaction w) := by
  simp only [isTransaction, decodeBus]
  split
  · simp_all
  split <;> simp_all

/-! ### The shapes of a step -/

/-- Everything a step that answers a next state can do. -/
theorem step_cases {s t : State} (h : step s = .next t) :
    (s.turn = .quiet ∧ t = s) ∨
    (s.turn = .engine ∧
      t = ({ s with wait := 0 } : State).complete (commandOutcome s.cmdw { s with wait := 0 })) ∨
    (∃ rest, s.turn = .host .reset rest ∧
      t = ({ s with inputs := rest, wait := s.wait - 1 } : State).hardReset) ∨
    (∃ w rest a, s.turn = .host (.txn w) rest ∧ decodeBus w = .ok (.rd a) ∧
      t = ({ s with inputs := rest, wait := s.wait - 1 } : State).respond
        (({ s with inputs := rest, wait := s.wait - 1 } : State).busRead a)) ∨
    (∃ w rest a d st, s.turn = .host (.txn w) rest ∧ decodeBus w = .ok (.wr a d st) ∧
      t = ({ s with inputs := rest, wait := s.wait - 1 } : State).busWrite a d st) := by
  cases ht : s.turn with
  | quiet =>
    rw [step_of_quiet ht] at h
    injection h with h
    exact .inl ⟨rfl, h.symm⟩
  | engine =>
    rw [step_of_engine ht] at h
    injection h with h
    exact .inr (.inl ⟨rfl, h.symm⟩)
  | host e rest =>
    cases e with
    | reset =>
      rw [step_of_reset ht] at h
      injection h with h
      exact .inr (.inr (.inl ⟨rest, rfl, h.symm⟩))
    | txn w =>
      rcases decodeBus_cases w with ⟨a, hd⟩ | ⟨a, d, st, hd⟩ | hd
      · rw [step_of_txn ht hd] at h
        injection h with h
        exact .inr (.inr (.inr (.inl ⟨w, rest, a, rfl, hd, h.symm⟩)))
      · rw [step_of_txn ht hd] at h
        injection h with h
        exact .inr (.inr (.inr (.inr ⟨w, rest, a, d, st, rfl, hd, h.symm⟩)))
      · rw [step_of_notATransaction ht hd] at h
        cases h

end Sys2Proof.Machine
end

