-- ==== Sys2Proof/Tests/Slice0.lean ====
section
/-! SUPPORT. The model's own tests, with expected values from the spec (95_test_vectors.md and the worked
examples of the rules), and for every obligation with hypotheses a witness that meets them. -/

open Sys2Proof Sys2Proof.Machine

namespace Sys2Proof.Tests

/-! ### Helpers -/

/-- Bytes from hexadecimal. -/
def hex (s : String) : List Byte := (readHexBytes s.toList).getD []

/-- The ASCII codes of a text. -/
def text (s : String) : List Byte := s.toList.map fun c => BitVec.ofNat 8 c.toNat

/-- Reset, then KEY_LEN = 32 with the all-zero key of the vectors (K0), NONCE = 16 bytes 0x01 (N1), and a
text in IN_BUF with IN_LEN its length.  The next command completes after two host steps. -/
def loaded (s : List Byte) : State :=
  { State.reset with
    keyLen := 32
    nonce := Vector.replicate 4 0x01010101
    inLen := BitVec.ofNat 32 s.length
    inBuf := Memory.writeBytes [] 0 s
    latencies := [2] }

/-- The same state right after the issue of a command word, with no host event left. -/
def issued (w : Word) (s : List Byte) : State := (loaded s).placeCommand w

/-- ERRCODE, OUT_LEN, RES_POFF, RES_PLEN, RES_IOFF, RES_ILEN and OUT_BUF[0:OUT_LEN) after an instruction. -/
def outcome (i : Instr) (s : State) : List Nat × List Byte :=
  match exec i s with
  | .next t => ([t.errcode.toNat, t.outLen.toNat, t.resPoff.toNat, t.resPlen.toNat, t.resIoff.toNat,
      t.resIlen.toNat], t.outBuf.readBytes 0 t.outLen.toNat)
  | .fault _ => ([], [])
  | .refused _ => ([], [])

/-- What a run of WRs and RDs returns to the host. -/
def returned (ws : List Instr) (s : State) : List Word :=
  match execList ws s with
  | .next t => t.responses
  | .fault _ => []
  | .refused _ => []

/-- Ciphertexts of 95_test_vectors.md 2.2 to 2.4. -/
def vA1 : List Byte := hex "7bc3026cd737103e62902bcd18fb01639a9fa00128f2dea8cf622ae8edca95e9"
def vP1 : List Byte := hex "7bc3026cd737103e62902bcd18fb0163c16b2529ec50d06d70347e1a72238ac9"
def vP2 : List Byte := hex "7bc3026cd737103e62902bcd18fb01633ffa796e03ff3645f3b670ef67eb1d78"
def vP4 : List Byte := hex "7bc3026cd737103e62902bcd18fb016363442fb5e025573fdd9765699c041851"
def vP5 : List Byte := hex "7bc3026cd737103e62902bcd18fb016390864b0a86addccb52e19f2a7cfdf875"
def vN2 : List Byte := hex "7bc3026cd737103e62902bcd18fb0163efa8776a0902860a97f3e3764bbe9fde"
def vN4 : List Byte := hex "7bc3026cd737103e62902bcd18fb0163cbf81f4167478ed7fa0a28effd7e79cc"

/-- Base64 texts of 95_test_vectors.md 2.8. -/
def vL1 : List Byte := text "e8MCbNc3ED5ikCvNGPsBY5qfoAEo8t6oz2Iq6O3Klek="
def vL5 : List Byte := text "e8MCbNc3ED5ikCvNGPsBY7XxCj1eNZ2UlTIDnTI72Rs="
def vL6 : List Byte := text "e8MCbNc3ED5ikCvNGPsBYynivQ2FUDSdjBarYsPFg7U="
def vL8 : List Byte := text "e8MCbNc3ED5ikCvNGPsBYw=="
def vL9 : List Byte := text "e8MCbNc3ED5ikCvNGPsBY5qfoAEo8t6oz2Iq6O3Klel7wwJs1zcQPg=="

/-! ### Well-formedness: the checks refuse -/

/-- 00_scope.md R8: a multiple of 32 between 64 and 65536. -/
theorem test_params_wf :
    ({} : Params).wf ∧ ({ bufBytes := 64 } : Params).wf ∧ ({ bufBytes := 65536 } : Params).wf ∧
    ¬ ({ bufBytes := 100 } : Params).wf ∧ ¬ ({ bufBytes := 32 } : Params).wf ∧
    ¬ ({ bufBytes := 65568 } : Params).wf := by
  simp only [Params.wf]; decide

/-- 95_test_vectors.md V-W1 to V-W5 are transactions; each of V-W6 to V-W9 makes a listing ill-formed. -/
theorem test_listing_wf :
    listingWf [0x8F00000C00000001, 0x0000001000000000, 0x8301000800003332, 0x800000600000FFFF,
      0x0003FFFC00000000] = true ∧
    listingWf [0x8F00000C00000001, 0x4F00000C00000001] = false ∧
    listingWf [0x0000001000000001] = false ∧ listingWf [0x0100001000000000] = false ∧
    listingWf [0x8F04000C00000001] = false := by decide

/-- 30_encoding.md R89: a key of 31 bytes, a nonce of 17, an IV of 15 and a FILL at offset 2 are
ill-formed; so is a FILL past its window. -/
theorem test_pseudo_wf :
    (Pseudo.loadKey (List.replicate 32 0)).wf = true ∧ (Pseudo.fill 0xFFFC [1, 2, 3, 4]).wf = true ∧
    (Pseudo.loadKey (List.replicate 31 0)).wf = false ∧
    (Pseudo.loadNonce (List.replicate 17 0)).wf = false ∧ (Pseudo.loadIv (List.replicate 15 0)).wf = false ∧
    (Pseudo.fill 2 [1]).wf = false ∧ (Pseudo.fill 0xFFFC [1, 2, 3, 4, 5]).wf = false ∧
    (Pseudo.dump 0x10001).wf = false := by decide

/-- 30_encoding.md R86: the events a host may send. -/
theorem test_event_wf :
    (Event.txn 0x0000001000000000).wf = true ∧ Event.reset.wf = true ∧
    (Event.txn 0x4F00000C00000001).wf = false := by decide

/-! ### Decoding: each constructor's word, field by field from 30_encoding.md R85 and R82 -/

/-- WE = 0, Z0 = 000, STRB = 0000, Z1 = 000000, ADDR = 11 1111 1111 1111 1100, DATA = 0. -/
theorem test_decode_rd :
    decode (.bus64 0b0000000000000011111111111111110000000000000000000000000000000000#64)
      = .ok (.rd 0x3FFFC) := by decide

/-- WE = 1, Z0 = 000, STRB = 0011, Z1 = 000000, ADDR = 01 0000 0000 0000 1000, DATA = 0x00003332. -/
theorem test_decode_wr :
    decode (.bus64 0b1000001100000001000000000000100000000000000000000011001100110010#64)
      = .ok (.wr 0x10008 0x00003332 0x3) := by decide

/-- RSV = 0 and OP = 0001, 0010, 0011, 0100. -/
theorem test_decode_commands :
    decode (.cmd32 0b00000000000000000000000000000001#32) = .ok .encode ∧
    decode (.cmd32 0b00000000000000000000000000000010#32) = .ok .decode ∧
    decode (.cmd32 0b00000000000000000000000000000011#32) = .ok .decodeXiv ∧
    decode (.cmd32 0b00000000000000000000000000000100#32) = .ok .decodeLenient := by decide

/-- 30_encoding.md R83: OP = 0 and 5 to 15, and RSV not 0, are illegal. -/
theorem test_decode_illegal :
    decode (.cmd32 0x00000000) = .error (.illegalCommand 0x00000000) ∧
    decode (.cmd32 0x00000005) = .error (.illegalCommand 0x00000005) ∧
    decode (.cmd32 0x0000000F) = .error (.illegalCommand 0x0000000F) ∧
    decode (.cmd32 0x00000012) = .error (.illegalCommand 0x00000012) ∧
    decode (.cmd32 0x80000001) = .error (.illegalCommand 0x80000001) := by decide

/-! ### RD and WR -/

/-- 46_host_bus.md R241: after reset `RD IDENT`, `RD CAP` and `RD STATUS`; RD(0x00013) reads STATUS; a
buffer word has its bytes in lane order, 0 at BUF_BYTES and beyond. -/
theorem test_rd :
    returned [.rd 0x00000, .rd 0x00004, .rd 0x00010] State.reset = [0x454E5631, 4096, 0] ∧
    returned [.rd 0x00013, .rd 0x10000, .rd 0x0000C, .rd 0x00018, .rd 0x00020]
      { loaded (text "hellowx123") with done := true, errcode := 3, ovr := true, cmdw := 7 } =
      [0xE, 0x6C6C6568, 0, 32, 0] ∧
    returned [.rd 0x10FFC, .rd 0x11000] { State.reset with inBuf := [(4095, 9), (4096, 8)] } =
      [0x09000000, 0] := by decide

/-- 95_test_vectors.md V-B4 and V-B5. -/
theorem test_wr :
    returned [.wr 0x60 5 0x1, .rd 0x60, .wr 0x60 5 0x0, .rd 0x60, .wr 0x60 5 0xF, .rd 0x60] State.reset =
      [0, 0, 5] ∧
    returned [.wr 0x10000 0xAABBCCDD 0x5, .rd 0x10000, .wr 0x10002 0x11223344 0x2, .rd 0x10000]
      State.reset = [0x00BB00DD, 0x00BB33DD] := by decide

/-- 95_test_vectors.md V-B8: a dropped write sets OVR, W1C clears it, and the illegal word completes with
IllegalCommand. -/
theorem test_wr_while_busy :
    returned [.wr 0x0C 0 0xF, .wr 0x60 7 0xF, .rd 0x10, .rd 0x60, .wr 0x10 8 0xF, .rd 0x10] (loaded []) =
      [9, 0, 1] ∧
    (match step (issued 0 []) with
      | .next t => decide (t = { issued 0 [] with
          fsm := .idle, done := true, errcode := 8, keyLen := 0, key := Vector.replicate 8 0 })
      | .fault _ => false
      | .refused _ => false) = true := by
  decide

/-! ### The four commands -/

/-- V-A1: scenario A. -/
theorem test_encode :
    outcome .encode { issued 1 (text "hellowx123") with plen := 5, ilen := 5 } = ([0, 32, 0, 0, 0, 0], vA1) := by
  decide +kernel

/-- V-E4, V-E8, V-E9 and V-E10. -/
theorem test_encode_errors :
    outcome .encode { issued 1 [] with keyLen := 16, plen := 5 } = ([1, 0, 0, 0, 0, 0], []) ∧
    outcome .encode { issued 1 [] with plen := 4076 } = ([9, 0, 0, 0, 0, 0], []) ∧
    outcome .encode { issued 1 [] with plen := 0xFFFFFFFF, ilen := 0xFFFFFFFF } =
      ([9, 0, 0, 0, 0, 0], []) ∧
    outcome .encode { issued 1 [] with keyLen := 0, plen := 0xFFFFFFFF } = ([1, 0, 0, 0, 0, 0], []) := by
  decide

/-- V-N4: the boundary of the length check. -/
theorem test_decode :
    outcome .decode (issued 2 vN4) =
      ([0, 30, 20, 10, 30, 0], hex "010101010101010101010101010101010000000a68656c6c6f7778313233") := by
  decide +kernel

/-- V-P1, V-P5, V-N2, and V-D8 (the length error wins over the key). -/
theorem test_decode_errors :
    outcome .decode (issued 2 vP1) = ([4, 0, 0, 0, 0, 0], []) ∧
    outcome .decode (issued 2 vP5) = ([5, 0, 0, 0, 0, 0], []) ∧
    outcome .decode (issued 2 vN2) = ([6, 0, 0, 0, 0, 0], []) ∧
    outcome .decode { issued 2 (vA1.take 31) with keyLen := 0 } = ([2, 0, 0, 0, 0, 0], []) := by
  decide +kernel

/-- V-X2: the IV changes block 0 only, and the four prefix bytes are returned. -/
theorem test_decodeXiv :
    outcome .decodeXiv { issued 3 vA1 with iv := Vector.replicate 4 0x01010101 } =
      ([0, 30, 0, 0, 0, 0], hex "000000000000000000000000000000000000000568656c6c6f7778313233") := by
  decide +kernel

/-- V-X8 and V-X9. -/
theorem test_decodeXiv_errors :
    outcome .decodeXiv (issued 3 vP2) = ([4, 0, 0, 0, 0, 0], []) ∧
    outcome .decodeXiv (issued 3 (vA1.take 16)) = ([2, 0, 0, 0, 0, 0], []) := by
  decide +kernel

/-- V-L5: the payload runs into the pad. -/
theorem test_decodeLenient :
    outcome .decodeLenient (issued 4 vL5) = ([0, 12, 0, 12, 0, 0], hex "68656c6c6f77783132330202") := by
  decide +kernel

/-- V-L2, V-L6, V-L8, V-L9. -/
theorem test_decodeLenient_errors :
    outcome .decodeLenient (issued 4 (vL1.take 43)) = ([7, 0, 0, 0, 0, 0], []) ∧
    outcome .decodeLenient (issued 4 vL6) = ([6, 0, 0, 0, 0, 0], []) ∧
    outcome .decodeLenient (issued 4 vL8) = ([2, 0, 0, 0, 0, 0], []) ∧
    outcome .decodeLenient (issued 4 vL9) = ([3, 0, 0, 0, 0, 0], []) := by
  decide +kernel

/-- V-B64-4, -6, -7, -8, -11, -12, -14 and -15. -/
theorem test_base64 :
    b64Dec {} (text "TQ==") = some [0x4D] ∧ b64Dec { b64StrictTail := true } (text "TR==") = none ∧
    b64Dec {} (text "TWF=") = some [0x4D, 0x61] ∧ b64Dec { b64StrictTail := true } (text "TWF=") = none ∧
    b64Dec {} (text "TW=u") = none ∧ b64Dec {} (text "TQ==TWFu") = none ∧
    b64Dec {} (text "TWFu" ++ [0x0D, 0x0A]) = none ∧
    b64Dec { b64IgnoreCrlf := true } (text "TWFu" ++ [0x0D, 0x0A]) = some [0x4D, 0x61, 0x6E] := by
  decide +kernel

/-! ### Resets, the interrupt, and the notation -/

/-- V-B13: a soft reset abandons the command and clears IRQ_EN whatever DATA[0] is. -/
theorem test_soft_reset :
    (match execList [.wr 0x08 1 0xF, .wr 0x60 9 0xF, .wr 0x10000 0x44332211 0xF, .wr 0x0C 1 0xF,
        .wr 0x08 3 0xF, .rd 0x10, .rd 0x08, .rd 0x60, .rd 0x10000] (loaded []) with
      | .next t => decide (t.responses = [0, 0, 0, 0] ∧ t.fsm = .idle ∧ t.keyLen = 0)
      | .fault _ => false
      | .refused _ => false) = true := by decide

/-- 60_exceptions.md R280: an illegal word's completion raises IRQ; the acknowledge lowers it. -/
theorem test_irq :
    (match step { issued 0 [] with irqEn := true, inputs := [.txn 0x8F00001000000002] } with
      | .next t => t.irq && (match step t with
        | .next u => !u.irq && u.errcode == 8
        | .fault _ => false
        | .refused _ => false)
      | .fault _ => false
      | .refused _ => false) = true := by decide

/-- 30_encoding.md R85, R88 and R89: lines and their words. -/
theorem test_lines :
    (readLine 0 "start: WR CMD, 0x1 ; go".toList).map Line.instrs = some [.wr 0x0000C 1 0xF] ∧
    (readLine 0 "RD STATUS => 6".toList).map (fun l => asEvents l.instrs) =
      some [.txn 0x0000001000000000] ∧
    (readLine 0 "WR IN+8, 13106, 3".toList).map (fun l => asEvents l.instrs) =
      some [.txn 0x8301000800003332] ∧
    (readLine 1 "WAIT".toList).map Line.instrs = some [.rd 0x00010, .rd 0x00010] ∧
    (readLine 0 "FILL IN+4, 0102030405".toList).map Line.instrs =
      some [.wr 0x10004 0x04030201 0xF, .wr 0x10008 0x00000005 0x1] ∧
    readLine 0 "FILL IN+2, 01".toList = none := by decide +kernel

/-- The conventions of log 16: separators, a `;` in a quoted text, an unclosed one, and labels. -/
theorem test_line_conventions :
    readLine 0 "WR CMD 0x1".toList = readLine 0 "WR CMD, 0x1".toList ∧
    readLine 0 ['F', 'I', 'L', 'L', ' ', 'I', 'N', '+', '0', ',', '"', 'a', ';', 'b', '"'] =
      some (.pseudo (.fill 0 (text "a;b"))) ∧
    readLine 0 ['F', 'I', 'L', 'L', ' ', 'I', 'N', '+', '0', ',', '"', 'a'] =
      some (.pseudo (.fill 0 (text "a"))) ∧
    (readLine 0 "w: RD STATUS".toList).map Line.instrs = some [.rd 0x00010] ∧
    readLine 0 "w:RD STATUS".toList = none := by decide +kernel

/-! ### Witnesses

For each obligation with hypotheses, a concrete state and operands that meet all of them together, clause
by clause where it has several, at the ends of the ranges. -/

/-- The state a step answers. -/
def stepped (s : State) : State :=
  match step s with
  | .next t => t
  | .fault _ => s
  | .refused _ => s

/-- The step answers a next state. -/
def steps (s : State) : Bool :=
  match step s with
  | .next _ => true
  | .fault _ => false
  | .refused _ => false

theorem step_stepped {s : State} (h : steps s = true) : step s = .next (stepped s) := by
  unfold steps stepped at *; cases hs : step s <;> simp_all

/-- The state an instruction answers. -/
def ran (i : Instr) (s : State) : State :=
  match exec i s with
  | .next t => t
  | .fault _ => s
  | .refused _ => s

/-- The instruction answers a next state. -/
def runs (i : Instr) (s : State) : Bool :=
  match exec i s with
  | .next _ => true
  | .fault _ => false
  | .refused _ => false

theorem exec_ran {i : Instr} {s : State} (h : runs i s = true) : exec i s = .next (ran i s) := by
  unfold runs ran at *; cases hs : exec i s <;> simp_all

/-- A BUSY state with one event still to come and `n` host steps before the engine's. -/
def busyWith (n : Nat) (e : Event) : State := { issued 1 [] with wait := n, inputs := [e] }

/-- An IDLE state with one event to come. -/
def idleWith (e : Event) : State := { State.reset with inputs := [e] }

/-- The write of DATA `d` at `a`, all lanes. -/
def wrWord (a : BitVec 18) (d : Word) : Event := .txn (bus64Word 1 0xF a d)

theorem default_params_wf : ({} : Params).wf := by simp only [Params.wf]; decide

theorem reset_inv : MachineInv State.reset where
  params := default_params_wf
  inWf := by decide
  outWf := by decide
  inBound := by decide
  outBound := by decide
  outLen := by decide
  payload := by decide
  ident := by decide
  busy h := nomatch h
  failed h := absurd rfl h
  code := by decide
  idle _ := by decide

/-- A BUSY state of the invariant, for every command word and every schedule. -/
theorem issued_inv (w : Word) (n : Nat) (es : List Event) :
    MachineInv { issued w [] with wait := n, inputs := es } where
  params := default_params_wf
  inWf := (by decide : Memory.wf [])
  outWf := (by decide : Memory.wf [])
  inBound _ h := nomatch h
  outBound _ h := nomatch h
  outLen := Nat.zero_le _
  payload := Nat.le_refl 0
  ident := Nat.le_refl 0
  busy _ := ⟨rfl, rfl, rfl, rfl, rfl, rfl, rfl⟩
  failed h := absurd rfl h
  code := Nat.zero_le _
  idle h := nomatch h

theorem witness_EncodeOfDecode :
    decode (.bus64 0x0000001000000000) = .ok (.rd 0x10) ∧ decode (.cmd32 4) = .ok .decodeLenient := by
  decide

/-- An RD and a WR with every field at its end, and a word that is neither, met by a step. -/
theorem witness_BusWords :
    (let w : BitVec 64 := 0x0003FFFF00000000
     w.extractLsb' 63 1 = 0 ∧ w.extractLsb' 60 3 = 0 ∧ w.extractLsb' 56 4 = 0 ∧ w.extractLsb' 50 6 = 0 ∧
       w.extractLsb' 0 32 = 0 ∧ w.extractLsb' 32 18 = 0x3FFFF) ∧
    (let w : BitVec 64 := 0x8F03FFFFFFFFFFFF
     w.extractLsb' 63 1 = 1 ∧ w.extractLsb' 60 3 = 0 ∧ w.extractLsb' 50 6 = 0) ∧
    (let w : BitVec 64 := 1
     ¬ (w.extractLsb' 0 32 = 0) ∧ ¬ (w.extractLsb' 63 1 = 1) ∧
       (idleWith (.txn w)).turn = .host (.txn w) []) := by decide

theorem witness_OpcodeRows :
    (∃ r ∈ opcodeTable, r.matches (.bus64 0x0000001000000000) = true) ∧
    (∃ r ∈ opcodeTable, r.matches (.cmd32 4) = true) ∧ decode (.cmd32 4) = .ok .decodeLenient := by decide

theorem witness_StepRuns :
    (let s := busyWith 1 (.txn 0x0000001000000000)
     s.inputs = [.txn 0x0000001000000000] ∧ s.wait ≠ 0 ∧ decodeBus 0x0000001000000000 = .ok (.rd 0x10)) ∧
    ((idleWith (.txn 0x0000001000000000)).fsm = .idle) ∧
    (let s := busyWith 0 .reset
     s.fsm = .busy ∧ s.wait = 0 ∧ decodeCmd s.cmdw = .ok .encode) ∧
    (let s := { issued 1 [] with wait := 3 }
     s.fsm = .busy ∧ s.inputs = [] ∧ decodeCmd s.cmdw = .ok .encode) ∧
    decodeTableWord 64 0x0000001000000000 = some (.rd 0x10) ∧
    decodeTableWord 32 4 = some .decodeLenient := by decide

theorem witness_Idle : State.reset.fsm = .idle ∧ State.reset.inputs = [] := by decide

theorem witness_OnlyIllFormed :
    step (idleWith (.txn 1)) = .refused (.notATransaction 1) ∧
    (busyWith 2 (.txn 0x0000001000000000)).inputsWf = true := ⟨rfl, by decide⟩

/-- A reset comes first; nothing comes first. -/
theorem witness_EveryCommandCompletesOrIsReset :
    ((busyWith 2 .reset).inputsWf = true ∧ (busyWith 2 .reset).fsm = .busy) ∧
    ((busyWith 1 (wrWord 0x60 1)).inputsWf = true ∧ (busyWith 1 (wrWord 0x60 1)).fsm = .busy) := by decide

/-- Each word address a clause of the RD statement, of the gated targets or of the writes names, and the
ends of each range, is the word of an address. -/
theorem witness_word_addresses :
    ∀ w ∈ [0x000, 0x004, 0x008, 0x00C, 0x010, 0x014, 0x018, 0x01C, 0x020, 0x03C, 0x040, 0x04C, 0x050,
      0x05C, 0x060, 0x064, 0x068, 0x06C, 0x070, 0x074, 0x078, 0x07C, 0x080, 0x084, 0x0FC, 0x100, 0xFFFC,
      0x10000, 0x1FFFC, 0x20000, 0x2FFFC, 0x30000, 0x3FFFC],
      (BitVec.ofNat 18 (w + 3)).toNat - (BitVec.ofNat 18 (w + 3)).toNat % 4 = w := by decide

/-- RD: the two ends of each range. -/
theorem witness_Read :
    (0x020 = 0x040 - 4 * 8) ∧ (∃ i : Fin 4, 0x040 = 0x040 + 4 * i.val) ∧
    (∃ i : Fin 4, 0x04C = 0x040 + 4 * i.val) ∧ (∃ i : Fin 4, 0x050 = 0x050 + 4 * i.val) ∧
    (∃ i : Fin 4, 0x05C = 0x050 + 4 * i.val) ∧ (0x084 ≤ 0x084 ∧ 0x084 < 0x10000) ∧
    (0x084 ≤ 0xFFFC ∧ 0xFFFC < 0x10000) ∧ (0xFFFC < 0x10000 ∧ 0x1FFFC = 0x10000 + 0xFFFC) ∧
    (0 < 0x10000 ∧ 0x20000 = 0x20000 + 0) ∧ (0x2FFFC = 0x20000 + 0xFFFC) ∧ 0x30000 ≤ 0x3FFFC := by decide

/-- RD while BUSY: a state of the invariant, and the words of the results. -/
theorem witness_Read_busy :
    (∃ s, MachineInv s ∧ s.fsm = .busy) ∧ (0x070 ≤ 0x070 ∧ 0x080 ≤ 0x080) ∧
    (0x20000 ≤ 0x20000 ∧ 0x2FFFC < 0x30000) :=
  ⟨⟨_, issued_inv 1 0 [], rfl⟩, by decide, by decide⟩

theorem witness_LowAddressBits : (0x10 : BitVec 18).toNat / 4 = (0x13 : BitVec 18).toNat / 4 := by decide

/-- The ends of the gated ranges, a target outside them, and the engine in each state. -/
theorem witness_Gated :
    (gatedAddr 0x00C ∧ gatedAddr 0x018 ∧ gatedAddr 0x020 ∧ gatedAddr 0x068 ∧ gatedAddr 0x10000 ∧
      gatedAddr 0x1FFFC ∧ ¬ gatedAddr 0x010 ∧ ¬ gatedAddr 0x06C ∧ ¬ gatedAddr 0xFFFC ∧
      ¬ gatedAddr 0x20000) ∧
    (0x1 : BitVec 4) ≠ 0 ∧ (issued 1 []).fsm = .busy ∧ State.reset.fsm = .idle :=
  ⟨by unfold gatedAddr; omega, by decide⟩

/-- A strobe that is partial; a gated register BUSY, one IDLE, one ungated BUSY; the words 0x100 and
0x20000 and the last of all. -/
theorem witness_PartialWrites :
    ((0x7 : BitVec 4) ≠ 0 ∧ (0x7 : BitVec 4) ≠ 0xF) ∧
    (gatedAddr 0x00C ∧ (issued 1 []).fsm = .busy ∧ 0x00C < 0x100) ∧
    ¬ (gatedAddr 0x068 ∧ State.reset.fsm = .busy) ∧ ¬ (gatedAddr 0x0FC ∧ (issued 1 []).fsm = .busy) ∧
    (0x100 ≤ 0x100 ∧ ¬ (0x10000 ≤ 0x100 ∧ 0x100 < 0x20000)) ∧
    ¬ (0x10000 ≤ 0x20000 ∧ 0x20000 < 0x20000) ∧ ¬ (0x10000 ≤ 0x3FFFC ∧ 0x3FFFC < 0x20000) := by
  unfold gatedAddr; decide

theorem witness_Ctrl :
    (0x00008 : BitVec 18).toNat - (0x00008 : BitVec 18).toNat % 4 = 0x008 ∧
    (1 : Word).getLsbD 1 = false ∧ (3 : Word).getLsbD 1 = true := by decide

theorem witness_Cmd :
    (0x0000F : BitVec 18).toNat - (0x0000F : BitVec 18).toNat % 4 = 0x00C ∧
    State.reset.fsm = .idle ∧ (issued 1 []).fsm = .busy := by decide

theorem witness_Status : (0x00010 : BitVec 18).toNat - (0x00010 : BitVec 18).toNat % 4 = 0x010 := by decide

theorem witness_Operand :
    State.reset.fsm = .idle ∧ (∃ i : Fin 8, 0x020 = 0x020 + 4 * i.val) ∧
    (∃ i : Fin 8, 0x03C = 0x020 + 4 * i.val) ∧ (∃ i : Fin 4, 0x04C = 0x040 + 4 * i.val) ∧
    (∃ i : Fin 4, 0x05C = 0x050 + 4 * i.val) := by decide

theorem witness_InBuf :
    (loaded [1, 0, 2]).inBuf.wf ∧ (loaded [1, 0, 2]).fsm = .idle ∧
    (0x10000 : BitVec 18).toNat - (0x10000 : BitVec 18).toNat % 4 = 0x10000 + 0 ∧
    (0x1FFFF : BitVec 18).toNat - (0x1FFFF : BitVec 18).toNat % 4 = 0x10000 + 0xFFFC := by decide

/-- The ends of the OUT_BUF window. -/
theorem witness_WritesNeverProduceResults :
    (0x20000 ≤ 0x20000 ∧ 0x20000 < 0x30000) ∧ (0x20000 ≤ 0x2FFFC ∧ 0x2FFFC < 0x30000) := by decide

theorem witness_OtherWrites :
    (0x06C ≤ 0x06C ∧ 0x06C < 0x10000) ∧ (0x06C ≤ 0xFFFC ∧ 0xFFFC < 0x10000) ∧ 0x20000 ≤ 0x3FFFC := by
  decide

/-! #### The commands -/

/-- KEY_LEN wrong; one byte more than the capacity; exactly the capacity. -/
theorem witness_Encode :
    (State.reset.outBuf.wf ∧ State.reset.keyLen ≠ 32) ∧
    ((loaded []).keyLen = 32 ∧ 20 + 4076 + 0 + (32 - (20 + 4076 + 0) % 32) > (loaded []).params.bufBytes) ∧
    20 + 4075 + 0 + (32 - (20 + 4075 + 0) % 32) ≤ (loaded []).params.bufBytes ∧
    ((4076 : Word).toNat = 4076 ∧ (4075 : Word).toNat = 4075) := by decide

/-- The decrypted last byte and what the checks compare, for a ciphertext in IN_BUF: its length, the pad
value, the text length and the length field. -/
def checked (iv : List Byte) (s : State) : List Nat :=
  let l := s.inLen.toNat
  let d := cbcD s.keyBytes iv (s.inputAt 0 l)
  let pad := (d.getD (l - 1) 0).toNat
  [l, pad, l - pad, prefixValue d]

/-- IN_LEN over the capacity, under 32, and no multiple of 32 (or of 16). -/
theorem witness_Decode_lengths :
    ({ loaded [] with inLen := 4097 }.inLen.toNat > (loaded []).params.bufBytes) ∧
    ((4096 : Word).toNat ≤ (loaded []).params.bufBytes ∧ 32 ≤ (4096 : Word).toNat ∧
      (4096 : Word).toNat % 32 = 0) ∧
    ((31 : Word).toNat < 32) ∧ (32 ≤ (33 : Word).toNat ∧ (33 : Word).toNat % 16 ≠ 0) ∧
    ((48 : Word).toNat % 32 ≠ 0 ∧ (48 : Word).toNat % 16 = 0) ∧
    State.reset.keyLen ≠ 32 ∧ (loaded []).keyLen = 32 ∧ (loaded []).outBuf.wf := by decide

/-- Pads of 0 and of 33, T = 20 and T = 21; 20 + n one past T, and 20 + n = T. -/
theorem witness_Decode_checks :
    [vP1, vP2, vP5, vP4, vN2, vN4].map (fun c => checked (loaded c).keyIv (loaded c)) =
      [[32, 0, 32, 5], [32, 33, 0, 5], [32, 12, 20, 0], [32, 11, 21, 1], [32, 2, 30, 11],
        [32, 2, 30, 10]] := by
  decide +kernel

/-- The same checks with the IV in IVREG, on the same vectors. -/
theorem witness_DecodeXiv_checks :
    [vP1, vP5, vP4].map (fun c => checked (loaded c).ivBytes (loaded c)) =
      [[32, 0, 32, 5], [32, 12, 20, 0], [32, 11, 21, 1]] := by
  decide +kernel

/-- IN_LEN over the capacity; not base64; 16 bytes; 40 bytes; 32 bytes with 20 + n one past the text and
20 + n its end. -/
theorem witness_Lenient :
    (State.reset.outBuf.wf ∧ { loaded [] with inLen := 4097 }.inLen.toNat > 4096) ∧
    b64Dec {} (vL1.take 43) = none ∧
    (b64Dec {} vL8).map List.length = some 16 ∧ (b64Dec {} vL9).map List.length = some 40 ∧
    [vL6, vL5].map (fun x => (b64Dec {} x).map fun b =>
      [b.length, 20 + prefixValue (cbcD (loaded []).keyBytes (loaded []).keyIv b)]) =
      [some [32, 33], some [32, 32]] := by
  decide +kernel

/-- RSV not 0, OP = 0, OP = 5 and OP = 15; at issue and at the engine's step. -/
theorem witness_IllegalWords :
    ((0x10 : Word).extractLsb' 4 28 ≠ 0 ∧ (0x80000001 : Word).extractLsb' 4 28 ≠ 0) ∧
    (0 : Word).extractLsb' 0 4 = 0 ∧ 5 ≤ ((5 : Word).extractLsb' 0 4).toNat ∧
    5 ≤ ((15 : Word).extractLsb' 0 4).toNat ∧
    ((issued 15 []).fsm = .busy ∧ (issued 15 []).cmdw = 15 ∧ (issued 15 []).wait = 0) := by decide

theorem witness_EachCommandRaises : State.reset.errcode = 0 := by decide

theorem witness_AFailedCommand :
    ∃ s t, MachineInv s ∧ s.turn = .engine ∧ step s = .next t ∧ t.errcode ≠ 0 :=
  ⟨_, _, issued_inv 15 0 [], by decide, step_stepped (by decide), by decide⟩

theorem witness_EveryCompletion :
    ((issued 1 []).fsm = .busy ∧ (issued 1 []).wait = 0) ∧
    ({ issued 1 [] with wait := 3 }.inputs = []) := by decide

theorem witness_ASecondCommand :
    ∀ i ∈ [Instr.encode, .decode, .decodeXiv, .decodeLenient],
      isCommand i = true ∧ State.reset.keyLen = 0 := by decide

/-- Two states that differ in CTRL, OVR and what the host has read, with the same operands. -/
theorem witness_CommandsAreFunctions :
    ∃ s s' : State, MachineInv s ∧ MachineInv s' ∧ s.fsm = .busy ∧ s'.fsm = .busy ∧ s ≠ s' ∧
      SameOperands .encode s s' ∧ SameOperands .decode s s' ∧ SameOperands .decodeXiv s s' ∧
      SameOperands .decodeLenient s s' :=
  ⟨_, _, issued_inv 1 0 [], issued_inv 2 3 [.reset], by decide, by decide, by decide,
    ⟨rfl, rfl, rfl, rfl, rfl, rfl, fun _ _ => rfl⟩, ⟨rfl, rfl, rfl, rfl, fun _ _ => rfl⟩,
    ⟨rfl, rfl, rfl, rfl, rfl, fun _ _ => rfl⟩, ⟨rfl, rfl, rfl, rfl, fun _ _ => rfl⟩⟩

/-! #### The whole machine -/

/-- An issue by CMD, a completion, and a reset of each kind while BUSY. -/
theorem witness_TheEngineStateMoves :
    (let s := { idleWith (wrWord 0x0C 1) with latencies := [2] }
     steps s = true ∧ s.fsm = .idle ∧ (stepped s).fsm = .busy) ∧
    (∀ s ∈ [issued 15 [], busyWith 1 .reset, busyWith 1 (wrWord 0x08 2)],
      steps s = true ∧ s.fsm = .busy ∧ (stepped s).fsm = .idle) := by decide

/-- DONE set by a completion; cleared by the acknowledge, by an issue, by a reset; OVR set by a dropped
write; cleared by STATUS and by a reset. -/
theorem witness_DoneAndOvr :
    (steps (issued 15 []) = true ∧ (issued 15 []).done = false ∧ (stepped (issued 15 [])).done = true) ∧
    (∀ e ∈ [wrWord 0x10 2, wrWord 0x0C 1, .reset],
      let s := { idleWith e with done := true, latencies := [2] }
      steps s = true ∧ (stepped s).done = false) ∧
    (let s := busyWith 1 (wrWord 0x60 1)
     steps s = true ∧ s.ovr = false ∧ (stepped s).ovr = true) ∧
    (∀ e ∈ [wrWord 0x10 8, wrWord 0x08 2],
      let s := { idleWith e with ovr := true }
      steps s = true ∧ (stepped s).ovr = false) := by decide

theorem witness_InputsAreFixed :
    let s := busyWith 1 (wrWord 0x60 1)
    s.fsm = .busy ∧ steps s = true ∧ (stepped s).fsm = .busy := by decide

theorem witness_HostStepsLearnNothing :
    ∃ s s' t : State, s ≠ s' ∧ s.turn ≠ .engine ∧ s' = { s with key := s'.key } ∧ step s = .next t :=
  ⟨idleWith (.txn 0x0000002000000000),
    { idleWith (.txn 0x0000002000000000) with key := Vector.replicate 8 1 }, _, by decide, by decide, rfl,
    step_stepped (by decide)⟩

/-- Raised by a completion and by the enable; lowered by the acknowledge, an issue, the enable and a
reset. -/
theorem witness_Irq :
    (steps (issued 15 []) = true ∧ (issued 15 []).turn = .engine) ∧
    (let s := { idleWith (wrWord 0x08 1) with done := true }
     steps s = true ∧ s.irq = false ∧ (stepped s).irq = true) ∧
    (∀ e ∈ [wrWord 0x10 2, wrWord 0x0C 1, wrWord 0x08 0, wrWord 0x08 3, .reset],
      let s := { idleWith e with done := true, irqEn := true, latencies := [2] }
      steps s = true ∧ s.irq = true ∧ (stepped s).irq = false) := by decide

theorem witness_HardwareReset :
    ((idleWith .reset).inputs = [.reset] ∧ (idleWith .reset).fsm = .idle) ∧
    ((busyWith 1 .reset).inputs = [.reset] ∧ (busyWith 1 .reset).wait ≠ 0) := by decide

theorem witness_NoStepChangesTheParameters : ∃ s t, step s = .next t :=
  ⟨_, _, step_stepped (s := busyWith 1 (wrWord 0x08 2)) (by decide)⟩

/-- At reset, and while BUSY before the engine's step and before a host step. -/
theorem witness_EveryStepKeeps :
    (∃ t, MachineInv State.reset ∧ step State.reset = .next t) ∧
    (∃ s t, MachineInv s ∧ s.turn = .engine ∧ step s = .next t) ∧
    (∃ s t, MachineInv s ∧ s.fsm = .busy ∧ s.wait = 1 ∧ step s = .next t) :=
  ⟨⟨_, reset_inv, step_stepped (by decide)⟩,
    ⟨_, _, issued_inv 15 0 [], by decide, step_stepped (by decide)⟩,
    ⟨_, _, issued_inv 1 1 [.reset], by decide, by decide, step_stepped (by decide)⟩⟩

/-! #### The units -/

theorem witness_PaddedEnvelope : (List.replicate 16 (1 : Byte)).length = 16 ∧ 20 ≤ 20 + 5 + 5 := by decide

theorem witness_PadValidator :
    let d := List.replicate 31 (0 : Byte) ++ [2]
    let d' := List.replicate 31 (9 : Byte) ++ [2]
    32 ≤ d.length ∧ d.length = d'.length ∧ d.getLast? = d'.getLast? ∧ d ≠ d' := by decide

/-- One byte in all, and none. -/
theorem witness_ValidatorAndParser :
    (List.replicate 16 (0 : Byte)).length = 16 ∧ ([7] : List Byte).length < 2 ^ 32 ∧
    1 ≤ ([7] : List Byte).length + ([] : List Byte).length ∧
    ([] : List Byte).length + ([] : List Byte).length = 0 := by decide

/-- Block 0 under two IVs that agree, and block 1 under two that do not. -/
theorem witness_Cbc :
    let c : List Byte := List.replicate 48 5
    let c' : List Byte := List.replicate 32 5 ++ List.replicate 16 6
    let iv : List Byte := List.replicate 16 0
    let iv' : List Byte := List.replicate 16 1
    c.length % 16 = 0 ∧ c'.length = c.length ∧
    (16 * (0 + 1) ≤ c.length ∧ slice c 0 16 = slice c' 0 16 ∧ iv.take 16 = (iv ++ [3]).take 16) ∧
    (16 * (1 + 1) ≤ c.length ∧ slice c 16 32 = slice c' 16 32 ∧ slice c 0 16 = slice c' 0 16 ∧
      iv.take 16 ≠ iv'.take 16) := by decide

/-- The first block and the last. -/
theorem witness_CbcChains :
    let iv : List Byte := List.replicate 16 7
    let s : List Byte := List.replicate 48 5
    iv.length = 16 ∧ s.length % 16 = 0 ∧ 16 * (0 + 1) ≤ s.length ∧ 16 * (2 + 1) ≤ s.length := by decide

/-- 40_cipher.md R108, both blocks, and back. -/
theorem test_cbc :
    let p := (List.range 32).map (BitVec.ofNat 8)
    let c := hex "f29000b62a499fd0a9f39a6add2e77809543b86fc046fa883a9446b82e47d12d"
    cbcE p (p.take 16) p = c ∧ cbcD p (p.take 16) c = p := by decide +kernel

theorem witness_CbcDecryption : (List.replicate 32 (7 : Byte)).length % 16 = 0 := by decide

/-- A text with line breaks under both options: it decodes, its shape has one `=`, and the low bits of its
last character are 0. -/
theorem witness_Base64 :
    let p : Params := { b64IgnoreCrlf := true, b64StrictTail := true }
    let s := text "TW" ++ [0x0D, 0x0A] ++ text "E="
    p.b64StrictTail = true ∧ b64Dec p s = some [0x4D, 0x61] ∧ b64Dec p (text "TWE=") = some [0x4D, 0x61] ∧
    withoutLineBreaks p s = text "TWE" ++ List.replicate 1 0x3D ∧
    (∀ c ∈ text "TWE", b64Val c ≠ none) ∧ (text "TWE").getLast?.bind b64Val = some 4 := by decide +kernel

/-- Two `=` under the strict tail: accepted, and refused with a low bit set. -/
theorem witness_Base64_strict :
    let p : Params := { b64StrictTail := true }
    b64Dec p (text "TQ==") = some [0x4D] ∧ b64Dec p (text "TR==") = none ∧
    (text "TQ").getLast?.bind b64Val = some 16 ∧ (text "TR").getLast?.bind b64Val = some 17 := by
  decide +kernel

/-- Scenario A and its empty twin: ENCODE, and a state that holds what it returned. -/
def sender (n : Word) : State := { loaded (text "hellowx123") with plen := n, ilen := n }

/-- The receiver of what `t` holds in OUT_BUF. -/
def receiver (t : State) : State := { loaded [] with inBuf := t.outBuf, inLen := t.outLen }

theorem witness_DecodeReturns (n : Word) (hn : n = 5 ∨ n = 0) :
    ∃ s t s2 : State, s.params.wf ∧ s.outBuf.wf ∧ s2.outBuf.wf ∧ s.keyLen = 32 ∧
      20 + s.plen.toNat + s.ilen.toNat + (32 - (20 + s.plen.toNat + s.ilen.toNat) % 32)
        ≤ s.params.bufBytes ∧
      exec .encode s = .next t ∧ s2.params = s.params ∧ s2.key = s.key ∧ s2.keyLen = 32 ∧
      s2.inLen = t.outLen ∧ (∀ x < t.outLen.toNat, s2.inBuf.read x = t.outBuf.read x) ∧
      s.plen = n ∧ s.ilen = n :=
  ⟨sender n, _, receiver (ran .encode (sender n)), default_params_wf, (by decide : Memory.wf []),
    (by decide : Memory.wf []), rfl, by rcases hn with rfl | rfl <;> decide, exec_ran rfl, rfl, rfl, rfl,
    rfl, fun _ _ => rfl, rfl, rfl⟩

theorem witness_ExplicitIv :
    let s := { loaded vA1 with iv := Vector.replicate 4 0 }
    s.errcode = 0 ∧ s.ivBytes = s.keyBytes.take 16 ∧ s.inLen.toNat % 32 = 0 := by decide +kernel

/-- V-A1's ciphertext and V-L1's text of it. -/
theorem witness_Lenient_of_strict :
    let s := loaded vA1
    let t := ran .decode s
    let s2 := loaded vL1
    s.params = {} ∧ s.outBuf.wf ∧ s2.outBuf.wf ∧ s.errcode = 0 ∧ runs .decode s = true ∧ t.errcode = 0 ∧
    s2.key = s.key ∧ s2.keyLen = 32 ∧ s2.inLen.toNat ≤ s2.params.bufBytes ∧
    b64Dec s2.params (s2.inputAt 0 s2.inLen.toNat) = some (s.inputAt 0 s.inLen.toNat) := by
  decide +kernel

theorem witness_LoadKey : State.reset.fsm = .idle ∧ (List.replicate 32 (7 : Byte)).length = 32 := by decide

/-- A fill that ends with the buffer. -/
theorem witness_Fill :
    State.reset.fsm = .idle ∧ State.reset.inBuf.wf ∧ 4092 % 4 = 0 ∧
    4092 + ([1, 2, 3, 4] : List Byte).length ≤ State.reset.params.bufBytes := by decide

end Sys2Proof.Tests
end

/-! PROOFS for 00_scope.md: the invariant of the machine is kept by every step (O40), a command is a
function of its operands (O31), the parameters stay (O38), and a step runs the decoded instruction (O7). -/

namespace Sys2Proof.Machine

/-! ### What a successful command may return -/

/-- An offset and a length, both given or both not, that name a slice of `n` bytes. -/
def SliceWithin (n : Nat) (off len : Option Nat) : Prop :=
  (off = none ∧ len = none) ∨ ∃ x y, off = some x ∧ len = some y ∧ x + y ≤ n

/-- An output that fits a buffer of `cap` bytes, with its payload and its identifier inside it. -/
structure Output.Fits (cap : Nat) (o : Output) : Prop where
  length_le : o.bytes.length ≤ cap
  payload : SliceWithin o.bytes.length o.poff o.plen
  ident : SliceWithin o.bytes.length o.ioff o.ilen

/-- A successful command returns an output that fits OUT_BUF. -/
theorem commandOutcome_fits {s : State} {w : Word} {o : Output} (h : commandOutcome w s = .ok o) :
    o.Fits s.params.bufBytes :=
  ⟨commandOutcome_length h, (commandOutcome_slices h).1, (commandOutcome_slices h).2⟩

/-- The registers of a slice inside `n` bytes, written over 0, name a slice inside `n` bytes.  Narrowing to
32 bits only makes a number smaller. -/
theorem written_slice_le {n : Nat} {off len : Option Nat} (h : SliceWithin n off len) :
    (written off 0).toNat + (written len 0).toNat ≤ n := by
  rcases h with ⟨rfl, rfl⟩ | ⟨x, y, rfl, rfl, hxy⟩
  · exact Nat.zero_le n
  · have hx : (written (some x) 0).toNat ≤ x := Nat.mod_le x _
    have hy : (written (some y) 0).toNat ≤ y := Nat.mod_le y _
    omega

/-- No error kind has a reserved code (60_exceptions.md R270). -/
theorem Err.code_toNat_le (e : Err) : e.code.toNat ≤ 9 := by
  cases e <;> decide

/-! ### The invariant and each kind of step -/

/-- The buffer of zeros is in canonical form. -/
theorem Memory.wf_nil : Memory.wf [] := ⟨.nil, by simp⟩

/-- While BUSY every OUT_BUF byte is 0: its canonical form is empty. -/
theorem MachineInv.outBuf_of_busy {s : State} (h : MachineInv s) (hb : s.fsm = .busy) : s.outBuf = [] := by
  obtain ⟨-, -, hlen, -⟩ := h.busy hb
  refine List.eq_nil_iff_forall_not_mem.mpr fun c hc => ?_
  have := h.outBound c hc
  simp [hlen] at this

/-- A host step leaves `inputs` and takes one off `wait`. -/
theorem MachineInv.hostStep {s : State} (h : MachineInv s) (rest : List Event) :
    MachineInv { s with inputs := rest, wait := s.wait - 1 } :=
  { h with idle := fun hi => by simp [h.idle hi] }

/-- The engine's step has no wait left. -/
theorem MachineInv.engineDue {s : State} (h : MachineInv s) : MachineInv { s with wait := 0 } :=
  { h with idle := fun _ => rfl }

/-- A reset, from whatever state, under parameters R8 allows. -/
theorem MachineInv.hardReset {s : State} (hp : s.params.wf) : MachineInv s.hardReset where
  params := hp
  inWf := Memory.wf_nil
  outWf := Memory.wf_nil
  inBound := by simp
  outBound := by simp
  outLen := by simp
  payload := by simp
  ident := by simp
  busy := by simp
  failed := by simp
  code := by simp
  idle := by simp

/-- An RD. -/
theorem MachineInv.respond {s : State} (h : MachineInv s) (v : Word) : MachineInv (s.respond v) :=
  { h with }

/-- The issue of a command clears the results (46_host_bus.md R246). -/
theorem MachineInv.issue {s : State} (h : MachineInv s) (w : Word) : MachineInv (s.issue w) where
  params := by simpa using h.params
  inWf := by simpa using h.inWf
  outWf := by simpa using Memory.wf_nil
  inBound := by simpa using h.inBound
  outBound := by simp
  outLen := by simp
  payload := by simp
  ident := by simp
  busy := by simp [State.noResult]
  failed := by simp
  code := by simp
  idle := by simp

/-- A CTRL write: IRQ_EN, and a soft reset or not. -/
theorem MachineInv.writeCtrl {s : State} (h : MachineInv s) (d : Word) : MachineInv (s.writeCtrl d) := by
  unfold State.writeCtrl
  split
  · exact MachineInv.hardReset h.params
  · exact { h with }

/-- A STATUS write clears DONE, OVR, both or neither. -/
theorem MachineInv.writeStatus {s : State} (h : MachineInv s) (d : Word) : MachineInv (s.writeStatus d) := by
  have ack : MachineInv s.acknowledge := { h with busy := fun hb => ⟨rfl, (h.busy hb).2⟩ }
  have clearOvr {u : State} (hu : MachineInv u) : MachineInv { u with ovr := false } := { hu with }
  unfold State.writeStatus
  split <;> split
  · exact clearOvr ack
  · exact ack
  · exact clearOvr h
  · exact h

/-- An IN_BUF write stays below BUF_BYTES (46_host_bus.md R249). -/
theorem MachineInv.writeIn {s : State} (h : MachineInv s) (o : Nat) (d : Word) (st : BitVec 4) :
    MachineInv (s.writeIn o d st) :=
  { h with
    inWf := writeIn_inBuf_wf h.inWf o d st
    inBound := fun c hc => (mem_writeIn hc).elim (h.inBound c) id }

/-- A WR. -/
theorem MachineInv.busWrite {s : State} (h : MachineInv s) (a : BitVec 18) (d : Word) (st : BitVec 4) :
    MachineInv (s.busWrite a d st) := by
  rcases s.busWrite_shapes a d st with e | ⟨-, -, -, e⟩ | ⟨-, -, e⟩ | ⟨-, -, -, e⟩ | ⟨-, -, e⟩ |
    ⟨-, -, _, _, _, _, _, _, _, e⟩ | ⟨-, -, o, e⟩ <;> rw [e]
  · exact h
  · exact { h with }
  · exact h.writeCtrl d
  · exact h.issue d
  · exact h.writeStatus d
  · exact { h with }
  · exact h.writeIn o d st

/-- A completion with an error leaves the results at the 0 they had from issue (60_exceptions.md R276). -/
theorem MachineInv.complete_error {s : State} (h : MachineInv s) (hb : s.fsm = .busy) (hw : s.wait = 0)
    (e : Err) : MachineInv (s.complete (.error e)) :=
  { h with
    busy := by simp
    failed := fun _ => (h.busy hb).2.2
    code := e.code_toNat_le
    idle := fun _ => hw }

/-- A completion with an output that fits OUT_BUF (60_exceptions.md R275). -/
theorem MachineInv.complete_ok {s : State} {o : Output} (h : MachineInv s) (hb : s.fsm = .busy)
    (hw : s.wait = 0) (ho : o.Fits s.params.bufBytes) : MachineInv (s.complete (.ok o)) := by
  obtain ⟨-, herr, -, hpoff, hplen, hioff, hilen⟩ := h.busy hb
  have hlen : (BitVec.ofNat 32 o.bytes.length).toNat = o.bytes.length := by
    have := ho.length_le
    have := h.params.2.2
    rw [BitVec.toNat_ofNat]
    omega
  rw [State.complete_ok]
  exact
  { h with
    outWf := Memory.writeBytes_wf h.outWf 0 o.bytes
    outBound := fun c hc => by
      have hc : c ∈ s.outBuf.writeBytes 0 o.bytes := hc
      rw [h.outBuf_of_busy hb] at hc
      simpa [hlen] using Memory.mem_writeBytes hc
    outLen := by simpa [hlen] using ho.length_le
    payload := by simpa [hlen, hpoff, hplen] using written_slice_le ho.payload
    ident := by simpa [hlen, hioff, hilen] using written_slice_le ho.ident
    busy := by simp
    failed := fun hne => absurd herr hne
    idle := fun _ => hw }

/-- The engine's step: the completion of the command in flight. -/
theorem MachineInv.complete_command {s : State} (h : MachineInv s) (hb : s.fsm = .busy) (hw : s.wait = 0)
    (w : Word) : MachineInv (s.complete (commandOutcome w s)) := by
  cases hr : commandOutcome w s with
  | error e => exact h.complete_error hb hw e
  | ok o => exact h.complete_ok hb hw (commandOutcome_fits hr)

/-- Settles O40, by the five shapes of a step. -/
theorem everyStepKeepsTheInvariant : Obligations.EveryStepKeepsTheInvariant := by
  intro s t h hstep
  rcases step_cases hstep with ⟨-, rfl⟩ | ⟨ht, rfl⟩ | ⟨rest, -, rfl⟩ | ⟨-, rest, a, -, -, rfl⟩ |
    ⟨-, rest, a, d, st, -, -, rfl⟩
  · exact h
  · exact h.engineDue.complete_command ((turn_engine_iff s).mp ht).1 rfl _
  · exact MachineInv.hardReset h.params
  · exact (h.hostStep rest).respond _
  · exact (h.hostStep rest).busWrite a d st

/-! ### The outcome of a command from its operands -/

/-- Two BUSY states of the invariant that complete with one outcome show the same. -/
theorem SameOutcome.of_complete {s s' : State} (h : MachineInv s) (h' : MachineInv s')
    (hb : s.fsm = .busy) (hb' : s'.fsm = .busy) (r : Except Err Output) :
    SameOutcome (s.complete r) (s'.complete r) := by
  have hout : s.outBuf = s'.outBuf := (h.outBuf_of_busy hb).trans (h'.outBuf_of_busy hb').symm
  obtain ⟨-, herr, hlen, hpoff, hplen, hioff, hilen⟩ := h.busy hb
  obtain ⟨-, herr', hlen', hpoff', hplen', hioff', hilen'⟩ := h'.busy hb'
  cases r with
  | error e => simp [SameOutcome, State.complete_error, *]
  | ok o => simp [SameOutcome, State.complete_ok, *]

/-- IN_BUF bytes of a range both states agree on. -/
theorem State.inBytes_congr {s s' : State} {m off n : Nat} (h : ∀ x < m, s.inBuf.read x = s'.inBuf.read x)
    (hm : off + n ≤ m) : s.inBytes off n = s'.inBytes off n :=
  Memory.readBytes_congr fun j hj => h (off + j) (by omega)

/-- KEY is the bytes of KEY0..KEY7 (10_state.md R31). -/
theorem State.keyBytes_congr {s s' : State} (h : s.key = s'.key) : s.keyBytes = s'.keyBytes := by
  simp only [State.keyBytes, h]

theorem State.keyIv_congr {s s' : State} (h : s.key = s'.key) : s.keyIv = s'.keyIv := by
  simp only [State.keyIv, State.keyBytes_congr h]

/-- ENCODE's operands fix the plaintext it encrypts (41_framer_encode.md R124). -/
theorem State.plaintext_congr {s s' : State} (h : SameOperands .encode s s') :
    s.plaintext = s'.plaintext := by
  obtain ⟨-, -, -, hnonce, hplen, hilen, hin⟩ := h
  rw [State.plaintext, State.plaintext, State.nonceBytes, State.nonceBytes, ← hnonce, ← hplen, ← hilen,
    State.inBytes_congr hin (by omega), State.inBytes_congr hin le_rfl]

/-- ENCODE reads its operands only (30_encoding.md R84). -/
theorem encodeOutcome_congr {s s' : State} (h : SameOperands .encode s s') :
    encodeOutcome s = encodeOutcome s' := by
  have hp := State.plaintext_congr h
  obtain ⟨hparams, hkeyLen, hkey, -, hplen, hilen, -⟩ := h
  simp only [encodeOutcome]
  rw [← State.plaintext, ← State.plaintext, hp, State.keyBytes_congr hkey, State.keyIv_congr hkey, hparams,
    hkeyLen, hplen, hilen]

/-- DECODE reads its operands only. -/
theorem decodeOutcome_congr {s s' : State} (h : SameOperands .decode s s') :
    decodeOutcome s = decodeOutcome s' := by
  obtain ⟨hparams, hkeyLen, hkey, hinLen, hin⟩ := h
  simp only [decodeOutcome]
  rw [State.inBytes_congr hin (Nat.zero_add _).le, State.keyBytes_congr hkey, State.keyIv_congr hkey,
    hparams, hkeyLen, hinLen]

/-- DECODE_XIV reads its operands only. -/
theorem decodeXivOutcome_congr {s s' : State} (h : SameOperands .decodeXiv s s') :
    decodeXivOutcome s = decodeXivOutcome s' := by
  obtain ⟨hparams, hkeyLen, hkey, hiv, hinLen, hin⟩ := h
  simp only [decodeXivOutcome, State.ivBytes]
  rw [State.inBytes_congr hin (Nat.zero_add _).le, State.keyBytes_congr hkey, hparams, hkeyLen, hiv, hinLen]

/-- DECODE_LENIENT reads its operands only. -/
theorem decodeLenientOutcome_congr {s s' : State} (h : SameOperands .decodeLenient s s') :
    decodeLenientOutcome s = decodeLenientOutcome s' := by
  obtain ⟨hparams, hkeyLen, hkey, hinLen, hin⟩ := h
  simp only [decodeLenientOutcome]
  rw [State.inBytes_congr hin (Nat.zero_add _).le, State.keyBytes_congr hkey, State.keyIv_congr hkey,
    hparams, hkeyLen, hinLen]

/-- Two states with the same operands complete with one outcome. -/
theorem exec_complete_of_sameOperands {i : Instr} {s s' : State} (h : SameOperands i s s') :
    ∃ r, exec i s = .next (s.complete r) ∧ exec i s' = .next (s'.complete r) := by
  cases i with
  | rd a => exact h.2.2.2.elim
  | wr a d st => exact h.2.2.2.elim
  | encode => exact ⟨_, exec_encode s, by rw [exec_encode, encodeOutcome_congr h]⟩
  | decode => exact ⟨_, exec_decode s, by rw [exec_decode, decodeOutcome_congr h]⟩
  | decodeXiv => exact ⟨_, exec_decodeXiv s, by rw [exec_decodeXiv, decodeXivOutcome_congr h]⟩
  | decodeLenient =>
    exact ⟨_, exec_decodeLenient s, by rw [exec_decodeLenient, decodeLenientOutcome_congr h]⟩

/-- Settles O31: the outcome is one, and what a completion shows of a BUSY state is its outcome alone. -/
theorem commandsAreFunctionsOfTheirOperands : Obligations.CommandsAreFunctionsOfTheirOperands := by
  intro i s s' h h' hb hb' hops
  obtain ⟨r, hs, hs'⟩ := exec_complete_of_sameOperands hops
  exact ⟨_, _, hs, hs', .of_complete h h' hb hb' r⟩

/-! ### The parameters -/

@[simp] theorem State.writeCtrl_params (s : State) (d : Word) : (s.writeCtrl d).params = s.params := by
  unfold State.writeCtrl
  split <;> rfl

@[simp] theorem State.writeStatus_params (s : State) (d : Word) : (s.writeStatus d).params = s.params := by
  unfold State.writeStatus
  split <;> split <;> rfl

@[simp] theorem State.writeIn_params (s : State) (o : Nat) (d : Word) (st : BitVec 4) :
    (s.writeIn o d st).params = s.params := rfl

@[simp] theorem State.busWrite_params (s : State) (a : BitVec 18) (d : Word) (st : BitVec 4) :
    (s.busWrite a d st).params = s.params := by
  rcases s.busWrite_shapes a d st with e | ⟨-, -, -, e⟩ | ⟨-, -, e⟩ | ⟨-, -, -, e⟩ | ⟨-, -, e⟩ |
    ⟨-, -, _, _, _, _, _, _, _, e⟩ | ⟨-, -, o, e⟩ <;> simp [e]

/-- Settles O38, by the five shapes of a step: none writes the parameters. -/
theorem noStepChangesTheParameters : Obligations.NoStepChangesTheParameters := by
  intro s t hstep
  rcases step_cases hstep with ⟨-, rfl⟩ | ⟨-, rfl⟩ | ⟨_, -, rfl⟩ | ⟨_, _, _, -, -, rfl⟩ |
    ⟨_, _, _, _, _, -, -, rfl⟩ <;> simp

/-! ### The decoded instruction -/

/-- A transaction word never decodes to a command. -/
theorem isCommand_of_decodeBus {w : BitVec 64} {i : Instr} (h : decodeBus w = .ok i) :
    isCommand i = false := by
  rcases decodeBus_cases w with ⟨a, hd⟩ | ⟨a, d, st, hd⟩ | hd <;> rw [hd] at h <;> cases h <;> rfl

/-- A command word never decodes to a transaction. -/
theorem isCommand_of_decodeCmd {w : Word} {i : Instr} (h : decodeCmd w = .ok i) : isCommand i = true := by
  rcases decodeCmd_cases w with hd | hd | hd | hd | hd <;> rw [hd] at h <;> cases h <;> rfl

/-- The two ways a table row's word decodes, by the format of its length (log 9). -/
theorem decodeTableWord_cases {nbits w : Nat} {i : Instr} (h : decodeTableWord nbits w = some i) :
    (codeWord nbits w = .cmd32 (BitVec.ofNat 32 w) ∧ decodeCmd (BitVec.ofNat 32 w) = .ok i) ∨
    (codeWord nbits w = .bus64 (BitVec.ofNat 64 w) ∧ decodeBus (BitVec.ofNat 64 w) = .ok i) := by
  have hd : decode (codeWord nbits w) = .ok i := by
    unfold decodeTableWord at h
    split at h
    · next j hj => rw [hj, Option.some.inj h]
    · cases h
  by_cases hn : nbits ≤ 32
  · have hc : codeWord nbits w = .cmd32 (BitVec.ofNat 32 w) := if_pos hn
    exact .inl ⟨hc, by rwa [hc] at hd⟩
  · have hc : codeWord nbits w = .bus64 (BitVec.ofNat 64 w) := if_neg hn
    exact .inr ⟨hc, by rwa [hc] at hd⟩

/-- A placed transaction runs in the next step, which leaves the coming events as they were. -/
theorem step_placeTransaction {s : State} {w : BitVec 64} {i : Instr} (hd : decodeBus w = .ok i) :
    step (s.placeTransaction w) =
      exec i { s with wait := if s.fsm = .busy then s.wait else s.wait - 1 } := by
  have ht : (s.placeTransaction w).turn = .host (.txn w) s.inputs := by
    refine (turn_host_iff _ _ _).mpr ⟨rfl, ?_⟩
    cases hf : s.fsm <;> simp [State.placeTransaction, hf]
  rw [step_of_txn ht hd]
  cases hf : s.fsm <;> simp [State.placeTransaction, hf]

/-- A placed command completes in the next step. -/
theorem step_placeCommand {s : State} {w : Word} {i : Instr} (hd : decodeCmd w = .ok i) :
    step (s.placeCommand w) = exec i { s.accept w with wait := 0 } :=
  step_of_command ((turn_engine_iff _).mpr ⟨rfl, .inl rfl⟩) hd

/-- Settles O7: a step by its turn, and the turn of a state with a word placed. -/
theorem stepRunsTheDecodedInstruction : Obligations.StepRunsTheDecodedInstruction := by
  refine ⟨fun s w rest i hin hturn hd => ?_, fun s i hb hturn hd => ?_, fun s nbits w i hd => ?_⟩
  · exact step_of_txn ((turn_host_iff s _ rest).mpr ⟨hin, hturn⟩) hd
  · exact step_of_command ((turn_engine_iff s).mpr ⟨hb, hturn⟩) hd
  · rcases decodeTableWord_cases hd with ⟨hc, hd⟩ | ⟨hc, hd⟩ <;> rw [State.withFetchWord, hc]
    · have hcmd := isCommand_of_decodeCmd hd
      exact ⟨fun hn => absurd hcmd (by simp [hn]), fun _ => step_placeCommand hd⟩
    · have htxn := isCommand_of_decodeBus hd
      exact ⟨fun _ => step_placeTransaction hd, fun hn => absurd htxn (by simp [hn])⟩

end Sys2Proof.Machine

/-! PROOFS for 10_state.md: the lanes of the operand registers (O59), what moves the engine state (O32), what
sets and clears DONE and OVR (O33), and that no host step depends on the key (O35). -/

namespace Sys2Proof.Machine

/-! ### The lanes of a run of registers -/

/-- Byte 4i+j of a run of registers is lane j of the i-th (20_memory.md R61). -/
theorem seqBytes_getElem? (ws : List Word) (i : Nat) {j : Nat} (hj : j < 4) :
    (seqBytes ws)[4 * i + j]? = ws[i]?.map (lane · j) := by
  induction ws generalizing i with
  | nil => rfl
  | cons w ws ih =>
    rw [show seqBytes (w :: ws) = wordBytes w ++ seqBytes ws from rfl]
    cases i with
    | zero =>
      rw [List.getElem?_append_left (by rw [wordBytes_length]; omega)]
      interval_cases j <;> rfl
    | succ i =>
      rw [List.getElem?_append_right (by rw [wordBytes_length]; omega), wordBytes_length,
        show 4 * (i + 1) + j - 4 = 4 * i + j by omega, ih i, List.getElem?_cons_succ]

/-- The same for a vector of registers. -/
theorem seqBytes_toList_getElem? {n : Nat} (v : Vector Word n) (i : Fin n) (j : Fin 4) :
    (seqBytes v.toList)[4 * i.val + j.val]? = some (v[i].extractLsb' (8 * j.val) 8) := by
  rw [seqBytes_getElem? _ _ j.isLt]
  simp [lane]

/-- Settles O59: KEY, NONCE and IVREG are the lanes of their registers. -/
theorem operandBytesAreTheRegisterLanes : Obligations.OperandBytesAreTheRegisterLanes := fun s =>
  ⟨s.keyBytes_length, s.nonceBytes_length, s.ivBytes_length, seqBytes_toList_getElem? s.key,
    seqBytes_toList_getElem? s.nonce, seqBytes_toList_getElem? s.iv⟩

/-! ### What a step does to the engine state and the flags -/

/-- The engine state with its command word, and the flags of CTRL and STATUS (10_state.md R21, R26, R28). -/
structure Flags where
  fsm : Fsm
  cmdw : Word
  irqEn : Bool
  done : Bool
  ovr : Bool

/-- The flags of a state. -/
def State.flags (s : State) : Flags := ⟨s.fsm, s.cmdw, s.irqEn, s.done, s.ovr⟩

/-- The flags a step from `s` may leave, each change with its cause. -/
inductive FlagStep (s : State) : Flags → Prop where
  /-- Nothing of the flags changes. -/
  | kept : FlagStep s s.flags
  /-- The engine's completion (60_exceptions.md R274). -/
  | completion (h : s.turn = .engine) : FlagStep s { s.flags with fsm := .idle, done := true }
  /-- A reset, hardware or soft (70_reset_and_hazards.md R300, R301). -/
  | reset (h : s.resetsNext) : FlagStep s State.reset.flags
  /-- A write dropped at a gated target while BUSY (46_host_bus.md R244). -/
  | dropped {w : Nat} {d : Word} {st : BitVec 4} (hb : s.fsm = .busy) (h : s.writesNext w d st)
      (hg : gatedAddr w) (hst : st ≠ 0) : FlagStep s { s.flags with ovr := true }
  /-- A CTRL write without a soft reset (46_host_bus.md R245). -/
  | enable {d : Word} (h : s.writesNext 0x008 d 0xF) (hr : d.getLsbD 1 = false) :
      FlagStep s { s.flags with irqEn := d.getLsbD 0 }
  /-- The issue of a command (46_host_bus.md R246). -/
  | issue {d : Word} (h : s.writesNext 0x00C d 0xF) :
      FlagStep s { s.flags with fsm := .busy, cmdw := d, done := false }
  /-- A STATUS write (46_host_bus.md R247). -/
  | status {d : Word} (h : s.writesNext 0x010 d 0xF) :
      FlagStep s { s.flags with done := s.done && !d.getLsbD 1, ovr := s.ovr && !d.getLsbD 3 }

@[simp] theorem State.flags_hardReset (s : State) : s.hardReset.flags = State.reset.flags := rfl

@[simp] theorem State.flags_complete (s : State) (r : Except Err Output) :
    (s.complete r).flags = { s.flags with fsm := .idle, done := true } := by
  simp [State.flags]

@[simp] theorem State.flags_issue (s : State) (w : Word) :
    (s.issue w).flags = { s.flags with fsm := .busy, cmdw := w, done := false } := by
  simp [State.flags]

theorem State.flags_writeCtrl_of_srst (s : State) {d : Word} (h : d.getLsbD 1 = true) :
    (s.writeCtrl d).flags = State.reset.flags := by
  rw [State.writeCtrl, if_pos h, State.flags_hardReset]

theorem State.flags_writeCtrl_of_no_srst (s : State) {d : Word} (h : d.getLsbD 1 = false) :
    (s.writeCtrl d).flags = { s.flags with irqEn := d.getLsbD 0 } := by
  rw [State.writeCtrl, if_neg (Bool.eq_false_iff.mp h)]
  rfl

theorem State.flags_writeStatus (s : State) (d : Word) :
    (s.writeStatus d).flags =
      { s.flags with done := s.done && !d.getLsbD 1, ovr := s.ovr && !d.getLsbD 3 } := by
  unfold State.writeStatus
  split <;> split <;> simp_all [State.flags]

/-- The flags after the WR a step performs. -/
theorem flagStep_busWrite {s : State} {x : BitVec 64} {rest : List Event} {a : BitVec 18} {d : Word}
    {st : BitVec 4} (ht : s.turn = .host (.txn x) rest) (hd : decodeBus x = .ok (.wr a d st)) :
    FlagStep s (({ s with inputs := rest, wait := s.wait - 1 } : State).busWrite a d st).flags := by
  have hw : s.writesNext (wordAddr a) d st := ⟨x, rest, a, ht, hd, rfl⟩
  rcases State.busWrite_shapes { s with inputs := rest, wait := s.wait - 1 } a d st with
    e | ⟨hst, hg, hb, e⟩ | ⟨rfl, ha, e⟩ | ⟨rfl, ha, -, e⟩ | ⟨rfl, ha, e⟩ | ⟨-, -, _, _, _, _, _, _, _, e⟩ |
    ⟨-, -, o, e⟩ <;> rw [e]
  · exact .kept
  · exact .dropped hb hw ((target_gated_iff a).mp hg) hst
  · rw [ha] at hw
    cases hr : d.getLsbD 1 with
    | true => exact State.flags_writeCtrl_of_srst _ hr ▸ .reset (.inr ⟨d, hw, hr⟩)
    | false => exact State.flags_writeCtrl_of_no_srst _ hr ▸ .enable hw hr
  · exact State.flags_issue _ d ▸ .issue (ha ▸ hw)
  · exact State.flags_writeStatus _ d ▸ .status (ha ▸ hw)
  · exact .kept
  · exact .kept

/-- Every step leaves the flags in one of the ways of `FlagStep`. -/
theorem flagStep_of_step {s t : State} (h : step s = .next t) : FlagStep s t.flags := by
  rcases step_cases h with ⟨-, rfl⟩ | ⟨ht, rfl⟩ | ⟨rest, ht, rfl⟩ | ⟨_, rest, a, -, -, rfl⟩ |
    ⟨_, rest, a, d, st, ht, hd, rfl⟩
  · exact .kept
  · exact State.flags_complete _ _ ▸ .completion ht
  · exact .reset (.inl ⟨rest, ht⟩)
  · exact .kept
  · exact flagStep_busWrite ht hd

namespace FlagStep

variable {s : State} {f : Flags}

/-- Only an issue makes an IDLE engine BUSY. -/
theorem idle_to_busy (h : FlagStep s f) (hi : s.fsm = .idle) (hb : f.fsm = .busy) :
    s.writesNext 0x00C f.cmdw 0xF := by
  cases h with
  | issue hw => exact hw
  | completion | reset => cases hb
  | kept | dropped | enable | status => cases hi.symm.trans hb

/-- Only a completion or a reset makes a BUSY engine IDLE. -/
theorem busy_to_idle (h : FlagStep s f) (hb : s.fsm = .busy) (hi : f.fsm = .idle) :
    s.turn = .engine ∨ s.resetsNext := by
  cases h with
  | completion ht => exact .inl ht
  | reset hr => exact .inr hr
  | issue => cases hi
  | kept | dropped | enable | status => cases hb.symm.trans hi

/-- Only a completion sets DONE. -/
theorem done_set (h : FlagStep s f) (h0 : s.done = false) (h1 : f.done = true) : s.turn = .engine := by
  cases h with
  | completion ht => exact ht
  | reset | issue => cases h1
  | status => simp [h0] at h1
  | kept | dropped | enable => cases h0.symm.trans h1

/-- What clears DONE. -/
theorem done_cleared (h : FlagStep s f) (h1 : s.done = true) (h0 : f.done = false) :
    (∃ d, s.writesNext 0x010 d 0xF ∧ d.getLsbD 1 = true) ∨ (∃ d, s.writesNext 0x00C d 0xF) ∨
      s.resetsNext := by
  cases h with
  | @status d hw => exact .inl ⟨d, hw, by simpa [h1] using h0⟩
  | @issue d hw => exact .inr (.inl ⟨d, hw⟩)
  | reset hr => exact .inr (.inr hr)
  | completion => cases h0
  | kept | dropped | enable => cases h1.symm.trans h0

/-- Only a dropped write sets OVR. -/
theorem ovr_set (h : FlagStep s f) (h0 : s.ovr = false) (h1 : f.ovr = true) :
    s.fsm = .busy ∧ ∃ w d st, s.writesNext w d st ∧ gatedAddr w ∧ st ≠ 0 := by
  cases h with
  | dropped hb hw hg hst => exact ⟨hb, _, _, _, hw, hg, hst⟩
  | reset => cases h1
  | status => simp [h0] at h1
  | kept | completion | enable | issue => cases h0.symm.trans h1

/-- What clears OVR. -/
theorem ovr_cleared (h : FlagStep s f) (h1 : s.ovr = true) (h0 : f.ovr = false) :
    (∃ d, s.writesNext 0x010 d 0xF ∧ d.getLsbD 3 = true) ∨ s.resetsNext := by
  cases h with
  | @status d hw => exact .inl ⟨d, hw, by simpa [h1] using h0⟩
  | reset hr => exact .inr hr
  | dropped => cases h0
  | kept | completion | enable | issue => cases h1.symm.trans h0

end FlagStep

/-- Settles O32, by what a step can do to the flags. -/
theorem theEngineStateMovesOnlyByIssueCompletionAndReset :
    Obligations.TheEngineStateMovesOnlyByIssueCompletionAndReset := by
  intro s t hstep
  have h := flagStep_of_step hstep
  exact ⟨h.idle_to_busy, h.busy_to_idle⟩

/-- Settles O33, by what a step can do to the flags. -/
theorem doneAndOvrChangeOnlyAsTheirTableSays : Obligations.DoneAndOvrChangeOnlyAsTheirTableSays := by
  intro s t hstep
  have h := flagStep_of_step hstep
  exact ⟨h.done_set, h.done_cleared, h.ovr_set, h.ovr_cleared⟩

/-! ### Host steps under another key -/

/-- The state with another key in KEY0..KEY7. -/
def State.withKey (s : State) (k : Vector Word 8) : State := { s with key := k }

/-- Two states that differ at most in KEY0..KEY7. -/
def SameButKey (s s' : State) : Prop := ∃ k, s' = s.withKey k

theorem sameButKey_iff {s s' : State} : SameButKey s s' ↔ s' = { s with key := s'.key } :=
  ⟨by rintro ⟨k, rfl⟩; rfl, fun h => ⟨s'.key, h⟩⟩

theorem SameButKey.refl (s : State) : SameButKey s s := ⟨s.key, rfl⟩

@[simp] theorem State.turn_withKey (s : State) (k : Vector Word 8) : (s.withKey k).turn = s.turn := rfl

/-- The KEY registers read 0 whatever they hold (10_state.md R31), and no other read sees them. -/
theorem State.busRead_withKey (s : State) (k : Vector Word 8) (a : BitVec 18) :
    (s.withKey k).busRead a = s.busRead a := by
  have hreg (r : Reg) : (s.withKey k).readReg r = s.readReg r := by cases r <;> rfl
  unfold State.busRead
  cases target a with
  | reg r => exact hreg r
  | _ => rfl

theorem State.writeCtrl_withKey (s : State) (k : Vector Word 8) (d : Word) :
    SameButKey (s.writeCtrl d) ((s.withKey k).writeCtrl d) := by
  unfold State.writeCtrl
  split
  · exact .refl _
  · exact ⟨k, rfl⟩

theorem State.drawWait_withKey (s : State) (k : Vector Word 8) :
    (s.withKey k).drawWait = s.drawWait.withKey k := by
  cases hl : s.latencies with
  | nil => rw [s.drawWait_of_nil hl, (s.withKey k).drawWait_of_nil hl]; rfl
  | cons n rest => rw [s.drawWait_of_cons n rest hl, (s.withKey k).drawWait_of_cons n rest hl]; rfl

theorem State.issue_withKey (s : State) (k : Vector Word 8) (w : Word) :
    (s.withKey k).issue w = (s.issue w).withKey k :=
  (s.accept w).drawWait_withKey k

theorem State.writeStatus_withKey (s : State) (k : Vector Word 8) (d : Word) :
    (s.withKey k).writeStatus d = (s.writeStatus d).withKey k := by
  unfold State.writeStatus
  split <;> split <;> rfl

/-- A write of a register does to every other field what it does under another key. -/
theorem State.writeReg_withKey (s : State) (k : Vector Word 8) (r : Reg) (d : Word) :
    SameButKey (s.writeReg r d) ((s.withKey k).writeReg r d) := by
  cases r with
  | ctrl => exact s.writeCtrl_withKey k d
  | cmd => exact ⟨k, s.issue_withKey k d⟩
  | status => exact ⟨k, s.writeStatus_withKey k d⟩
  | key i => exact ⟨k.set i d, rfl⟩
  | _ => exact ⟨k, rfl⟩

theorem State.writeTarget_withKey (s : State) (k : Vector Word 8) (t : Target) (d : Word) (st : BitVec 4) :
    SameButKey (s.writeTarget t d st) ((s.withKey k).writeTarget t d st) := by
  cases t with
  | reg r => exact s.writeReg_withKey k r d
  | _ => exact ⟨k, rfl⟩

/-- Whether a write is performed or dropped does not depend on the key, and neither does what it does. -/
theorem State.busWrite_withKey (s : State) (k : Vector Word 8) (a : BitVec 18) (d : Word) (st : BitVec 4) :
    SameButKey (s.busWrite a d st) ((s.withKey k).busWrite a d st) := by
  have hfsm : (s.withKey k).fsm = s.fsm := rfl
  simp only [State.busWrite, hfsm]
  split
  · exact ⟨k, rfl⟩
  split
  · exact ⟨k, rfl⟩
  split
  · exact ⟨k, rfl⟩
  · exact s.writeTarget_withKey k _ d st

/-- A step that is not the engine's is the same under another key. -/
theorem step_withKey {s t : State} (k : Vector Word 8) (hne : s.turn ≠ .engine) (h : step s = .next t) :
    ∃ t', step (s.withKey k) = .next t' ∧ SameButKey t t' := by
  rcases step_cases h with ⟨ht, rfl⟩ | ⟨ht, -⟩ | ⟨rest, ht, rfl⟩ | ⟨x, rest, a, ht, hd, rfl⟩ |
    ⟨x, rest, a, d, st, ht, hd, rfl⟩
  · exact ⟨_, step_of_quiet ((State.turn_withKey _ k).trans ht), k, rfl⟩
  · exact absurd ht hne
  · exact ⟨_, step_of_reset ((s.turn_withKey k).trans ht), .refl _⟩
  · exact ⟨_, step_of_txn ((s.turn_withKey k).trans ht) hd, k,
      congrArg (State.respond _) (State.busRead_withKey _ k a)⟩
  · exact ⟨_, step_of_txn ((s.turn_withKey k).trans ht) hd, State.busWrite_withKey _ k a d st⟩

/-- Settles O35: the turn, what a read returns and what a write does do not depend on the key. -/
theorem hostStepsLearnNothingOfTheKey : Obligations.HostStepsLearnNothingOfTheKey := by
  intro s s' t hne hs' hstep
  obtain ⟨k, rfl⟩ := sameButKey_iff.mpr hs'
  obtain ⟨t', ht', hsame⟩ := step_withKey k hne hstep
  exact ⟨t', ht', sameButKey_iff.mp hsame⟩

end Sys2Proof.Machine

/-! PROOFS for 20_memory.md: the address bits within a word are ignored (O12). -/

namespace Sys2Proof.Machine

theorem exec_rd (a : BitVec 18) (s : State) : exec (.rd a) s = .next (s.respond (s.busRead a)) := rfl

theorem exec_wr (a : BitVec 18) (d : Word) (st : BitVec 4) (s : State) :
    exec (.wr a d st) s = .next (s.busWrite a d st) := rfl

/-- A read depends on its address through the target alone (46_host_bus.md R241). -/
theorem State.busRead_congr (s : State) {a b : BitVec 18} (h : target a = target b) :
    s.busRead a = s.busRead b := by
  simp only [State.busRead, h]

/-- A write depends on its address through the target alone (46_host_bus.md R242). -/
theorem State.busWrite_congr (s : State) {a b : BitVec 18} (d : Word) (st : BitVec 4)
    (h : target a = target b) : s.busWrite a d st = s.busWrite b d st := by
  simp only [State.busWrite, h]

/-- Settles O12: two addresses of one word have one target. -/
theorem lowAddressBitsAreIgnored : Obligations.LowAddressBitsAreIgnored := by
  intro a b d st s hword
  have htarget : target a = target b := target_congr hword
  constructor
  · rw [exec_rd, exec_rd, s.busRead_congr htarget]
  · rw [exec_wr, exec_wr, s.busWrite_congr d st htarget]

end Sys2Proof.Machine

/-! PROOFS for 30_encoding.md: encoder and decoders are inverse (O1 to O6), which steps are refused (O9), an
illegal command word (O26), and the expansions LOADKEY and FILL (O55, O56). -/

namespace Sys2Proof.Machine

/-! ### BUS64 words, R85 and R86 -/

/-- An RD word, field by field (30_encoding.md R85). -/
def IsRdWord (w : BitVec 64) : Prop :=
  w.extractLsb' 63 1 = 0 ∧ w.extractLsb' 60 3 = 0 ∧ w.extractLsb' 56 4 = 0 ∧ w.extractLsb' 50 6 = 0 ∧
    w.extractLsb' 0 32 = 0

/-- A WR word, field by field (30_encoding.md R85). -/
def IsWrWord (w : BitVec 64) : Prop :=
  w.extractLsb' 63 1 = 1 ∧ w.extractLsb' 60 3 = 0 ∧ w.extractLsb' 50 6 = 0

/-- A word with Z0 = Z1 = 0 is made of its other fields. -/
theorem bus64Word_fields {w : BitVec 64} (hz0 : w.extractLsb' 60 3 = 0) (hz1 : w.extractLsb' 50 6 = 0) :
    bus64Word (w.extractLsb' 63 1) (w.extractLsb' 56 4) (w.extractLsb' 32 18) (w.extractLsb' 0 32) = w := by
  apply BitVec.eq_of_getLsbD_eq
  intro i hi
  have bit0 (j : Nat) (hj : j < 3) : w.getLsbD (60 + j) = false := by
    simpa [BitVec.getLsbD_extractLsb', hj] using congrArg (fun v => v.getLsbD j) hz0
  have bit1 (j : Nat) (hj : j < 6) : w.getLsbD (50 + j) = false := by
    simpa [BitVec.getLsbD_extractLsb', hj] using congrArg (fun v => v.getLsbD j) hz1
  simp only [bus64Word_getLsbD, BitVec.getLsbD_extractLsb']
  split
  · next hdata => simp [hdata]
  split
  · simp [show i - 32 < 18 by omega, show 32 + (i - 32) = i by omega]
  split
  · simpa [show 50 + (i - 50) = i by omega] using (bit1 (i - 50) (by omega)).symm
  split
  · simp [show i - 56 < 4 by omega, show 56 + (i - 56) = i by omega]
  split
  · simpa [show 60 + (i - 60) = i by omega] using (bit0 (i - 60) (by omega)).symm
  · simp [show i - 63 < 1 by omega, show 63 + (i - 63) = i by omega]

theorem IsRdWord.bus64Word_eq {w : BitVec 64} (h : IsRdWord w) :
    bus64Word 0 0 (w.extractLsb' 32 18) 0 = w := by
  obtain ⟨hwe, hz0, hstrb, hz1, hdata⟩ := h
  simpa only [hwe, hstrb, hdata] using bus64Word_fields hz0 hz1

theorem IsWrWord.bus64Word_eq {w : BitVec 64} (h : IsWrWord w) :
    bus64Word 1 (w.extractLsb' 56 4) (w.extractLsb' 32 18) (w.extractLsb' 0 32) = w := by
  obtain ⟨hwe, hz0, hz1⟩ := h
  simpa only [hwe] using bus64Word_fields hz0 hz1

/-- A field of a masked word that the mask keeps whole. -/
theorem extractLsb'_of_masked {w m p : BitVec 64} (h : w &&& m = p) (off n : Nat)
    (hm : m.extractLsb' off n = BitVec.allOnes n) : w.extractLsb' off n = p.extractLsb' off n := by
  rw [← h, BitVec.extractLsb'_and, hm, BitVec.and_allOnes]

/-- The RD mask of R86 keeps every field but ADDR. -/
theorem isRdWord_of_masked {w : BitVec 64} (h : w &&& 0xFFFC0000FFFFFFFF#64 = 0#64) : IsRdWord w :=
  ⟨extractLsb'_of_masked h 63 1 rfl, extractLsb'_of_masked h 60 3 rfl, extractLsb'_of_masked h 56 4 rfl,
    extractLsb'_of_masked h 50 6 rfl, extractLsb'_of_masked h 0 32 rfl⟩

/-- The WR mask of R86 keeps WE, Z0 and Z1. -/
theorem isWrWord_of_masked {w : BitVec 64} (h : w &&& 0xF0FC000000000000#64 = 0x8000000000000000#64) :
    IsWrWord w :=
  ⟨extractLsb'_of_masked h 63 1 rfl, extractLsb'_of_masked h 60 3 rfl, extractLsb'_of_masked h 50 6 rfl⟩

theorem decodeBus_rd (a : BitVec 18) : decodeBus (bus64Word 0 0 a 0) = .ok (.rd a) := by
  rw [decodeBus, if_pos (bus64Word_rd_masked a), bus64Word_addr]

theorem decodeBus_wr (a : BitVec 18) (d : Word) (st : BitVec 4) :
    decodeBus (bus64Word 1 st a d) = .ok (.wr a d st) := by
  rw [decodeBus, if_neg (bus64Word_wr_rdMasked a d st), if_pos (bus64Word_wr_masked a d st), bus64Word_addr,
    bus64Word_data, bus64Word_strb]

theorem IsRdWord.decodeBus_eq {w : BitVec 64} (h : IsRdWord w) :
    decodeBus w = .ok (.rd (w.extractLsb' 32 18)) := by
  simpa only [h.bus64Word_eq] using decodeBus_rd (w.extractLsb' 32 18)

theorem IsWrWord.decodeBus_eq {w : BitVec 64} (h : IsWrWord w) :
    decodeBus w = .ok (.wr (w.extractLsb' 32 18) (w.extractLsb' 0 32) (w.extractLsb' 56 4)) := by
  simpa only [h.bus64Word_eq] using
    decodeBus_wr (w.extractLsb' 32 18) (w.extractLsb' 0 32) (w.extractLsb' 56 4)

/-- Every other word is refused (30_encoding.md R86). -/
theorem decodeBus_of_neither {w : BitVec 64} (hrd : ¬ IsRdWord w) (hwr : ¬ IsWrWord w) :
    decodeBus w = .error (.notATransaction w) := by
  rw [decodeBus, if_neg (mt isRdWord_of_masked hrd), if_neg (mt isWrWord_of_masked hwr)]

/-- A 64-bit word that decodes is the encoding of what it decodes to. -/
theorem encode_of_decodeBus {w : BitVec 64} {i : Instr} (h : decodeBus w = .ok i) : encode i = .bus64 w := by
  by_cases hrd : IsRdWord w
  · obtain rfl := Except.ok.inj (hrd.decodeBus_eq.symm.trans h)
    exact congrArg CodeWord.bus64 hrd.bus64Word_eq
  by_cases hwr : IsWrWord w
  · obtain rfl := Except.ok.inj (hwr.decodeBus_eq.symm.trans h)
    exact congrArg CodeWord.bus64 hwr.bus64Word_eq
  · cases (decodeBus_of_neither hrd hwr).symm.trans h

/-- Settles O4: the two masks of R86 by the fields they keep. -/
theorem busWordsDecodeByTheirFields : Obligations.BusWordsDecodeByTheirFields := by
  intro w
  refine ⟨fun h => IsRdWord.decodeBus_eq h, fun h => IsWrWord.decodeBus_eq h, fun hrd hwr => ?_⟩
  have hd := decodeBus_of_neither hrd hwr
  exact ⟨hd, fun s rest ht => step_of_notATransaction ht hd⟩

/-! ### CMD32 words, R81 to R83 -/

/-- A command word is its RSV and OP fields (30_encoding.md R81). -/
theorem cmdWord_ext {w v : Word} (hrsv : cmdRsv w = cmdRsv v) (hop : cmdOp w = cmdOp v) : w = v := by
  have h1 := congrArg BitVec.toNat hrsv
  have h2 := congrArg BitVec.toNat hop
  simp only [cmdRsv, cmdOp, BitVec.extractLsb'_toNat, Nat.shiftRight_eq_div_pow] at h1 h2
  apply BitVec.eq_of_toNat_eq
  omega

/-- Settles O5: RSV = 0 and OP together fix the word. -/
theorem commandWordsAreTheFourNumbers : Obligations.CommandWordsAreTheFourNumbers := by
  intro w i
  constructor
  · intro h
    unfold decodeCmd at h
    by_cases hrsv : cmdRsv w = 0
    swap
    · rw [if_pos hrsv] at h
      cases h
    rw [if_neg (not_not.mpr hrsv)] at h
    split at h
    · next hop => exact .inl ⟨cmdWord_ext hrsv hop, (Except.ok.inj h).symm⟩
    split at h
    · next hop => exact .inr (.inl ⟨cmdWord_ext hrsv hop, (Except.ok.inj h).symm⟩)
    split at h
    · next hop => exact .inr (.inr (.inl ⟨cmdWord_ext hrsv hop, (Except.ok.inj h).symm⟩))
    split at h
    · next hop => exact .inr (.inr (.inr ⟨cmdWord_ext hrsv hop, (Except.ok.inj h).symm⟩))
    · cases h
  · rintro (⟨rfl, rfl⟩ | ⟨rfl, rfl⟩ | ⟨rfl, rfl⟩ | ⟨rfl, rfl⟩) <;> rfl

/-- A command word that decodes is the encoding of what it decodes to. -/
theorem encode_of_decodeCmd {w : Word} {i : Instr} (h : decodeCmd w = .ok i) : encode i = .cmd32 w := by
  rcases (commandWordsAreTheFourNumbers w i).mp h with ⟨rfl, rfl⟩ | ⟨rfl, rfl⟩ | ⟨rfl, rfl⟩ | ⟨rfl, rfl⟩ <;>
    rfl

/-! ### Both formats -/

/-- Settles O2, format by format. -/
theorem decodeOfEncodeIsTheInstruction : Obligations.DecodeOfEncodeIsTheInstruction := by
  intro i
  cases i with
  | rd a => exact decodeBus_rd a
  | wr a d st => exact decodeBus_wr a d st
  | encode | decode | decodeXiv | decodeLenient => rfl

/-- Settles O3, format by format. -/
theorem encodeOfDecodeIsTheWord : Obligations.EncodeOfDecodeIsTheWord := by
  intro c i h
  cases c with
  | bus64 w => exact encode_of_decodeBus h
  | cmd32 w => exact encode_of_decodeCmd h

/-- Settles O1: each word is a literal. -/
theorem specWordsDecodeAsWritten : Obligations.SpecWordsDecodeAsWritten := by
  unfold Obligations.SpecWordsDecodeAsWritten
  decide

/-! ### The opcode table -/

/-- Two rows of one length whose patterns agree on every bit both masks keep are the same row. -/
theorem opcodeTable_distinct : ∀ r ∈ opcodeTable, ∀ r' ∈ opcodeTable,
    r.bits = r'.bits → r.pattern &&& r'.mask = r'.pattern &&& r.mask → r = r' := by
  decide

/-- The word of every instruction matches exactly the rows of its mnemonic. -/
theorem matches_encode_iff {r : OpcodeRow} (hr : r ∈ opcodeTable) (i : Instr) :
    r.matches (encode i) = true ↔ r.mnemonic = mnemonic i := by
  cases i with
  | rd a => exact Laws.TableRow.rd a r hr
  | wr a d st => exact Laws.TableRow.wr a d st r hr
  | encode => exact Laws.TableRow.encode r hr
  | decode => exact Laws.TableRow.decode r hr
  | decodeXiv => exact Laws.TableRow.decodeXiv r hr
  | decodeLenient => exact Laws.TableRow.decodeLenient r hr

/-- Every instruction has a row. -/
theorem exists_row (i : Instr) : ∃ r ∈ opcodeTable, r.mnemonic = mnemonic i := by
  cases i <;> simp [opcodeTable, mnemonic]

/-- Settles O6: any two rows differ at a bit both masks keep, and an instruction's word matches its row. -/
theorem opcodeRowsDoNotOverlap : Obligations.OpcodeRowsDoNotOverlap := by
  refine ⟨fun c r r' hr hr' hm hm' => ?_, fun c i hd => ?_⟩
  · simp only [OpcodeRow.matches, Bool.and_eq_true, beq_iff_eq] at hm hm'
    obtain ⟨hbits, hpat⟩ := hm
    obtain ⟨hbits', hpat'⟩ := hm'
    refine opcodeTable_distinct r hr r' hr' (hbits.trans hbits'.symm) ?_
    rw [← hpat, ← hpat', Nat.land_assoc, Nat.land_assoc, Nat.land_comm r.mask]
  · obtain ⟨r, hr, hname⟩ := exists_row i
    rw [← encodeOfDecodeIsTheWord c i hd]
    exact ⟨r, hr, hname, (matches_encode_iff hr i).mpr hname⟩

/-! ### Refused steps -/

/-- A step is refused only for a host word that is no transaction. -/
theorem step_refused {s : State} {r : Refusal} (h : step s = .refused r) :
    ∃ w rest, s.turn = .host (.txn w) rest ∧ isTransaction w = false ∧ r = .notATransaction w := by
  cases ht : s.turn with
  | quiet => cases (step_of_quiet ht).symm.trans h
  | engine => cases (step_of_engine ht).symm.trans h
  | host e rest =>
    cases e with
    | reset => cases (step_of_reset ht).symm.trans h
    | txn w =>
      rcases decodeBus_cases w with ⟨a, hd⟩ | ⟨a, d, st, hd⟩ | hd
      · cases (step_of_txn ht hd).symm.trans h
      · cases (step_of_txn ht hd).symm.trans h
      · have hr := Host.Outcome.refused.inj ((step_of_notATransaction ht hd).symm.trans h)
        exact ⟨w, rest, rfl, (isTransaction_iff w).mpr hd, hr.symm⟩

@[simp] theorem State.writeCtrl_inputs (s : State) (d : Word) : (s.writeCtrl d).inputs = s.inputs := by
  unfold State.writeCtrl
  split <;> rfl

@[simp] theorem State.writeStatus_inputs (s : State) (d : Word) : (s.writeStatus d).inputs = s.inputs := by
  unfold State.writeStatus
  split <;> split <;> rfl

@[simp] theorem State.writeIn_inputs (s : State) (o : Nat) (d : Word) (st : BitVec 4) :
    (s.writeIn o d st).inputs = s.inputs := rfl

@[simp] theorem State.busWrite_inputs (s : State) (a : BitVec 18) (d : Word) (st : BitVec 4) :
    (s.busWrite a d st).inputs = s.inputs := by
  rcases s.busWrite_shapes a d st with e | ⟨-, -, -, e⟩ | ⟨-, -, e⟩ | ⟨-, -, -, e⟩ | ⟨-, -, e⟩ |
    ⟨-, -, _, _, _, _, _, _, _, e⟩ | ⟨-, -, o, e⟩ <;> simp [e]

/-- A step takes at most the first of the host's events. -/
theorem step_inputs_suffix {s t : State} (h : step s = .next t) : t.inputs <:+ s.inputs := by
  have tail {e : Event} {rest : List Event} (ht : s.turn = .host e rest) : rest <:+ s.inputs :=
    ((turn_host_iff s e rest).mp ht).1 ▸ List.suffix_cons e rest
  rcases step_cases h with ⟨-, rfl⟩ | ⟨-, rfl⟩ | ⟨rest, ht, rfl⟩ | ⟨w, rest, a, ht, -, rfl⟩ |
    ⟨w, rest, a, d, st, ht, -, rfl⟩
  · exact List.suffix_refl _
  · simp
  · exact tail ht
  · exact tail ht
  · simpa using tail ht

/-- From well-formed host events a step answers a next state, whose host events are well-formed. -/
theorem step_of_inputsWf {s : State} (hwf : s.inputsWf = true) :
    ∃ t, step s = .next t ∧ t.inputsWf = true := by
  unfold State.inputsWf at hwf ⊢
  rw [List.all_eq_true] at hwf
  cases h : step s with
  | next t =>
    exact ⟨t, rfl, List.all_eq_true.mpr fun e he => hwf e ((step_inputs_suffix h).subset he)⟩
  | fault r => cases r
  | refused r =>
    obtain ⟨w, rest, ht, hw, -⟩ := step_refused h
    have hin := ((turn_host_iff _ _ _).mp ht).1
    have : isTransaction w = true := hwf (.txn w) (by simp [hin])
    simp [hw] at this

/-- Settles O9, by the turns of a refused step, and by induction on the number of steps. -/
theorem onlyIllFormedHostWordsAreRefused : Obligations.OnlyIllFormedHostWordsAreRefused := by
  refine ⟨fun s r h => step_refused h, fun s k hwf => ?_⟩
  induction k generalizing s with
  | zero => exact ⟨s, rfl, hwf⟩
  | succ k ih =>
    obtain ⟨t, ht, hwf'⟩ := step_of_inputsWf hwf
    rw [run_succ k ht]
    exact ih t hwf'

/-! ### Illegal command words, R83 -/

/-- RSV not 0, OP 0 or OP 5 to 15: none of the four numbers. -/
theorem decodeCmd_of_illegal {d : Word}
    (h : d.extractLsb' 4 28 ≠ 0 ∨ d.extractLsb' 0 4 = 0 ∨ 5 ≤ (d.extractLsb' 0 4).toNat) :
    decodeCmd d = .error (.illegalCommand d) := by
  have not_ok {i : Instr} (hd : decodeCmd d = .ok i) : False := by
    rcases (commandWordsAreTheFourNumbers d i).mp hd with ⟨rfl, -⟩ | ⟨rfl, -⟩ | ⟨rfl, -⟩ | ⟨rfl, -⟩ <;>
      exact absurd h (by decide)
  rcases decodeCmd_cases d with hd | hd | hd | hd | hd
  · exact (not_ok hd).elim
  · exact (not_ok hd).elim
  · exact (not_ok hd).elim
  · exact (not_ok hd).elim
  · exact hd

/-- Settles O26: the CMD write issues any word, and the engine completes an illegal one. -/
theorem illegalWordsCompleteWithIllegalCommand : Obligations.IllegalWordsCompleteWithIllegalCommand := by
  intro d hd
  refine ⟨fun a s ha hi => ?_, fun s hb hc hturn => ?_⟩
  · have ht : target a = .reg .cmd := target_eq_reg (o := 0x00C) ha rfl (by omega)
    rw [exec_wr, State.busWrite_reg d ht (.inr hi)]
    exact ⟨_, rfl, State.issue_fsm s d, State.issue_cmdw s d⟩
  · exact step_of_illegal ((turn_engine_iff s).mpr ⟨hb, hturn⟩) (hc ▸ decodeCmd_of_illegal hd)

/-! ### Lists of instructions -/

theorem execList_append {is : List Instr} {s t : State} (h : execList is s = .next t) (js : List Instr) :
    execList (is ++ js) s = execList js t := by
  induction is generalizing s with
  | nil => rw [← Host.Outcome.next.inj h]; rfl
  | cons i is ih =>
    obtain ⟨u, hu⟩ := exec_next i s
    simp only [List.cons_append, execList, hu] at h ⊢
    exact ih h

/-- A loop: if the t-th instruction leads from the t-th state to the next one, all of them lead from the
first state to the last. -/
theorem execList_range {f : Nat → Instr} {g : Nat → State} {n : Nat}
    (h : ∀ t < n, exec (f t) (g t) = .next (g (t + 1))) :
    execList ((List.range n).map f) (g 0) = .next (g n) := by
  induction n with
  | zero => rfl
  | succ n ih =>
    rw [List.range_succ, List.map_append, execList_append (ih fun t ht => h t (by omega))]
    simp only [List.map_cons, List.map_nil, execList, h n (by omega)]

/-! ### Words of a byte sequence, R89 -/

/-- Byte 4i+j of a sequence is lane j of its i-th word. -/
theorem lane_seqWord (bs : List Byte) (i : Nat) {j : Nat} (hj : j < 4) :
    lane (seqWord bs i) j = bs.getD (4 * i + j) 0 := by
  rw [seqWord, lane_wordOfLanes _ _ _ _ _ hj]
  interval_cases j <;> rfl

/-- The words of a sequence of 4n bytes hold that sequence. -/
theorem seqBytes_seqWord {k : List Byte} {n : Nat} (hk : k.length = 4 * n) :
    seqBytes ((List.range n).map (seqWord k)) = k := by
  refine bytes_ext (by simp [hk]) fun x hx => ?_
  have hx' : x / 4 < n := by simp at hx; omega
  have hsplit : 4 * (x / 4) + x % 4 = x := by omega
  have hlane := lane_seqWord k (x / 4) (Nat.mod_lt x (by decide : 0 < 4))
  have hget := seqBytes_getElem? ((List.range n).map (seqWord k)) (x / 4) (Nat.mod_lt x (by decide : 0 < 4))
  rw [hsplit] at hlane hget
  simp [List.getD_eq_getElem?_getD, hget, hx', hlane]

/-! ### LOADKEY -/

/-- A register's name stands for an address that leads to it (30_encoding.md R88). -/
theorem target_offset (r : Reg) : target (BitVec.ofNat 18 r.offset) = .reg r := by
  cases r with
  | key i => revert i; decide
  | nonce i => revert i; decide
  | iv i => revert i; decide
  | _ => rfl

theorem exec_wrReg {s : State} (hi : s.fsm = .idle) (r : Reg) (d : Word) :
    exec (wrReg r d) s = .next (s.writeReg r d) := by
  rw [wrReg, exec_wr, State.busWrite_reg d (target_offset r) (.inr hi)]

/-- The state with the first `n` KEY registers holding the words of `k`. -/
def State.keyLoaded (s : State) (k : List Byte) (n : Nat) : State :=
  { s with key := Vector.ofFn fun i => if i.val < n then seqWord k i else s.key[i] }

@[simp] theorem State.keyLoaded_fsm (s : State) (k : List Byte) (n : Nat) : (s.keyLoaded k n).fsm = s.fsm := rfl

@[simp] theorem State.keyLoaded_zero (s : State) (k : List Byte) : s.keyLoaded k 0 = s := by
  simp [State.keyLoaded]

/-- One more KEY write loads one more word. -/
theorem State.writeReg_keyLoaded (s : State) (k : List Byte) (i : Fin 8) :
    (s.keyLoaded k i).writeReg (.key i) (seqWord k i) = s.keyLoaded k (i + 1) := by
  refine congrArg (fun v => ({ s with key := v } : State)) (Vector.ext fun j hj => ?_)
  simp only [State.keyLoaded, Vector.getElem_set, Vector.getElem_ofFn]
  by_cases h : i.val = j
  · subst h; simp
  · rw [if_neg h]
    simp only [show j < i.val + 1 ↔ j < i.val by omega]

theorem State.keyBytes_keyLoaded (s : State) {k : List Byte} (hk : k.length = 32) :
    (s.keyLoaded k 8).keyBytes = k := by
  have hwords : (s.keyLoaded k 8).key.toList = (List.range 8).map (seqWord k) := rfl
  rw [State.keyBytes, hwords, seqBytes_seqWord (n := 8) hk]

theorem loadKey_expand (k : List Byte) : (Pseudo.loadKey k).expand =
    (List.range 8).map (fun i => wrReg (.key (Fin.ofNat 8 i)) (seqWord k i)) ++ [wrReg .keyLen 32] := rfl

/-- The eight KEY writes of LOADKEY. -/
theorem execList_keyWrites {s : State} (hi : s.fsm = .idle) (k : List Byte) :
    execList ((List.range 8).map fun i => wrReg (.key (Fin.ofNat 8 i)) (seqWord k i)) s =
      .next (s.keyLoaded k 8) := by
  have hrun := execList_range (g := s.keyLoaded k) (n := 8)
    (f := fun i => wrReg (.key (Fin.ofNat 8 i)) (seqWord k i)) fun i hi8 => by
      have hfin : Fin.ofNat 8 i = ⟨i, hi8⟩ := Fin.ext (Nat.mod_eq_of_lt hi8)
      rw [exec_wrReg ((s.keyLoaded_fsm k i).trans hi), hfin]
      exact congrArg _ (s.writeReg_keyLoaded k ⟨i, hi8⟩)
  rwa [State.keyLoaded_zero] at hrun

/-- Settles O55: each KEY write puts one word of the key in place. -/
theorem loadKeyLoadsTheKey : Obligations.LoadKeyLoadsTheKey := by
  intro s k hi hk
  have hlast : exec (wrReg .keyLen 32) (s.keyLoaded k 8) = .next { s.keyLoaded k 8 with keyLen := 32 } :=
    exec_wrReg ((s.keyLoaded_fsm k 8).trans hi) .keyLen 32
  refine ⟨{ s.keyLoaded k 8 with keyLen := 32 }, ?_, s.keyBytes_keyLoaded hk, rfl⟩
  rw [loadKey_expand, execList_append (execList_keyWrites hi k)]
  simp only [execList, hlast]

/-! ### FILL -/

/-- The four bits of a strobe, bit 0 last. -/
theorem strobe_getLsbD : ∀ b3 b2 b1 b0 : Bool,
    let m : BitVec 4 := BitVec.ofBool b3 ++ BitVec.ofBool b2 ++ BitVec.ofBool b1 ++ BitVec.ofBool b0
    m.getLsbD 0 = b0 ∧ m.getLsbD 1 = b1 ∧ m.getLsbD 2 = b2 ∧ m.getLsbD 3 = b3 := by
  decide

/-- The t-th write of a FILL strobes the lanes that have a byte (30_encoding.md R89). -/
theorem fillStrobe_getLsbD (len t : Nat) {j : Nat} (hj : j < 4) :
    (fillStrobe len t).getLsbD j = true ↔ 4 * t + j < len := by
  obtain ⟨h0, h1, h2, h3⟩ := strobe_getLsbD (4 * t + 3 < len) (4 * t + 2 < len) (4 * t + 1 < len) (4 * t < len)
  rw [← decide_eq_true_iff (p := 4 * t + j < len), ← Bool.eq_iff_iff]
  interval_cases j
  · exact h0
  · exact h1
  · exact h2
  · exact h3

/-- The state with the bytes of the first `t` words of `bs` in IN_BUF from index `o` on. -/
def State.filled (s : State) (o : Nat) (bs : List Byte) (t : Nat) : State :=
  { s with inBuf := s.inBuf.writeBytes o (bs.take (4 * t)) }

@[simp] theorem State.filled_fsm (s : State) (o : Nat) (bs : List Byte) (t : Nat) :
    (s.filled o bs t).fsm = s.fsm := rfl

@[simp] theorem State.filled_params (s : State) (o : Nat) (bs : List Byte) (t : Nat) :
    (s.filled o bs t).params = s.params := rfl

@[simp] theorem State.filled_zero (s : State) (o : Nat) (bs : List Byte) : s.filled o bs 0 = s := rfl

theorem State.filled_all (s : State) (o : Nat) (bs : List Byte) :
    s.filled o bs (wordCount bs.length) = { s with inBuf := s.inBuf.writeBytes o bs } := by
  rw [State.filled, List.take_of_length_le (by unfold wordCount; omega)]

theorem State.filled_inBuf_wf {s : State} (hwf : s.inBuf.wf) (o : Nat) (bs : List Byte) (t : Nat) :
    (s.filled o bs t).inBuf.wf :=
  Memory.writeBytes_wf hwf o _

theorem State.read_filled {s : State} (hwf : s.inBuf.wf) (o : Nat) (bs : List Byte) (t x : Nat) :
    (s.filled o bs t).inBuf.read x =
      if o ≤ x ∧ x < o + 4 * t ∧ x < o + bs.length then bs.getD (x - o) 0 else s.inBuf.read x := by
  rw [State.filled, Memory.read_writeBytes hwf, List.length_take]
  by_cases hx : o ≤ x ∧ x < o + 4 * t ∧ x < o + bs.length
  · rw [if_pos (by omega), if_pos hx, List.getD_eq_getElem?_getD, List.getElem?_take_of_lt (by omega),
      ← List.getD_eq_getElem?_getD]
  · rw [if_neg (by omega), if_neg hx]

/-- The t-th write of a FILL, after those before it, writes the bytes of its word. -/
theorem State.writeIn_filled {s : State} {o t : Nat} {bs : List Byte} (hwf : s.inBuf.wf)
    (hfit : o + bs.length ≤ s.params.bufBytes) :
    (s.filled o bs t).writeIn (o + 4 * t) (seqWord bs t) (fillStrobe bs.length t) = s.filled o bs (t + 1) := by
  have hbefore := State.filled_inBuf_wf hwf o bs t
  have hmem : ((s.filled o bs t).writeIn (o + 4 * t) (seqWord bs t) (fillStrobe bs.length t)).inBuf =
      (s.filled o bs (t + 1)).inBuf := by
    refine Memory.ext_of_read (writeIn_inBuf_wf hbefore _ _ _) (State.filled_inBuf_wf hwf o bs _) fun x => ?_
    rw [read_writeIn hbefore, State.read_filled hwf, State.read_filled hwf, State.filled_params]
    by_cases hx : o + 4 * t ≤ x ∧ x < o + 4 * t + 4
    · obtain ⟨j, rfl⟩ : ∃ j, x = o + 4 * t + j := ⟨x - (o + 4 * t), by omega⟩
      have hj : j < 4 := by omega
      have hidx : o + 4 * t + j - o = 4 * t + j := by omega
      simp only [Nat.add_sub_cancel_left, fillStrobe_getLsbD _ _ hj, lane_seqWord _ _ hj, hidx]
      rw [if_neg (c := o ≤ o + 4 * t + j ∧ _) (by omega)]
      exact if_congr (by omega) rfl rfl
    · rw [if_neg (by omega)]
      exact if_congr (by omega) rfl rfl
  exact congrArg (fun m => ({ s with inBuf := m } : State)) hmem

/-- A write of an IN_BUF word at a multiple of 4, while IDLE. -/
theorem exec_wr_inBuf {s : State} (hi : s.fsm = .idle) {o : Nat} (ho : o % 4 = 0) (hlt : o < 0x10000)
    (d : Word) (st : BitVec 4) :
    exec (.wr (BitVec.ofNat 18 (0x10000 + o)) d st) s = .next (s.writeIn o d st) := by
  have haddr : wordAddr (BitVec.ofNat 18 (0x10000 + o)) = 0x10000 + o := by
    rw [wordAddr_eq, BitVec.toNat_ofNat]; omega
  rw [exec_wr, State.busWrite_inBuf d st hi (by omega) (by omega), haddr, Nat.add_sub_cancel_left]

/-- Settles O56: each write of the expansion extends the bytes in place by one word. -/
theorem fillStoresTheBytes : Obligations.FillStoresTheBytes := by
  intro s o bs hi hwf hparams ho hfit
  obtain ⟨-, -, hcap⟩ := hparams
  have hrun := execList_range (g := s.filled o bs) (n := wordCount bs.length)
    (f := fun t => .wr (BitVec.ofNat 18 (0x10000 + o + 4 * t)) (seqWord bs t) (fillStrobe bs.length t))
    fun t ht => by
      have hlt : o + 4 * t < 0x10000 := by unfold wordCount at ht; omega
      rw [Nat.add_assoc, exec_wr_inBuf ((s.filled_fsm o bs t).trans hi) (by omega) hlt]
      exact congrArg _ (State.writeIn_filled hwf hfit)
  rw [State.filled_zero, State.filled_all] at hrun
  exact ⟨_, hrun, rfl, Memory.read_writeBytes hwf o bs⟩

end Sys2Proof.Machine

/-! PROOFS for 40_cipher.md: the block functions undo each other (O46), CBC decryption undoes encryption
(O47), CBC block by block (O57), and the spread of a ciphertext error (O48). -/

namespace Sys2Proof.Machine

/-! ### The block functions, R100 -/

/-- Rounds n down to 1 of the inverse cipher undo rounds 1 to n, both taken after SubBytes and ShiftRows, where
one round of R338 begins. -/
theorem decRounds_encRounds (ws : List Col) (b : Block) (n : Nat) :
    decRounds ws n (shiftRows (subBytes (encRounds ws b n))) =
      shiftRows (subBytes (b.xor (roundKey ws 0))) := by
  induction n with
  | zero => rfl
  | succ n ih =>
    rw [decRounds, invShiftRows_shiftRows, invSubBytes_subBytes, encRounds, Block.xor_xor_cancel,
      invMixColumns_mixColumns, ih]

/-- The rounds, started where the inverse rounds from `s` ended, come back to `s`. -/
theorem encRounds_decRounds {ws : List Col} {b : Block} {n : Nat} {s : Block}
    (hb : b.xor (roundKey ws 0) = invSubBytes (invShiftRows (decRounds ws n s))) :
    encRounds ws b n = invSubBytes (invShiftRows s) := by
  induction n generalizing s with
  | zero => exact hb
  | succ n ih =>
    rw [encRounds, ih hb, subBytes_invSubBytes, shiftRows_invShiftRows, mixColumns_invMixColumns,
      Block.xor_xor_cancel]

theorem invCipher_cipher (ws : List Col) (b : Block) : invCipher ws (cipher ws b) = b := by
  rw [invCipher, cipher, Block.xor_xor_cancel, decRounds_encRounds, invShiftRows_shiftRows,
    invSubBytes_subBytes, Block.xor_xor_cancel]

theorem cipher_invCipher (ws : List Col) (b : Block) : cipher ws (invCipher ws b) = b := by
  have hrounds : encRounds ws (invCipher ws b) 13 =
      invSubBytes (invShiftRows (b.xor (roundKey ws 14))) :=
    encRounds_decRounds (Block.xor_xor_cancel _ _)
  rw [cipher, hrounds, subBytes_invSubBytes, shiftRows_invShiftRows, Block.xor_xor_cancel]

theorem aesD_aesE (k : List Byte) (b : Block) : aesD k (aesE k b) = b := invCipher_cipher _ b
theorem aesE_aesD (k : List Byte) (b : Block) : aesE k (aesD k b) = b := cipher_invCipher _ b

/-- Settles O46: each transformation of a round undoes its own, so the rounds undo one another. -/
theorem aesInverseUndoesAes : Obligations.AesInverseUndoesAes :=
  fun k b => ⟨aesD_aesE k b, aesE_aesD k b⟩

/-! ### Decryption after encryption, R104 (a) -/

theorem cbcDecBlocks_cbcEncBlocks (k : List Byte) (prev : Block) (ps : List Block) :
    cbcDecBlocks k prev (cbcEncBlocks k prev ps) = ps := by
  induction ps generalizing prev with
  | nil => rfl
  | cons p ps ih => rw [cbcEncBlocks, cbcDecBlocks, aesD_aesE, Block.xor_xor_cancel, ih]

/-- The blocks of a ciphertext are those the loop of `CBC_E` gave (40_cipher.md R102). -/
theorem blocksOf_cbcE (k iv p : List Byte) (h : p.length % 16 = 0) :
    blocksOf ((cbcE k iv p).length / 16) (cbcE k iv p) =
      cbcEncBlocks k (Block.ofBytes iv) (blocksOf (p.length / 16) p) := by
  have hblocks := blocksOf_blocksBytes (cbcEncBlocks k (Block.ofBytes iv) (blocksOf (p.length / 16) p))
  rw [cbcEncBlocks_length, blocksOf_length] at hblocks
  rw [cbcE_length k iv p h]
  exact hblocks

/-- Settles O47: the loop of `CBC_D` undoes the loop of `CBC_E` block by block. -/
theorem cbcDecryptionUndoesEncryption : Obligations.CbcDecryptionUndoesEncryption := by
  intro k iv p h
  rw [cbcD, blocksOf_cbcE k iv p h, cbcDecBlocks_cbcEncBlocks]
  exact blocksBytes_blocksOf _ _ (by omega)

/-! ### One block, 20_memory.md R63 -/

/-- Block j of a sequence: `blk_j = s[16j : 16j+16)` (20_memory.md R63). -/
def blockAt (s : List Byte) (j : Nat) : List Byte := slice s (16 * j) (16 * (j + 1))

theorem blockAt_eq (s : List Byte) (j : Nat) : blockAt s j = (s.drop (16 * j)).take 16 := by
  rw [blockAt, slice, show 16 * (j + 1) - 16 * j = 16 by omega]

theorem blockAt_length {s : List Byte} {j : Nat} (h : 16 * (j + 1) ≤ s.length) : (blockAt s j).length = 16 := by
  rw [blockAt, slice_length _ _ _ h]; omega

theorem Block.ofBytes_take (s : List Byte) : Block.ofBytes (s.take 16) = Block.ofBytes s := by
  simp [Block.ofBytes, Col.ofBytes, List.getD_eq_getElem?_getD]

theorem Block.toBytes_ofBytes_blockAt {s : List Byte} {j : Nat} (h : 16 * (j + 1) ≤ s.length) :
    (Block.ofBytes (blockAt s j)).toBytes = blockAt s j := by
  have hlen := blockAt_length h
  rw [Block.toBytes_ofBytes _ hlen.ge, List.take_of_length_le hlen.le]

theorem getElem?_blocksOf {n j : Nat} (s : List Byte) (h : j < n) :
    (blocksOf n s)[j]? = some (Block.ofBytes (blockAt s j)) := by
  induction n generalizing s j with
  | zero => omega
  | succ n ih =>
    cases j with
    | zero => rw [blocksOf, List.getElem?_cons_zero, blockAt_eq, Block.ofBytes_take, List.drop_zero]
    | succ j =>
      rw [blocksOf, List.getElem?_cons_succ, ih _ (by omega), blockAt_eq, blockAt_eq, List.drop_drop,
        show 16 + 16 * j = 16 * (j + 1) by omega]

theorem blockAt_blocksBytes {bs : List Block} {j : Nat} {b : Block} (h : bs[j]? = some b) :
    blockAt (blocksBytes bs) j = b.toBytes := by
  obtain ⟨hj, -⟩ := List.getElem?_eq_some_iff.mp h
  have hblock := getElem?_blocksOf (blocksBytes bs) hj
  rw [blocksOf_blocksBytes, h, Option.some_inj] at hblock
  rw [hblock, Block.toBytes_ofBytes_blockAt (by rw [blocksBytes_length]; omega)]

/-! ### The chaining of the loops, R102 and R103 -/

/-- Each ciphertext block is chained to the block listed before it. -/
theorem getElem?_cbcEncBlocks {k : List Byte} {prev p q : Block} {ps : List Block} {j : Nat}
    (hp : ps[j]? = some p) (hq : (prev :: cbcEncBlocks k prev ps)[j]? = some q) :
    (cbcEncBlocks k prev ps)[j]? = some (aesE k (p.xor q)) := by
  induction ps generalizing prev j with
  | nil => simp at hp
  | cons p₀ ps ih =>
    cases j with
    | zero =>
      rw [List.getElem?_cons_zero, Option.some_inj] at hp hq
      rw [cbcEncBlocks, List.getElem?_cons_zero, hp, hq]
    | succ j => exact ih hp hq

theorem getElem?_cbcDecBlocks {k : List Byte} {prev c q : Block} {cs : List Block} {j : Nat}
    (hc : cs[j]? = some c) (hq : (prev :: cs)[j]? = some q) :
    (cbcDecBlocks k prev cs)[j]? = some ((aesD k c).xor q) := by
  induction cs generalizing prev j with
  | nil => simp at hc
  | cons c₀ cs ih =>
    cases j with
    | zero =>
      rw [List.getElem?_cons_zero, Option.some_inj] at hc hq
      rw [cbcDecBlocks, List.getElem?_cons_zero, hc, hq]
    | succ j => exact ih hc hq

/-! ### The equations in bytes -/

/-- The block before block j of a sequence, the IV before block 0 (40_cipher.md R102, R103). -/
def blockBefore (iv s : List Byte) : Nat → List Byte
  | 0 => iv
  | j + 1 => blockAt s j

theorem blockBefore_eq_ite (iv s : List Byte) (j : Nat) :
    blockBefore iv s j = if j = 0 then iv else blockAt s (j - 1) := by
  cases j <;> rfl

theorem blockBefore_length {iv s : List Byte} {j : Nat} (hiv : iv.length = 16) (h : 16 * j ≤ s.length) :
    (blockBefore iv s j).length = 16 := by
  cases j with
  | zero => exact hiv
  | succ j => exact blockAt_length h

/-- The IV and the blocks of a sequence, listed: at place j stands the block before block j. -/
theorem getElem?_ofBytes_cons_blocksOf (iv s : List Byte) {n j : Nat} (h : j ≤ n) :
    (Block.ofBytes iv :: blocksOf n s)[j]? = some (Block.ofBytes (blockBefore iv s j)) := by
  cases j with
  | zero => rfl
  | succ j => exact getElem?_blocksOf s h

theorem blockAt_cbcE {p : List Byte} {j : Nat} (k iv : List Byte) (hp : p.length % 16 = 0)
    (hj : 16 * (j + 1) ≤ p.length) :
    blockAt (cbcE k iv p) j =
      (aesE k ((Block.ofBytes (blockAt p j)).xor (Block.ofBytes (blockBefore iv (cbcE k iv p) j)))).toBytes := by
  have hbefore := getElem?_ofBytes_cons_blocksOf iv (cbcE k iv p)
    (n := (cbcE k iv p).length / 16) (j := j) (by rw [cbcE_length k iv p hp]; omega)
  rw [blocksOf_cbcE k iv p hp] at hbefore
  exact blockAt_blocksBytes (getElem?_cbcEncBlocks (getElem?_blocksOf p (by omega)) hbefore)

theorem blockAt_cbcD {c : List Byte} {j : Nat} (k iv : List Byte) (hj : 16 * (j + 1) ≤ c.length) :
    blockAt (cbcD k iv c) j =
      ((aesD k (Block.ofBytes (blockAt c j))).xor (Block.ofBytes (blockBefore iv c j))).toBytes :=
  blockAt_blocksBytes (getElem?_cbcDecBlocks (getElem?_blocksOf c (by omega))
    (getElem?_ofBytes_cons_blocksOf iv c (by omega)))

/-- Settles O57: the loops' equations, with the blocks and the XOR written out in bytes. -/
theorem cbcChainsEachBlockWithTheOneBeforeIt : Obligations.CbcChainsEachBlockWithTheOneBeforeIt := by
  intro k iv s j hiv hs hj block before
  have hbefore (x : List Byte) : before x = blockBefore iv x j := (blockBefore_eq_ite iv x j).symm
  have hblock : (block s j).length = 16 := blockAt_length hj
  have hlenE := cbcE_length k iv s hs
  refine ⟨hlenE, cbcD_length k iv s hs, ?_, ?_, Block.toBytes_ofBytes_blockAt hj⟩
  · rw [hbefore, ← Block.xor_ofBytes hblock (blockBefore_length hiv (by omega))]
    exact blockAt_cbcE k iv hs hj
  · rw [hbefore, ← Block.toBytes_xor_ofBytes _ (blockBefore_length hiv (by omega))]
    exact blockAt_cbcD k iv hj

/-- Settles O48: a plaintext block is a function of its ciphertext block and the block before it, of which
only the first 16 bytes count. -/
theorem cbcErrorsSpreadToOneBlockOnly : Obligations.CbcErrorsSpreadToOneBlockOnly := by
  intro k iv iv' c c' j _ hlen hj hblock hiv hprev
  have hbefore : Block.ofBytes (blockBefore iv c j) = Block.ofBytes (blockBefore iv' c' j) := by
    cases j with
    | zero =>
      change Block.ofBytes iv = Block.ofBytes iv'
      rw [← Block.ofBytes_take iv, hiv rfl, Block.ofBytes_take]
    | succ j => exact congrArg Block.ofBytes (hprev (by omega))
  change blockAt c j = blockAt c' j at hblock
  calc blockAt (cbcD k iv c) j
    _ = ((aesD k (Block.ofBytes (blockAt c j))).xor (Block.ofBytes (blockBefore iv c j))).toBytes :=
      blockAt_cbcD k iv hj
    _ = ((aesD k (Block.ofBytes (blockAt c' j))).xor (Block.ofBytes (blockBefore iv' c' j))).toBytes := by
      rw [hblock, hbefore]
    _ = blockAt (cbcD k iv' c') j := (blockAt_cbcD k iv' (hlen ▸ hj)).symm

end Sys2Proof.Machine

/-! PROOFS for 41_framer_encode.md: the padded envelope (O41), and ENCODE's checks and its result (O22). -/

namespace Sys2Proof.Machine

/-! ### The padded envelope, R121 to R123 -/

/-- The padded length is the source's formula (41_framer_encode.md R121). -/
theorem paddedLen_eq_ceil (u : Nat) : paddedLen u = (u + 1 + 31) / 32 * 32 := by
  simp only [paddedLen, padLen]; omega

/-- The envelope in its parts: 20 bytes of nonce and prefix, the payload, and what follows it. -/
theorem envelope_eq_append (n p i : List Byte) :
    envelope n p i = (n ++ be32 p.length) ++ (p ++ (i ++ padBytes (20 + p.length + i.length))) := by
  simp only [envelope, frame, List.append_assoc]

theorem nonce_prefix_length {n : List Byte} (h : n.length = 16) (m : Nat) : (n ++ be32 m).length = 20 := by
  rw [List.length_append, h, be32_length]

theorem take_envelope_nonce {n : List Byte} (h : n.length = 16) (p i : List Byte) :
    (envelope n p i).take 16 = n := by
  rw [envelope_eq_append, List.append_assoc, List.take_left' h]

theorem drop_envelope_payload {n : List Byte} (h : n.length = 16) (p i : List Byte) :
    (envelope n p i).drop 20 = p ++ (i ++ padBytes (20 + p.length + i.length)) := by
  rw [envelope_eq_append, List.drop_left' (nonce_prefix_length h _)]

theorem drop_envelope_ident {n : List Byte} (h : n.length = 16) (p i : List Byte) :
    (envelope n p i).drop (20 + p.length) = i ++ padBytes (20 + p.length + i.length) := by
  rw [← List.drop_drop, drop_envelope_payload h, List.drop_left]

/-- A pad length fits a byte (41_framer_encode.md R122). -/
theorem padByte_toNat (u : Nat) : (BitVec.ofNat 8 (padLen u)).toNat = padLen u := by
  have := (padLen_bounds u).2
  rw [BitVec.toNat_ofNat]; omega

/-- Every byte past the frame is the pad length. -/
theorem envelope_getD_pad {n : List Byte} (h : n.length = 16) (p i : List Byte) {j : Nat}
    (hj : 20 + p.length + i.length ≤ j) (hlt : j < (envelope n p i).length) :
    ((envelope n p i).getD j 0).toNat = padLen (20 + p.length + i.length) := by
  have hframe := frame_length n p i h
  rw [envelope_length n p i h, paddedLen] at hlt
  rw [envelope, List.getD_append_right _ _ _ _ (by omega), hframe, padBytes,
    List.getD_replicate _ (by omega), padByte_toNat]

/-- Settles O41: the length is the padded length, and the parts stand one after another. -/
theorem paddedEnvelopeIsAWholeNumberOfPadBlocks : Obligations.PaddedEnvelopeIsAWholeNumberOfPadBlocks := by
  intro n p i h u e
  have hlen : e.length = paddedLen u := envelope_length n p i h
  obtain ⟨hmod, hlt⟩ := paddedLen_facts u
  obtain ⟨hpad, hpad'⟩ := padLen_bounds u
  refine ⟨hlen ▸ hmod, by omega, hlen.trans (paddedLen_eq_ceil u), hpad, hpad', hlen,
    take_envelope_nonce h p i, ?_, ?_, fun _ hj hend => envelope_getD_pad h p i hj hend⟩
  · rw [drop_envelope_payload h, List.take_left]
  · rw [drop_envelope_ident h, List.take_left]

/-! ### Completions, 60_exceptions.md R274 to R277 -/

/-- An error completes with its code. -/
theorem State.complete_error_eq_afterError (s : State) (e : Err) :
    s.complete (.error e) = s.afterError e.code := rfl

/-- A success returns its bytes, and its result registers where it gives them. -/
theorem State.afterSuccess_complete {s : State} (hwf : s.outBuf.wf) (o : Output) :
    s.AfterSuccess (s.complete (.ok o)) o.bytes (written o.poff s.resPoff) (written o.plen s.resPlen)
      (written o.ioff s.resIoff) (written o.ilen s.resIlen) where
  frame := rfl
  bytes x := (Memory.read_writeBytes hwf 0 o.bytes x).trans
    (by simp only [Nat.zero_le, true_and, Nat.zero_add, Nat.sub_zero])

/-! ### ENCODE, R124 -/

theorem State.inBytes_eq_inputAt (s : State) (off n : Nat) : s.inBytes off n = s.inputAt off n := rfl

theorem State.keyIv_eq_take (s : State) : s.keyIv = s.keyBytes.take 16 := rfl

theorem encodeOutcome_of_keyLen_ne {s : State} (hk : s.keyLen ≠ 32) :
    encodeOutcome s = .error .invalidKeySize :=
  if_pos hk

theorem encodeOutcome_of_too_long {s : State} (hk : s.keyLen = 32)
    (hcap : paddedLen (20 + s.plen.toNat + s.ilen.toNat) > s.params.bufBytes) :
    encodeOutcome s = .error .capacityExceeded := by
  rw [encodeOutcome, if_neg (not_not.mpr hk), if_pos hcap]

theorem encodeOutcome_of_fits {s : State} (hk : s.keyLen = 32)
    (hcap : paddedLen (20 + s.plen.toNat + s.ilen.toNat) ≤ s.params.bufBytes) :
    encodeOutcome s = .ok { bytes := cbcE s.keyBytes s.keyIv s.plaintext } := by
  rw [encodeOutcome, if_neg (not_not.mpr hk), if_neg (not_lt.mpr hcap), State.plaintext]

/-- The plaintext part by part, the lengths those of PLEN and ILEN. -/
theorem State.plaintext_eq (s : State) :
    let p := s.plen.toNat
    let i := s.ilen.toNat
    s.plaintext = s.nonceBytes ++ be32 p ++ s.inputAt 0 p ++ s.inputAt p i ++ padBytes (20 + p + i) := by
  intro p i
  rw [State.plaintext, envelope, frame, State.inBytes_length, State.inBytes_length,
    State.inBytes_eq_inputAt, State.inBytes_eq_inputAt]

/-- Settles O22: one outcome for each check, and what a completion makes of it. -/
theorem encodeFramesPadsAndEncrypts : Obligations.EncodeFramesPadsAndEncrypts := by
  refine ⟨rfl, ?_⟩
  intro s hwf p i u pad plain c
  refine ⟨fun hk => ?_, fun hk hcap => ?_, fun hk hcap => ?_⟩
  · rw [exec_encode, encodeOutcome_of_keyLen_ne hk, State.complete_error_eq_afterError]; rfl
  · rw [exec_encode, encodeOutcome_of_too_long hk hcap, State.complete_error_eq_afterError]; rfl
  · have hc : c = cbcE s.keyBytes s.keyIv s.plaintext := by rw [State.plaintext_eq, State.keyIv_eq_take]; rfl
    rw [exec_encode, encodeOutcome_of_fits hk hcap, hc]
    exact ⟨_, rfl, s.ciphertext_length, State.afterSuccess_complete hwf _⟩

end Sys2Proof.Machine

/-! PROOFS for 42_padding_validator.md: the validator reads the length and the last byte only (O42), and the
validator and the parser undo the framer (O43). -/

namespace Sys2Proof.Machine

/-! ### What the validator examines, R141 -/

/-- The byte the validator reads is the last one. -/
theorem getD_length_sub_one (d : List Byte) : d.getD (d.length - 1) 0 = d.getLast?.getD 0 := by
  rw [List.getD_eq_getElem?_getD, List.getLast?_eq_getElem?]

/-- `PadValidate` is a function of the length and the last byte, at every length. -/
theorem padValidate_congr {d d' : List Byte} (hlen : d.length = d'.length)
    (hlast : d.getLast? = d'.getLast?) : padValidate d = padValidate d' := by
  have hbyte : d.getD (d.length - 1) 0 = d'.getD (d'.length - 1) 0 := by
    rw [getD_length_sub_one, getD_length_sub_one, hlast]
  rw [padValidate, padValidate, hbyte, hlen]

/-- Settles O42: the validator is a function of the length and the last byte. -/
theorem padValidatorExaminesOnlyTheLastByte : Obligations.PadValidatorExaminesOnlyTheLastByte :=
  fun _ _ _ hlen hlast => padValidate_congr hlen hlast

/-! ### Agreement with the framer, R144 and 43_length_parser.md R163 -/

/-- The last byte of an envelope is its pad length. -/
theorem envelope_getD_last {n : List Byte} (h : n.length = 16) (p i : List Byte) :
    ((envelope n p i).getD ((envelope n p i).length - 1) 0).toNat
      = padLen (20 + p.length + i.length) := by
  have hlen := envelope_length n p i h
  have hlt := (paddedLen_facts (20 + p.length + i.length)).2
  exact envelope_getD_pad h p i (by omega) (by omega)

/-- Without its pad bytes an envelope has the length of the frame. -/
theorem envelope_length_sub_padLen {n : List Byte} (h : n.length = 16) (p i : List Byte) :
    (envelope n p i).length - padLen (20 + p.length + i.length) = 20 + p.length + i.length := by
  rw [envelope_length n p i h, paddedLen, Nat.add_sub_cancel]

/-- The validator returns the unpadded length of an envelope that carries at least one byte. -/
theorem padValidate_envelope {n p i : List Byte} (h : n.length = 16) (hpos : 1 ≤ p.length + i.length) :
    padValidate (envelope n p i) = .ok (20 + p.length + i.length) := by
  obtain ⟨-, -, hok⟩ := padValidate_eq (envelope n p i)
  obtain ⟨hpad, hpad'⟩ := padLen_bounds (20 + p.length + i.length)
  rw [envelope_getD_last h, envelope_length_sub_padLen h] at hok
  exact hok hpad hpad' (by omega)

/-- The validator rejects the envelope that carries nothing: 20 bytes are left. -/
theorem padValidate_envelope_empty {n p i : List Byte} (h : n.length = 16)
    (hzero : p.length + i.length = 0) :
    padValidate (envelope n p i) = .error .truncatedPlaintext := by
  obtain ⟨-, htrunc, -⟩ := padValidate_eq (envelope n p i)
  obtain ⟨hpad, hpad'⟩ := padLen_bounds (20 + p.length + i.length)
  rw [envelope_getD_last h, envelope_length_sub_padLen h] at htrunc
  exact htrunc hpad hpad' (by omega)

/-- The prefix stands behind the nonce (41_framer_encode.md R120). -/
theorem slice_envelope_prefix {n : List Byte} (h : n.length = 16) (p i : List Byte) :
    slice (envelope n p i) 16 20 = be32 p.length := by
  rw [slice, envelope_eq_append, List.append_assoc, List.drop_left' h]
  exact List.take_left' (be32_length _)

/-- `LenParse` returns the prefix's value when the bound leaves room for it (43_length_parser.md R160). -/
theorem lenParse_of_le {d : List Byte} {t : Nat} (h : 20 + beval (slice d 16 20) ≤ t) :
    lenParse d t = .ok (beval (slice d 16 20)) :=
  if_neg (not_lt.mpr h)

/-- The parser returns the payload length of an envelope, under any bound that covers the payload. -/
theorem lenParse_envelope {n p i : List Byte} (h : n.length = 16) (hp : p.length < 2 ^ 32) {t : Nat}
    (ht : 20 + p.length ≤ t) : lenParse (envelope n p i) t = .ok p.length := by
  have hval : beval (slice (envelope n p i) 16 20) = p.length := by
    rw [slice_envelope_prefix h, beval_be32 _ hp]
  rw [lenParse_of_le (hval ▸ ht), hval]

/-- Settles O43: validator and parser on an envelope that carries a byte, and on the empty one. -/
theorem validatorAndParserUndoTheFramer : Obligations.ValidatorAndParserUndoTheFramer := by
  intro n p i h hp u
  exact ⟨fun hpos => ⟨padValidate_envelope h hpos, lenParse_envelope h hp (Nat.le_add_right _ _)⟩,
    padValidate_envelope_empty h⟩

end Sys2Proof.Machine

/-! PROOFS for 44_decode.md: DECODE's checks and its result (O23), DECODE_XIV's (O24), the round trip with
ENCODE (O52), and DECODE_XIV under the primary IV (O53). -/

namespace Sys2Proof.Machine

/-! ### What the two commands share, R180 and R181 -/

/-- The checks DECODE and DECODE_XIV make in one order, on the length in units of `unit` bytes and on the
decrypted buffer `d`: the length T of the text without its padding. -/
def State.checkedTextLen (s : State) (unit : Nat) (d : List Byte) : Except Err Nat :=
  if s.inLen.toNat > s.params.bufBytes then .error .capacityExceeded
  else if s.inLen.toNat < 32 then .error .shortCiphertext
  else if s.inLen.toNat % unit ≠ 0 then .error .unalignedCiphertext
  else if s.keyLen ≠ 32 then .error .invalidKeySize
  else padValidate d

/-- What DECODE returns of a buffer with text length `t` and payload length `n` (44_decode.md R180). -/
def strictOutput (d : List Byte) (t n : Nat) : Output :=
  { bytes := d.take t, poff := some 20, plen := some n, ioff := some (20 + n), ilen := some (t - 20 - n) }

/-- DECODE is the shared checks, then the parser. -/
theorem decodeOutcome_eq (s : State) : decodeOutcome s =
    (s.checkedTextLen 32 s.strictPlain).bind fun t =>
      (lenParse s.strictPlain t).map (strictOutput s.strictPlain t) := by
  simp only [decodeOutcome, State.checkedTextLen]
  rw [← State.strictPlain]
  split
  · rfl
  split
  · rfl
  split
  · rfl
  split
  · rfl
  cases padValidate s.strictPlain with
  | error e => rfl
  | ok t =>
    simp only [Except.bind]
    cases lenParse s.strictPlain t <;> rfl

/-- DECODE_XIV is the shared checks alone, with its own unit and buffer. -/
theorem decodeXivOutcome_eq (s : State) : decodeXivOutcome s =
    (s.checkedTextLen 16 s.xivPlain).map fun t => { bytes := s.xivPlain.take t } := by
  simp only [decodeXivOutcome, State.checkedTextLen]
  rw [← State.xivPlain]
  split
  · rfl
  split
  · rfl
  split
  · rfl
  split
  · rfl
  cases padValidate s.xivPlain <;> rfl

section
variable {s : State} {unit : Nat} {d : List Byte}

theorem State.checkedTextLen_of_too_long (h : s.inLen.toNat > s.params.bufBytes) :
    s.checkedTextLen unit d = .error .capacityExceeded :=
  if_pos h

theorem State.checkedTextLen_of_short (hcap : s.inLen.toNat ≤ s.params.bufBytes) (h : s.inLen.toNat < 32) :
    s.checkedTextLen unit d = .error .shortCiphertext := by
  rw [State.checkedTextLen, if_neg (not_lt.mpr hcap), if_pos h]

theorem State.checkedTextLen_of_unaligned (hcap : s.inLen.toNat ≤ s.params.bufBytes)
    (hmin : 32 ≤ s.inLen.toNat) (h : s.inLen.toNat % unit ≠ 0) :
    s.checkedTextLen unit d = .error .unalignedCiphertext := by
  rw [State.checkedTextLen, if_neg (not_lt.mpr hcap), if_neg (not_lt.mpr hmin), if_pos h]

theorem State.checkedTextLen_of_keyLen_ne (hcap : s.inLen.toNat ≤ s.params.bufBytes)
    (hmin : 32 ≤ s.inLen.toNat) (hunit : s.inLen.toNat % unit = 0) (h : s.keyLen ≠ 32) :
    s.checkedTextLen unit d = .error .invalidKeySize := by
  rw [State.checkedTextLen, if_neg (not_lt.mpr hcap), if_neg (not_lt.mpr hmin), if_neg (not_not.mpr hunit),
    if_pos h]

/-- With length and key in order the padding decides. -/
theorem State.checkedTextLen_eq_padValidate (hcap : s.inLen.toNat ≤ s.params.bufBytes)
    (hmin : 32 ≤ s.inLen.toNat) (hunit : s.inLen.toNat % unit = 0) (hk : s.keyLen = 32) :
    s.checkedTextLen unit d = padValidate d := by
  rw [State.checkedTextLen, if_neg (not_lt.mpr hcap), if_neg (not_lt.mpr hmin), if_neg (not_not.mpr hunit),
    if_neg (not_not.mpr hk)]

end

/-! ### Completions of DECODE and of DECODE_XIV -/

theorem exec_decode_of_error {s : State} {e : Err} (h : s.checkedTextLen 32 s.strictPlain = .error e) :
    exec .decode s = .next (s.afterError e.code) := by
  rw [exec_decode, decodeOutcome_eq, h]; rfl

theorem exec_decode_of_parse_error {s : State} {t : Nat} {e : Err}
    (h : s.checkedTextLen 32 s.strictPlain = .ok t) (hp : lenParse s.strictPlain t = .error e) :
    exec .decode s = .next (s.afterError e.code) := by
  rw [exec_decode, decodeOutcome_eq, h, Except.bind, hp]; rfl

theorem exec_decode_of_ok {s : State} {t n : Nat} (h : s.checkedTextLen 32 s.strictPlain = .ok t)
    (hp : lenParse s.strictPlain t = .ok n) :
    exec .decode s = .next (s.complete (.ok (strictOutput s.strictPlain t n))) := by
  rw [exec_decode, decodeOutcome_eq, h, Except.bind, hp]; rfl

theorem exec_decodeXiv_of_error {s : State} {e : Err} (h : s.checkedTextLen 16 s.xivPlain = .error e) :
    exec .decodeXiv s = .next (s.afterError e.code) := by
  rw [exec_decodeXiv, decodeXivOutcome_eq, h]; rfl

theorem exec_decodeXiv_of_ok {s : State} {t : Nat} (h : s.checkedTextLen 16 s.xivPlain = .ok t) :
    exec .decodeXiv s = .next (s.complete (.ok { bytes := s.xivPlain.take t })) := by
  rw [exec_decodeXiv, decodeXivOutcome_eq, h]; rfl

/-! ### DECODE, R180 -/

/-- The number the parser reads, byte by byte. -/
theorem beval_slice_eq_prefixValue (d : List Byte) : beval (slice d 16 20) = prefixValue d := by
  rw [beval, slice_getD _ _ _ _ (by decide), slice_getD _ _ _ _ (by decide), slice_getD _ _ _ _ (by decide),
    slice_getD _ _ _ _ (by decide), prefixValue]

/-- `LenParse` rejects a payload length that passes its bound (43_length_parser.md R160). -/
theorem lenParse_of_gt {d : List Byte} {t : Nat} (h : 20 + beval (slice d 16 20) > t) :
    lenParse d t = .error .lengthOverflow :=
  if_pos h

/-- Settles O23: one outcome for each check, and what a completion makes of it. -/
theorem decodeDecryptsValidatesAndParses : Obligations.DecodeDecryptsValidatesAndParses := by
  refine ⟨rfl, ?_⟩
  intro s hwf l d pad t n
  refine ⟨fun hcap => exec_decode_of_error (State.checkedTextLen_of_too_long hcap),
    fun hcap hmin => exec_decode_of_error (State.checkedTextLen_of_short hcap hmin),
    fun hcap hmin hunit => exec_decode_of_error (State.checkedTextLen_of_unaligned hcap hmin hunit),
    fun hcap hmin hunit hk => exec_decode_of_error (State.checkedTextLen_of_keyLen_ne hcap hmin hunit hk),
    fun hcap hmin hunit hk => ?_⟩
  have hchecked : s.checkedTextLen 32 s.strictPlain = padValidate s.strictPlain :=
    State.checkedTextLen_eq_padValidate hcap hmin hunit hk
  have hlen : d.length = l := s.strictPlain_length (by omega)
  obtain ⟨hinvalid, htruncated, hok⟩ := padValidate_eq d
  rw [hlen] at hinvalid htruncated hok
  refine ⟨fun hpad => exec_decode_of_error (hchecked.trans (hinvalid hpad)),
    fun h1 h2 ht => exec_decode_of_error (hchecked.trans (htruncated h1 h2 ht)),
    fun h1 h2 ht hn => exec_decode_of_parse_error (hchecked.trans (hok h1 h2 ht)) (lenParse_of_gt ?_),
    fun h1 h2 ht hn => ⟨_, exec_decode_of_ok (hchecked.trans (hok h1 h2 ht)) (lenParse_of_le ?_), ?_, ?_⟩⟩
  · rw [beval_slice_eq_prefixValue]; exact hn
  · rw [beval_slice_eq_prefixValue]; exact hn
  · rw [List.length_take]; omega
  · rw [beval_slice_eq_prefixValue]; exact State.afterSuccess_complete hwf _

/-! ### DECODE_XIV, R181 -/

/-- Settles O24: the shared checks with the buffer decrypted under IVREG, and no parser. -/
theorem decodeXivDecryptsWithTheExplicitIv : Obligations.DecodeXivDecryptsWithTheExplicitIv := by
  refine ⟨rfl, ?_⟩
  intro s hwf l d pad t
  refine ⟨fun hcap => exec_decodeXiv_of_error (State.checkedTextLen_of_too_long hcap),
    fun hcap hmin => exec_decodeXiv_of_error (State.checkedTextLen_of_short hcap hmin),
    fun hcap hmin hunit => exec_decodeXiv_of_error (State.checkedTextLen_of_unaligned hcap hmin hunit),
    fun hcap hmin hunit hk => exec_decodeXiv_of_error (State.checkedTextLen_of_keyLen_ne hcap hmin hunit hk),
    fun hcap hmin hunit hk => ?_⟩
  have hchecked : s.checkedTextLen 16 s.xivPlain = padValidate s.xivPlain :=
    State.checkedTextLen_eq_padValidate hcap hmin hunit hk
  have hlen : d.length = l := s.xivPlain_length hunit
  obtain ⟨hinvalid, htruncated, hok⟩ := padValidate_eq d
  rw [hlen] at hinvalid htruncated hok
  refine ⟨fun hpad => exec_decodeXiv_of_error (hchecked.trans (hinvalid hpad)),
    fun h1 h2 ht => exec_decodeXiv_of_error (hchecked.trans (htruncated h1 h2 ht)),
    fun h1 h2 ht => ⟨_, exec_decodeXiv_of_ok (hchecked.trans (hok h1 h2 ht)), ?_,
      State.afterSuccess_complete hwf _⟩⟩
  rw [List.length_take]; omega

/-! ### DECODE_XIV under the primary IV, R181 (d) -/

theorem Err.code_ne_zero (e : Err) : e.code ≠ 0 := by cases e <;> decide

/-- The only error of the parser (43_length_parser.md R160). -/
theorem lenParse_error {d : List Byte} {t : Nat} {e : Err} (h : lenParse d t = .error e) :
    e = .lengthOverflow := by
  rw [lenParse] at h
  split at h
  · exact (Except.error.inj h).symm
  · cases h

/-- With the primary IV in IVREG both commands decrypt to one buffer (40_cipher.md R106). -/
theorem State.xivPlain_eq_strictPlain {s : State} (hiv : s.ivBytes = s.keyBytes.take 16) :
    s.xivPlain = s.strictPlain := by
  rw [State.xivPlain, State.strictPlain, State.keyIv_eq_take, hiv]

/-- Whole pad blocks pass the checks in either unit alike. -/
theorem State.checkedTextLen_sixteen {s : State} (h : s.inLen.toNat % 32 = 0) (d : List Byte) :
    s.checkedTextLen 16 d = s.checkedTextLen 32 d := by
  have h16 : s.inLen.toNat % 16 = 0 := by omega
  rw [State.checkedTextLen, State.checkedTextLen, h, h16]

/-- Settles O53: both commands come through the same checks, and DECODE goes on to the parser. -/
theorem explicitIvDecodeAgreesWithDecode : Obligations.ExplicitIvDecodeAgreesWithDecode := by
  intro s herr hiv hunit
  have hplain := State.xivPlain_eq_strictPlain hiv
  have hsame : s.checkedTextLen 16 s.xivPlain = s.checkedTextLen 32 s.strictPlain := by
    rw [hplain, State.checkedTextLen_sixteen hunit]
  cases hstrict : s.checkedTextLen 32 s.strictPlain with
  | error e =>
    exact ⟨_, _, exec_decode_of_error hstrict, exec_decodeXiv_of_error (hsame.trans hstrict), fun _ => rfl,
      fun h => absurd h e.code_ne_zero, fun h => absurd h e.code_ne_zero⟩
  | ok t =>
    have hxiv := exec_decodeXiv_of_ok (hsame.trans hstrict)
    rw [hplain] at hxiv
    cases hparse : lenParse s.strictPlain t with
    | error e =>
      obtain rfl := lenParse_error hparse
      exact ⟨_, _, exec_decode_of_parse_error hstrict hparse, hxiv, fun h => absurd herr h, fun _ => .inr rfl,
        fun h => absurd h Err.lengthOverflow.code_ne_zero⟩
    | ok n =>
      exact ⟨_, _, exec_decode_of_ok hstrict hparse, hxiv, fun h => absurd herr h, fun _ => .inl herr,
        fun _ => ⟨herr, rfl, rfl⟩⟩

/-! ### The round trip, R182 -/

/-- What a success wrote to OUT_BUF, copied to IN_BUF with its length in IN_LEN, is the input there. -/
theorem State.inBytes_of_copied {s t s2 : State} {out : List Byte} {poff plen ioff ilen : Word}
    (h : s.AfterSuccess t out poff plen ioff ilen) (hout : out.length < 2 ^ 32)
    (hlen : s2.inLen = t.outLen) (hcopy : ∀ x < t.outLen.toNat, s2.inBuf.read x = t.outBuf.read x) :
    s2.inBytes 0 s2.inLen.toNat = out := by
  have houtLen : t.outLen.toNat = out.length := by
    rw [show t.outLen = BitVec.ofNat 32 out.length from congrArg State.outLen h.frame, BitVec.toNat_ofNat,
      Nat.mod_eq_of_lt hout]
  rw [hlen, houtLen]
  refine bytes_ext (s2.inBytes_length 0 _) fun j hj => ?_
  rw [State.inBytes_length] at hj
  rw [State.inBytes, Memory.readBytes_getD _ _ _ _ hj, Nat.zero_add, hcopy j (houtLen.symm ▸ hj), h.bytes,
    if_pos hj]

/-- ENCODE's plaintext is an envelope under a 16-byte nonce, its lengths those of PLEN and ILEN. -/
theorem State.padValidate_plaintext {s : State} (hpos : 1 ≤ s.plen.toNat + s.ilen.toNat) :
    padValidate s.plaintext = .ok (20 + s.plen.toNat + s.ilen.toNat) := by
  rw [State.plaintext, padValidate_envelope s.nonceBytes_length (by simpa using hpos), State.inBytes_length,
    State.inBytes_length]

theorem State.padValidate_plaintext_empty {s : State} (hzero : s.plen.toNat + s.ilen.toNat = 0) :
    padValidate s.plaintext = .error .truncatedPlaintext :=
  padValidate_envelope_empty s.nonceBytes_length (by simpa using hzero)

theorem State.lenParse_plaintext (s : State) :
    lenParse s.plaintext (20 + s.plen.toNat + s.ilen.toNat) = .ok s.plen.toNat := by
  rw [State.plaintext, lenParse_envelope s.nonceBytes_length (by simpa using s.plen.isLt) (by simp),
    State.inBytes_length]

theorem State.frame_length_eq (s : State) :
    (frame s.nonceBytes (s.inBytes 0 s.plen.toNat) (s.inBytes s.plen.toNat s.ilen.toNat)).length =
      20 + s.plen.toNat + s.ilen.toNat := by
  rw [frame_length _ _ _ s.nonceBytes_length, State.inBytes_length, State.inBytes_length]

theorem State.plaintext_take (s : State) : s.plaintext.take (20 + s.plen.toNat + s.ilen.toNat) =
    frame s.nonceBytes (s.inBytes 0 s.plen.toNat) (s.inBytes s.plen.toNat s.ilen.toNat) := by
  rw [State.plaintext, envelope]
  exact List.take_left' s.frame_length_eq

section
variable {n : List Byte} (h : n.length = 16) (p i : List Byte)
include h

theorem frame_getD_nonce {j : Nat} (hj : j < 16) : (frame n p i).getD j 0 = n.getD j 0 := by
  rw [frame, List.append_assoc, List.append_assoc, List.getD_append _ _ _ _ (by omega)]

theorem frame_getD_payload {j : Nat} (hj : j < p.length) : (frame n p i).getD (20 + j) 0 = p.getD j 0 := by
  have hl := nonce_prefix_length h p.length
  rw [frame, List.append_assoc, List.getD_append_right _ _ _ _ (by omega), hl, Nat.add_sub_cancel_left,
    List.getD_append _ _ _ _ hj]

theorem frame_getD_ident (j : Nat) : (frame n p i).getD (20 + p.length + j) 0 = i.getD j 0 := by
  have hl : (n ++ be32 p.length ++ p).length = 20 + p.length := by
    rw [List.length_append, nonce_prefix_length h]
  rw [frame, List.getD_append_right _ _ _ _ (by omega), hl, Nat.add_sub_cancel_left]

end

section
variable {s s2 : State} (hk : s2.keyLen = 32) (hkey : s2.key = s.key)
  (hcap : paddedLen (20 + s.plen.toNat + s.ilen.toNat) ≤ s2.params.bufBytes)
  (hin : s2.inBytes 0 s2.inLen.toNat = cbcE s.keyBytes s.keyIv s.plaintext)

include hkey hin in
/-- A state that holds the ciphertext of `s` under the key of `s` decrypts it to ENCODE's plaintext
(40_cipher.md R104 (a)). -/
theorem State.strictPlain_of_ciphertext : s2.strictPlain = s.plaintext := by
  have hmod := (paddedLen_facts (20 + s.plen.toNat + s.ilen.toNat)).1
  rw [State.strictPlain, hin, State.keyBytes_congr hkey, State.keyIv_congr hkey]
  exact cbcDecryptionUndoesEncryption _ _ _ (by rw [s.plaintext_length]; omega)

include hk hkey hcap hin

/-- Such a state passes DECODE's checks of length and key. -/
theorem State.checkedTextLen_of_ciphertext :
    s2.checkedTextLen 32 s2.strictPlain = padValidate s.plaintext := by
  have hlen : s2.inLen.toNat = paddedLen (20 + s.plen.toNat + s.ilen.toNat) := by
    rw [← s.ciphertext_length, ← hin, State.inBytes_length]
  obtain ⟨hmod, hlt⟩ := paddedLen_facts (20 + s.plen.toNat + s.ilen.toNat)
  rw [State.strictPlain_of_ciphertext hkey hin]
  exact State.checkedTextLen_eq_padValidate (by omega) (by omega) (by omega) hk

theorem exec_decode_of_ciphertext (hpos : 1 ≤ s.plen.toNat + s.ilen.toNat) :
    exec .decode s2 = .next (s2.complete (.ok
      (strictOutput s.plaintext (20 + s.plen.toNat + s.ilen.toNat) s.plen.toNat))) := by
  have hchecked := State.checkedTextLen_of_ciphertext hk hkey hcap hin
  have hplain := State.strictPlain_of_ciphertext hkey hin
  rw [exec_decode_of_ok (hchecked.trans (State.padValidate_plaintext hpos))
    (hplain ▸ s.lenParse_plaintext), hplain]

theorem exec_decode_of_empty_ciphertext (hzero : s.plen.toNat + s.ilen.toNat = 0) :
    exec .decode s2 = .next (s2.afterError 5) :=
  exec_decode_of_error ((State.checkedTextLen_of_ciphertext hk hkey hcap hin).trans
    (State.padValidate_plaintext_empty hzero))

end

/-- OUT_BUF after DECODE has returned ENCODE's plaintext: the frame. -/
theorem State.read_complete_plaintext {s s2 : State} (hwf : s2.outBuf.wf) {x : Nat}
    (hx : x < 20 + s.plen.toNat + s.ilen.toNat) :
    (s2.complete (.ok (strictOutput s.plaintext (20 + s.plen.toNat + s.ilen.toNat) s.plen.toNat))).outBuf.read x
      = (frame s.nonceBytes (s.inBytes 0 s.plen.toNat) (s.inBytes s.plen.toNat s.ilen.toNat)).getD x 0 := by
  rw [(State.afterSuccess_complete hwf _).bytes, strictOutput, s.plaintext_take, s.frame_length_eq, if_pos hx]

/-- Settles O52: DECODE decrypts to the envelope, and validator and parser undo the framer. -/
theorem decodeReturnsWhatEncodeFramed : Obligations.DecodeReturnsWhatEncodeFramed := by
  intro s t s2 p i hparams hwf hwf2 hk hfit hexec hparams2 hkey hk2 hlen hcopy
  rw [exec_encode, encodeOutcome_of_fits hk hfit] at hexec
  obtain rfl := Host.Outcome.next.inj hexec
  have hin : s2.inBytes 0 s2.inLen.toNat = cbcE s.keyBytes s.keyIv s.plaintext := by
    refine State.inBytes_of_copied (State.afterSuccess_complete hwf _) ?_ hlen hcopy
    obtain ⟨-, -, hbound⟩ := hparams
    rw [s.ciphertext_length, paddedLen, padLen]
    omega
  have hcap : paddedLen (20 + p + i) ≤ s2.params.bufBytes := hparams2 ▸ hfit
  have hword (w : Word) : BitVec.ofNat 32 w.toNat = w := by rw [BitVec.ofNat_toNat, BitVec.setWidth_eq]
  refine ⟨fun hpos => ⟨_, exec_decode_of_ciphertext hk2 hkey hcap hin hpos, rfl, rfl, ?_, rfl,
    hword _, rfl, ?_, fun j hj => ?_, fun j hj => ?_, fun j hj => ?_⟩,
    exec_decode_of_empty_ciphertext hk2 hkey hcap hin⟩
  · exact congrArg (BitVec.ofNat 32) ((congrArg List.length s.plaintext_take).trans s.frame_length_eq)
  · have hi : 20 + p + i - 20 - p = i := by omega
    exact (congrArg (BitVec.ofNat 32) hi).trans (hword _)
  · rw [State.read_complete_plaintext hwf2 (by omega), frame_getD_nonce s.nonceBytes_length _ _ hj]
  · rw [State.read_complete_plaintext hwf2 (by omega),
      frame_getD_payload s.nonceBytes_length _ _ (by simpa using hj), State.inBytes,
      Memory.readBytes_getD _ _ _ _ hj, Nat.zero_add]
  · have hident := frame_getD_ident s.nonceBytes_length (s.inBytes 0 p) (s.inBytes p i) j
    rw [State.inBytes_length] at hident
    rw [State.read_complete_plaintext hwf2 (by omega), hident, State.inBytes,
      Memory.readBytes_getD _ _ _ _ hj]

end Sys2Proof.Machine

/-! PROOFS for 45_decode_lenient.md: the base64 alphabet (O58), the texts that decode (O49) and their bytes
(O50), one text per byte sequence (O51), DECODE_LENIENT's checks and its result (O25), and its agreement
with DECODE (O54). -/

namespace Sys2Proof.Machine

/-! ### The alphabet, R210 -/

/-- The characters of the standard alphabet, the one of value v in place v. -/
def b64Alphabet : List Char := "ABCDEFGHIJKLMNOPQRSTUVWXYZabcdefghijklmnopqrstuvwxyz0123456789+/".toList

/-- The alphabet character of a 6-bit value. -/
def b64Char (v : BitVec 6) : Byte := BitVec.ofNat 8 (b64Alphabet.getD v.toNat 'A').toNat

theorem b64Alphabet_getElem?_toNat : ∀ v : BitVec 6,
    b64Alphabet[v.toNat]?.map Char.toNat = some (b64Char v).toNat := by decide

theorem b64Val_b64Char : ∀ v : BitVec 6, b64Val (b64Char v) = some v := by decide

theorem b64Char_of_b64Val {c : Byte} {v : BitVec 6} (h : b64Val c = some v) : b64Char v = c :=
  (by decide : ∀ c : Byte, ∀ v ∈ b64Val c, b64Char v = c) c v h

theorem b64Val_eq_some_iff {c : Byte} {v : BitVec 6} : b64Val c = some v ↔ b64Char v = c :=
  ⟨b64Char_of_b64Val, fun h => h ▸ b64Val_b64Char v⟩

@[simp] theorem b64Val_b64Pad : b64Val b64Pad = none := rfl

theorem ne_b64Pad_of_b64Val {c : Byte} {v : BitVec 6} (h : b64Val c = some v) : c ≠ b64Pad := by
  rintro rfl
  rw [b64Val_b64Pad] at h
  cases h

/-- Settles O58: a byte has the value v when it is the v-th character. -/
theorem base64AlphabetIsTheStandardOne : Obligations.Base64AlphabetIsTheStandardOne := by
  intro c v
  change _ ↔ b64Alphabet[v.toNat]?.map Char.toNat = some c.toNat
  rw [b64Alphabet_getElem?_toNat, Option.some_inj, BitVec.toNat_inj, b64Val_eq_some_iff]

/-! ### The bits of a quantum, R211 -/

/-- The three bytes of a quantum's 24 bits. -/
def quantumBytes (q : BitVec 24) : List Byte := [q.extractLsb' 16 8, q.extractLsb' 8 8, q.extractLsb' 0 8]

@[simp] theorem quantumBytes_length (q : BitVec 24) : (quantumBytes q).length = 3 := rfl

/-- The four characters of a quantum's 24 bits. -/
def quantumChars (q : BitVec 24) : List Byte :=
  [b64Char (q.extractLsb' 18 6), b64Char (q.extractLsb' 12 6), b64Char (q.extractLsb' 6 6),
    b64Char (q.extractLsb' 0 6)]

/-- A bit field, as a number. -/
theorem extractLsb'_toNat_eq {w : Nat} (x : BitVec w) (off n : Nat) :
    (x.extractLsb' off n).toNat = x.toNat / 2 ^ off % 2 ^ n := by
  rw [BitVec.extractLsb'_toNat, Nat.shiftRight_eq_div_pow]

/-- The check of the strict tail passes when the unused low bits, with the weight 2 ^ n, are 0 (R213). -/
theorem strictTail_eq_some_iff {strict : Bool} {v : BitVec 6} {n : Nat} {o out : List Byte} :
    (if strict = true ∧ v.extractLsb' 0 n ≠ 0 then none else some o) = some out ↔
      (strict = true → v.toNat % 2 ^ n = 0) ∧ out = o := by
  have hbits : v.extractLsb' 0 n = 0 ↔ v.toNat % 2 ^ n = 0 := by
    change v.extractLsb' 0 n = 0#n ↔ _
    rw [← BitVec.toNat_inj, extractLsb'_toNat_eq, pow_zero, Nat.div_one, BitVec.toNat_zero]
  rw [← hbits]
  split
  next h => exact iff_of_false nofun fun hout => h.2 (hout.1 h.1)
  next h =>
    exact ⟨fun hout => ⟨fun hs => not_not.mp fun hv => h ⟨hs, hv⟩, (Option.some.inj hout).symm⟩,
      fun hout => hout.2 ▸ rfl⟩

theorem quantumChars_quantumBits {c0 c1 c2 c3 : Byte} {v0 v1 v2 v3 : BitVec 6} (h0 : b64Char v0 = c0)
    (h1 : b64Char v1 = c1) (h2 : b64Char v2 = c2) (h3 : b64Char v3 = c3) :
    quantumChars (quantumBits v0 v1 v2 v3) = [c0, c1, c2, c3] := by
  have field {off : Nat} {v : BitVec 6} (h : (quantumBits v0 v1 v2 v3).toNat / 2 ^ off % 2 ^ 6 = v.toNat) :
      (quantumBits v0 v1 v2 v3).extractLsb' off 6 = v :=
    BitVec.eq_of_toNat_eq ((extractLsb'_toNat_eq _ _ _).trans h)
  have hq := quantumBits_toNat v0 v1 v2 v3
  rw [quantumChars, field (off := 18) (v := v0) (by omega), field (off := 12) (v := v1) (by omega),
    field (off := 6) (v := v2) (by omega), field (off := 0) (v := v3) (by omega), h0, h1, h2, h3]

/-- The 24 bits are their three bytes side by side. -/
theorem quantumBytes_append (q : BitVec 24) :
    q.extractLsb' 16 8 ++ q.extractLsb' 8 8 ++ q.extractLsb' 0 8 = q := by
  apply BitVec.eq_of_toNat_eq
  simp only [append_toNat, extractLsb'_toNat_eq]
  omega

/-! ### The texts that decode, R211 and R213 -/

/-- `B64Decodes strict t out`: the text `t` is quanta of alphabet characters, the last one full or with one
or two `=`, and `out` is their bytes; with the strict tail the unused low bits are 0. -/
inductive B64Decodes (strict : Bool) : List Byte → List Byte → Prop
  | nil : B64Decodes strict [] []
  | oneByte {c0 c1 : Byte} {v0 v1 : BitVec 6} (h0 : b64Val c0 = some v0) (h1 : b64Val c1 = some v1)
      (tail : strict = true → v1.toNat % 16 = 0) :
      B64Decodes strict [c0, c1, b64Pad, b64Pad] ((quantumBytes (quantumBits v0 v1 0 0)).take 1)
  | twoBytes {c0 c1 c2 : Byte} {v0 v1 v2 : BitVec 6} (h0 : b64Val c0 = some v0) (h1 : b64Val c1 = some v1)
      (h2 : b64Val c2 = some v2) (tail : strict = true → v2.toNat % 4 = 0) :
      B64Decodes strict [c0, c1, c2, b64Pad] ((quantumBytes (quantumBits v0 v1 v2 0)).take 2)
  | full {c0 c1 c2 c3 : Byte} {v0 v1 v2 v3 : BitVec 6} {rest out : List Byte} (h0 : b64Val c0 = some v0)
      (h1 : b64Val c1 = some v1) (h2 : b64Val c2 = some v2) (h3 : b64Val c3 = some v3)
      (more : B64Decodes strict rest out) :
      B64Decodes strict (c0 :: c1 :: c2 :: c3 :: rest) (quantumBytes (quantumBits v0 v1 v2 v3) ++ out)

theorem fullQuantum_eq_some_iff {c0 c1 c2 c3 : Byte} {out : List Byte} :
    fullQuantum c0 c1 c2 c3 = some out ↔ ∃ v0 v1 v2 v3, b64Val c0 = some v0 ∧ b64Val c1 = some v1 ∧
      b64Val c2 = some v2 ∧ b64Val c3 = some v3 ∧ out = quantumBytes (quantumBits v0 v1 v2 v3) := by
  constructor
  · intro h
    rw [fullQuantum] at h
    split at h
    next v0 v1 v2 v3 h0 h1 h2 h3 => exact ⟨v0, v1, v2, v3, h0, h1, h2, h3, (Option.some.inj h).symm⟩
    next => cases h
  · rintro ⟨v0, v1, v2, v3, h0, h1, h2, h3, rfl⟩
    rw [fullQuantum, h0, h1, h2, h3]; rfl

theorem twoByteQuantum_eq_some_iff {strict : Bool} {c0 c1 c2 : Byte} {out : List Byte} :
    twoByteQuantum strict c0 c1 c2 = some out ↔ ∃ v0 v1 v2, b64Val c0 = some v0 ∧ b64Val c1 = some v1 ∧
      b64Val c2 = some v2 ∧ (strict = true → v2.toNat % 4 = 0) ∧
      out = (quantumBytes (quantumBits v0 v1 v2 0)).take 2 := by
  constructor
  · intro h
    rw [twoByteQuantum] at h
    split at h
    next v0 v1 v2 h0 h1 h2 => exact ⟨v0, v1, v2, h0, h1, h2, strictTail_eq_some_iff.mp h⟩
    next => cases h
  · rintro ⟨v0, v1, v2, h0, h1, h2, tail⟩
    rw [twoByteQuantum, h0, h1, h2]
    exact strictTail_eq_some_iff.mpr tail

theorem oneByteQuantum_eq_some_iff {strict : Bool} {c0 c1 : Byte} {out : List Byte} :
    oneByteQuantum strict c0 c1 = some out ↔ ∃ v0 v1, b64Val c0 = some v0 ∧ b64Val c1 = some v1 ∧
      (strict = true → v1.toNat % 16 = 0) ∧ out = (quantumBytes (quantumBits v0 v1 0 0)).take 1 := by
  constructor
  · intro h
    rw [oneByteQuantum] at h
    split at h
    next v0 v1 h0 h1 => exact ⟨v0, v1, h0, h1, strictTail_eq_some_iff.mp h⟩
    next => cases h
  · rintro ⟨v0, v1, h0, h1, tail⟩
    rw [oneByteQuantum, h0, h1]
    exact strictTail_eq_some_iff.mpr tail

theorem B64Decodes.of_fullQuantum {strict : Bool} {c0 c1 c2 c3 : Byte} {rest o out : List Byte}
    (h : fullQuantum c0 c1 c2 c3 = some o) (more : B64Decodes strict rest out) :
    B64Decodes strict (c0 :: c1 :: c2 :: c3 :: rest) (o ++ out) := by
  obtain ⟨v0, v1, v2, v3, h0, h1, h2, h3, rfl⟩ := fullQuantum_eq_some_iff.mp h
  exact .full h0 h1 h2 h3 more

theorem B64Decodes.of_lastQuantum {strict : Bool} {c0 c1 c2 c3 : Byte} {out : List Byte}
    (h : lastQuantum strict c0 c1 c2 c3 = some out) : B64Decodes strict [c0, c1, c2, c3] out := by
  rw [lastQuantum] at h
  split at h
  · exact out.append_nil ▸ .of_fullQuantum h .nil
  split at h
  next hpad =>
    obtain ⟨-, rfl⟩ := hpad
    obtain ⟨v0, v1, v2, h0, h1, h2, tail, rfl⟩ := twoByteQuantum_eq_some_iff.mp h
    exact .twoBytes h0 h1 h2 tail
  split at h
  next hpad =>
    obtain ⟨rfl, rfl⟩ := hpad
    obtain ⟨v0, v1, h0, h1, tail, rfl⟩ := oneByteQuantum_eq_some_iff.mp h
    exact .oneByte h0 h1 tail
  · cases h

theorem B64Decodes.of_b64Quanta {strict : Bool} {t out : List Byte} (h : b64Quanta strict t = some out) :
    B64Decodes strict t out := by
  induction t using b64Quanta.induct (strict := strict) generalizing out with
  | case1 =>
    obtain rfl := Option.some.inj h
    exact .nil
  | case2 c0 c1 c2 c3 => exact .of_lastQuantum h
  | case3 c0 c1 c2 c3 rest hne o more hmore ho ih =>
    rw [b64Quanta.eq_3 _ _ _ _ _ _ hne, ho, hmore] at h
    obtain rfl := Option.some.inj h
    exact .of_fullQuantum ho (ih hmore)
  | case4 c0 c1 c2 c3 rest hne hno ih =>
    rw [b64Quanta.eq_3 _ _ _ _ _ _ hne] at h
    split at h
    next o more ho hmore => exact (hno o more ho hmore).elim
    next => cases h
  | case5 t h1 h2 h3 =>
    rw [b64Quanta.eq_4 _ _ h1 h2 h3] at h
    cases h

theorem B64Decodes.b64Quanta_eq {strict : Bool} {t out : List Byte} (h : B64Decodes strict t out) :
    b64Quanta strict t = some out := by
  induction h with
  | nil => rfl
  | oneByte h0 h1 tail =>
    rw [b64Quanta, lastQuantum, if_neg (by simp), if_neg (by simp), if_pos ⟨rfl, rfl⟩]
    exact oneByteQuantum_eq_some_iff.mpr ⟨_, _, h0, h1, tail, rfl⟩
  | twoBytes h0 h1 h2 tail =>
    have hpad := ne_b64Pad_of_b64Val h2
    rw [b64Quanta, lastQuantum, if_neg (by simp), if_pos ⟨hpad, rfl⟩]
    exact twoByteQuantum_eq_some_iff.mpr ⟨_, _, _, h0, h1, h2, tail, rfl⟩
  | @full c0 c1 c2 c3 v0 v1 v2 v3 rest out h0 h1 h2 h3 more ih =>
    have hfull := fullQuantum_eq_some_iff.mpr ⟨_, _, _, _, h0, h1, h2, h3, rfl⟩
    cases rest with
    | nil =>
      obtain rfl := Option.some.inj ih
      rw [b64Quanta, lastQuantum, if_pos ⟨ne_b64Pad_of_b64Val h2, ne_b64Pad_of_b64Val h3⟩, hfull,
        List.append_nil]
    | cons c rest => rw [b64Quanta.eq_3 _ _ _ _ _ _ (by simp), hfull, ih]

/-- The loop of R211 gives `out` exactly when the text decodes to it. -/
theorem b64Quanta_eq_some_iff {strict : Bool} {t out : List Byte} :
    b64Quanta strict t = some out ↔ B64Decodes strict t out :=
  ⟨.of_b64Quanta, fun h => h.b64Quanta_eq⟩

theorem B64Decodes.length_mod_four {strict : Bool} {t out : List Byte} (h : B64Decodes strict t out) :
    t.length % 4 = 0 :=
  (b64Quanta_length strict t out h.b64Quanta_eq).1

theorem withoutLineBreaks_eq_b64Text (p : Params) (s : List Byte) : withoutLineBreaks p s = b64Text p s := by
  have hkept : (fun c : Byte => decide (c ≠ 0x0D ∧ c ≠ 0x0A)) = fun c => c != 0x0D && c != 0x0A := by
    funext c
    simp [bne, BEq.beq]
  rw [withoutLineBreaks, b64Text, hkept]

theorem b64Dec_eq_some_iff_decodes {p : Params} {s out : List Byte} :
    b64Dec p s = some out ↔ B64Decodes p.b64StrictTail (withoutLineBreaks p s) out := by
  rw [b64Dec_eq_some, b64Quanta_eq_some_iff, withoutLineBreaks_eq_b64Text]
  exact and_iff_right_of_imp B64Decodes.length_mod_four

/-! ### The shape of a text that decodes -/

/-- With the strict tail, the low bits of the last character before k pad characters are 0 (R213). -/
def ZeroTail (strict : Bool) (body : List Byte) (k : Nat) : Prop :=
  strict = true → ∀ v, body.getLast?.bind b64Val = some v →
    (k = 1 → v.toNat % 4 = 0) ∧ (k = 2 → v.toNat % 16 = 0)

/-- Alphabet characters, then at most two pad characters, with a zero tail. -/
def B64Shape (strict : Bool) (t body : List Byte) (k : Nat) : Prop :=
  k ≤ 2 ∧ t = body ++ List.replicate k b64Pad ∧ (∀ c ∈ body, ∃ v, b64Val c = some v) ∧ ZeroTail strict body k

theorem ZeroTail.of_append {strict : Bool} {l body : List Byte} {k : Nat}
    (h : ZeroTail strict (l ++ body) k) : ZeroTail strict body k := by
  intro hs v hv
  obtain ⟨c, hc, hcv⟩ := Option.bind_eq_some_iff.mp hv
  exact h hs v (Option.bind_eq_some_iff.mpr ⟨c, List.mem_getLast?_append_of_mem_getLast? hc, hcv⟩)

theorem ZeroTail.zero (strict : Bool) (body : List Byte) : ZeroTail strict body 0 := by
  intro _ _ _
  exact ⟨nofun, nofun⟩

theorem ZeroTail.append {strict : Bool} {body : List Byte} {k : Nat} (l : List Byte)
    (h : ZeroTail strict body k) (hne : body ≠ []) : ZeroTail strict (l ++ body) k := by
  rwa [ZeroTail, List.getLast?_append_of_ne_nil _ hne]

theorem B64Decodes.shape {strict : Bool} {t out : List Byte} (h : B64Decodes strict t out) :
    ∃ body k, B64Shape strict t body k := by
  induction h with
  | nil => exact ⟨[], 0, by omega, rfl, by simp, .zero _ _⟩
  | @oneByte c0 c1 v0 v1 h0 h1 tail =>
    refine ⟨[c0, c1], 2, le_rfl, rfl, by simp [h0, h1], fun hs v hv => ⟨nofun, fun _ => ?_⟩⟩
    obtain rfl := Option.some.inj (h1.symm.trans hv)
    exact tail hs
  | @twoBytes c0 c1 c2 v0 v1 v2 h0 h1 h2 tail =>
    refine ⟨[c0, c1, c2], 1, by omega, rfl, by simp [h0, h1, h2], fun hs v hv => ⟨fun _ => ?_, nofun⟩⟩
    obtain rfl := Option.some.inj (h2.symm.trans hv)
    exact tail hs
  | @full c0 c1 c2 c3 v0 v1 v2 v3 rest out h0 h1 h2 h3 more ih =>
    obtain ⟨body, k, hk, rfl, hbody, hzero⟩ := ih
    refine ⟨[c0, c1, c2, c3] ++ body, k, hk, rfl, by simpa [h0, h1, h2, h3] using hbody, ?_⟩
    by_cases hne : body = []
    · have hmod := more.length_mod_four
      rw [hne, List.nil_append, List.length_replicate] at hmod
      obtain rfl : k = 0 := by omega
      exact .zero _ _
    · exact hzero.append _ hne

/-- A text of that shape decodes, to three bytes a quantum less one for each pad character. -/
theorem exists_b64Decodes {strict : Bool} {k : Nat} (hk : k ≤ 2) : ∀ body : List Byte,
    (∀ c ∈ body, ∃ v, b64Val c = some v) → ZeroTail strict body k → (body.length + k) % 4 = 0 →
    ∃ out, B64Decodes strict (body ++ List.replicate k b64Pad) out ∧
      out.length + k = 3 * ((body.length + k) / 4)
  | [], _, _, hmod => by
    rw [List.length_nil] at hmod
    obtain rfl : k = 0 := by omega
    exact ⟨[], .nil, rfl⟩
  | [_], _, _, hmod => by
    rw [List.length_singleton] at hmod
    omega
  | [c0, c1], hbody, hzero, hmod => by
    obtain rfl : k = 2 := by simp only [List.length_cons, List.length_nil] at hmod; omega
    obtain ⟨v0, h0⟩ := hbody c0 (by simp)
    obtain ⟨v1, h1⟩ := hbody c1 (by simp)
    exact ⟨_, .oneByte h0 h1 fun hs => (hzero hs v1 h1).2 rfl, by simp⟩
  | [c0, c1, c2], hbody, hzero, hmod => by
    obtain rfl : k = 1 := by simp only [List.length_cons, List.length_nil] at hmod; omega
    obtain ⟨v0, h0⟩ := hbody c0 (by simp)
    obtain ⟨v1, h1⟩ := hbody c1 (by simp)
    obtain ⟨v2, h2⟩ := hbody c2 (by simp)
    exact ⟨_, .twoBytes h0 h1 h2 fun hs => (hzero hs v2 h2).1 rfl, by simp⟩
  | c0 :: c1 :: c2 :: c3 :: body, hbody, hzero, hmod => by
    obtain ⟨v0, h0⟩ := hbody c0 (by simp)
    obtain ⟨v1, h1⟩ := hbody c1 (by simp)
    obtain ⟨v2, h2⟩ := hbody c2 (by simp)
    obtain ⟨v3, h3⟩ := hbody c3 (by simp)
    simp only [List.length_cons] at hmod ⊢
    obtain ⟨out, hout, hlen⟩ := exists_b64Decodes hk body (fun c hc => hbody c (by simp [hc]))
      (hzero.of_append (l := [c0, c1, c2, c3])) (by omega)
    refine ⟨_, .full h0 h1 h2 h3 hout, ?_⟩
    rw [List.length_append, quantumBytes_length]
    omega

/-- The same, of the whole text. -/
theorem B64Shape.exists_decodes {strict : Bool} {t body : List Byte} {k : Nat} (h : B64Shape strict t body k)
    (hmod : t.length % 4 = 0) :
    ∃ out, B64Decodes strict t out ∧ out.length = 3 * (t.length / 4) - k := by
  obtain ⟨hk, rfl, hbody, hzero⟩ := h
  rw [List.length_append, List.length_replicate] at hmod ⊢
  obtain ⟨out, hout, hlen⟩ := exists_b64Decodes hk body hbody hzero hmod
  exact ⟨out, hout, by omega⟩

/-- Settles O49: a text that decodes has the shape, and one of that shape decodes to so many bytes. -/
theorem base64AcceptsExactlyTheWellFormedTexts : Obligations.Base64AcceptsExactlyTheWellFormedTexts := by
  intro p s t shape
  have hdec (out : List Byte) : b64Dec p s = some out ↔ B64Decodes p.b64StrictTail t out :=
    b64Dec_eq_some_iff_decodes
  refine ⟨⟨fun ⟨out, hout⟩ => ?_, fun ⟨hmod, body, k, hshape⟩ => ?_⟩, fun out body k hout hshape => ?_⟩
  · exact ⟨((hdec out).mp hout).length_mod_four, ((hdec out).mp hout).shape⟩
  · obtain ⟨out, hout, -⟩ := B64Shape.exists_decodes hshape hmod
    exact ⟨out, (hdec out).mpr hout⟩
  · obtain ⟨out', hout', hlen⟩ := B64Shape.exists_decodes hshape ((hdec out).mp hout).length_mod_four
    obtain rfl := Option.some.inj (hout.symm.trans ((hdec out').mpr hout'))
    exact hlen

/-! ### The bytes a text decodes to, R211 -/

/-- The 6-bit value at a place of a text, 0 where no alphabet character stands. -/
def sextet (t : List Byte) (k : Nat) : Nat := ((b64Val (t.getD k 0)).getD 0).toNat

/-- Byte j of the values `v`: bits 23-16, 15-8 or 7-0 of quantum j / 3. -/
def sextetByte (v : Nat → Nat) (j : Nat) : Nat :=
  if j % 3 = 0 then 4 * v (4 * (j / 3)) + v (4 * (j / 3) + 1) / 16
  else if j % 3 = 1 then 16 * (v (4 * (j / 3) + 1) % 16) + v (4 * (j / 3) + 2) / 4
  else 64 * (v (4 * (j / 3) + 2) % 4) + v (4 * (j / 3) + 3)

theorem sextet_drop_four (c0 c1 c2 c3 : Byte) (rest : List Byte) (k : Nat) :
    sextet (c0 :: c1 :: c2 :: c3 :: rest) (k + 4) = sextet rest k := rfl

/-- Three bytes on is one quantum on. -/
theorem sextetByte_add_three (v : Nat → Nat) (j : Nat) :
    sextetByte v (j + 3) = sextetByte (fun k => v (k + 4)) j := by
  have hquantum : 4 * ((j + 3) / 3) = 4 * (j / 3) + 4 := by omega
  simp only [sextetByte, hquantum, Nat.add_mod_right]

/-- The bytes of a quantum, from its four values. -/
theorem quantumBytes_getD {v : Nat → Nat} {v0 v1 v2 v3 : BitVec 6} (h0 : v 0 = v0.toNat)
    (h1 : v 1 = v1.toNat) (h2 : v 2 = v2.toNat) (h3 : v 3 = v3.toNat) {j : Nat} (hj : j < 3) :
    ((quantumBytes (quantumBits v0 v1 v2 v3)).getD j 0).toNat = sextetByte v j := by
  have hq := quantumBits_toNat v0 v1 v2 v3
  have := v0.isLt
  have := v1.isLt
  have := v2.isLt
  have := v3.isLt
  match j, hj with
  | 0, _ =>
    change ((quantumBits v0 v1 v2 v3).extractLsb' 16 8).toNat = 4 * v 0 + v 1 / 16
    rw [extractLsb'_toNat_eq]; omega
  | 1, _ =>
    change ((quantumBits v0 v1 v2 v3).extractLsb' 8 8).toNat = 16 * (v 1 % 16) + v 2 / 4
    rw [extractLsb'_toNat_eq]; omega
  | 2, _ =>
    change ((quantumBits v0 v1 v2 v3).extractLsb' 0 8).toNat = 64 * (v 2 % 4) + v 3
    rw [extractLsb'_toNat_eq]; omega

theorem getD_take {l : List Byte} {n j : Nat} (h : j < n) : (l.take n).getD j 0 = l.getD j 0 := by
  rw [List.getD_eq_getElem?_getD, List.getElem?_take_of_lt h, List.getD_eq_getElem?_getD]

theorem sextet_of_b64Val {t : List Byte} {k : Nat} {v : BitVec 6} (h : b64Val (t.getD k 0) = some v) :
    sextet t k = v.toNat := by
  rw [sextet, h, Option.getD_some]

theorem sextet_of_b64Val_none {t : List Byte} {k : Nat} (h : b64Val (t.getD k 0) = none) :
    sextet t k = (0 : BitVec 6).toNat := by
  rw [sextet, h, Option.getD_none]

theorem B64Decodes.getD_toNat {strict : Bool} {t out : List Byte} (h : B64Decodes strict t out) :
    ∀ j < out.length, (out.getD j 0).toNat = sextetByte (sextet t) j := by
  induction h with
  | nil => intro j hj; cases hj
  | @oneByte c0 c1 v0 v1 h0 h1 tail =>
    intro j hj
    rw [List.length_take_of_le (by simp)] at hj
    rw [getD_take hj]
    exact quantumBytes_getD (v := sextet [c0, c1, b64Pad, b64Pad]) (sextet_of_b64Val h0)
      (sextet_of_b64Val h1) (sextet_of_b64Val_none b64Val_b64Pad) (sextet_of_b64Val_none b64Val_b64Pad)
      (by omega)
  | @twoBytes c0 c1 c2 v0 v1 v2 h0 h1 h2 tail =>
    intro j hj
    rw [List.length_take_of_le (by simp)] at hj
    rw [getD_take hj]
    exact quantumBytes_getD (v := sextet [c0, c1, c2, b64Pad]) (sextet_of_b64Val h0) (sextet_of_b64Val h1)
      (sextet_of_b64Val h2) (sextet_of_b64Val_none b64Val_b64Pad) (by omega)
  | @full c0 c1 c2 c3 v0 v1 v2 v3 rest out h0 h1 h2 h3 more ih =>
    intro j hj
    by_cases hfirst : j < 3
    · rw [List.getD_append _ _ _ _ hfirst]
      exact quantumBytes_getD (v := sextet (c0 :: c1 :: c2 :: c3 :: rest)) (sextet_of_b64Val h0)
        (sextet_of_b64Val h1) (sextet_of_b64Val h2) (sextet_of_b64Val h3) hfirst
    · obtain ⟨i, rfl⟩ := Nat.exists_eq_add_of_le' (not_lt.mp hfirst)
      rw [sextetByte_add_three]
      exact ih i (Nat.lt_of_add_lt_add_right hj)

/-- Settles O50: quantum by quantum, a pad character counting as the value 0. -/
theorem base64BytesAreTheQuantumBits : Obligations.Base64BytesAreTheQuantumBits := by
  intro p s out hout v j hj
  exact (b64Dec_eq_some_iff_decodes.mp hout).getD_toNat j hj

/-! ### One text per byte sequence, R213 -/

/-- The base64 text of a byte sequence, its unused low bits 0. -/
def b64Encode : List Byte → List Byte
  | [] => []
  | [a] => (quantumChars (a ++ 0#8 ++ 0#8)).take 2 ++ [b64Pad, b64Pad]
  | [a, b] => (quantumChars (a ++ b ++ 0#8)).take 3 ++ [b64Pad]
  | a :: b :: c :: rest => quantumChars (a ++ b ++ c) ++ b64Encode rest

theorem quantumBits_of_oneByte (v0 : BitVec 6) {v1 : BitVec 6} (h : v1.toNat % 16 = 0) :
    (quantumBits v0 v1 0 0).extractLsb' 16 8 ++ 0#8 ++ 0#8 = quantumBits v0 v1 0 0 := by
  have hq := quantumBits_toNat v0 v1 0 0
  apply BitVec.eq_of_toNat_eq
  simp only [append_toNat, extractLsb'_toNat_eq, BitVec.ofNat_eq_ofNat, BitVec.toNat_zero] at hq ⊢
  omega

theorem quantumBits_of_twoBytes (v0 v1 : BitVec 6) {v2 : BitVec 6} (h : v2.toNat % 4 = 0) :
    (quantumBits v0 v1 v2 0).extractLsb' 16 8 ++ (quantumBits v0 v1 v2 0).extractLsb' 8 8 ++ 0#8
      = quantumBits v0 v1 v2 0 := by
  have hq := quantumBits_toNat v0 v1 v2 0
  apply BitVec.eq_of_toNat_eq
  simp only [append_toNat, extractLsb'_toNat_eq, BitVec.ofNat_eq_ofNat, BitVec.toNat_zero] at hq ⊢
  omega

/-- With the strict tail a text is the encoding of what it decodes to. -/
theorem B64Decodes.eq_b64Encode {t out : List Byte} (h : B64Decodes true t out) : t = b64Encode out := by
  induction h with
  | nil => rfl
  | oneByte h0 h1 tail =>
    rw [quantumBytes, List.take_succ_cons, List.take_zero, b64Encode, quantumBits_of_oneByte _ (tail rfl),
      quantumChars_quantumBits (b64Char_of_b64Val h0) (b64Char_of_b64Val h1) rfl rfl]
    rfl
  | twoBytes h0 h1 h2 tail =>
    rw [quantumBytes, List.take_succ_cons, List.take_succ_cons, List.take_zero, b64Encode,
      quantumBits_of_twoBytes _ _ (tail rfl),
      quantumChars_quantumBits (b64Char_of_b64Val h0) (b64Char_of_b64Val h1) (b64Char_of_b64Val h2) rfl]
    rfl
  | full h0 h1 h2 h3 more ih =>
    rw [quantumBytes, List.cons_append, List.cons_append, List.cons_append, List.nil_append, b64Encode,
      quantumBytes_append, quantumChars_quantumBits (b64Char_of_b64Val h0) (b64Char_of_b64Val h1)
        (b64Char_of_b64Val h2) (b64Char_of_b64Val h3), ← ih]
    rfl

/-- Settles O51: both texts are the encoding of their bytes. -/
theorem strictBase64HasOneTextPerByteSequence : Obligations.StrictBase64HasOneTextPerByteSequence := by
  intro p s s' out hstrict h h'
  have htext {x : List Byte} (hx : b64Dec p x = some out) : withoutLineBreaks p x = b64Encode out :=
    B64Decodes.eq_b64Encode (hstrict ▸ b64Dec_eq_some_iff_decodes.mp hx)
  rw [htext h, htext h']

/-! ### DECODE_LENIENT, R214 -/

/-- What DECODE_LENIENT returns of a decrypted buffer (R214). -/
def lenientOutput (d : List Byte) : Output :=
  { bytes := (d.drop 20).take (prefixValue d), poff := some 0, plen := some (prefixValue d) }

/-- The checks of DECODE_LENIENT on the bytes `b` its text decodes to, and what it returns. -/
def State.lenientSlice (s : State) (b : List Byte) : Except Err Output :=
  if b.length < 32 then .error .shortCiphertext
  else if b.length % 16 ≠ 0 then .error .unalignedCiphertext
  else if s.keyLen ≠ 32 then .error .invalidKeySize
  else if 20 + prefixValue (cbcD s.keyBytes s.keyIv b) > b.length then .error .lengthOverflow
  else .ok (lenientOutput (cbcD s.keyBytes s.keyIv b))

theorem exec_decodeLenient_of_too_long {s : State} (hcap : s.inLen.toNat > s.params.bufBytes) :
    exec .decodeLenient s = .next (s.afterError 9) := by
  rw [exec_decodeLenient, decodeLenientOutcome, if_pos hcap]; rfl

theorem exec_decodeLenient_of_not_base64 {s : State} (hcap : s.inLen.toNat ≤ s.params.bufBytes)
    (hb : b64Dec s.params (s.inputAt 0 s.inLen.toNat) = none) :
    exec .decodeLenient s = .next (s.afterError 7) := by
  rw [exec_decodeLenient, decodeLenientOutcome, if_neg (not_lt.mpr hcap), State.inBytes_eq_inputAt, hb]; rfl

/-- A text that fits and decodes leaves the rest of the checks. -/
theorem exec_decodeLenient_of_base64 {s : State} {b : List Byte} (hcap : s.inLen.toNat ≤ s.params.bufBytes)
    (hb : b64Dec s.params (s.inputAt 0 s.inLen.toNat) = some b) :
    exec .decodeLenient s = .next (s.complete (s.lenientSlice b)) := by
  have hslice (d : List Byte) (n : Nat) : slice d 20 (20 + n) = (d.drop 20).take n := by
    rw [slice, Nat.add_sub_cancel_left]
  rw [exec_decodeLenient, decodeLenientOutcome, if_neg (not_lt.mpr hcap), State.inBytes_eq_inputAt, hb]
  simp only [State.lenientSlice, lenientOutput, beval_slice_eq_prefixValue, hslice]

section
variable {s : State} {b : List Byte}

theorem State.lenientSlice_of_short (h : b.length < 32) : s.lenientSlice b = .error .shortCiphertext :=
  if_pos h

theorem State.lenientSlice_of_unaligned (hmin : 32 ≤ b.length) (h : b.length % 16 ≠ 0) :
    s.lenientSlice b = .error .unalignedCiphertext := by
  rw [State.lenientSlice, if_neg (not_lt.mpr hmin), if_pos h]

theorem State.lenientSlice_of_keyLen_ne (hmin : 32 ≤ b.length) (hunit : b.length % 16 = 0)
    (h : s.keyLen ≠ 32) : s.lenientSlice b = .error .invalidKeySize := by
  rw [State.lenientSlice, if_neg (not_lt.mpr hmin), if_neg (not_not.mpr hunit), if_pos h]

theorem State.lenientSlice_of_overflow (hmin : 32 ≤ b.length) (hunit : b.length % 16 = 0)
    (hk : s.keyLen = 32) (h : 20 + prefixValue (cbcD s.keyBytes s.keyIv b) > b.length) :
    s.lenientSlice b = .error .lengthOverflow := by
  rw [State.lenientSlice, if_neg (not_lt.mpr hmin), if_neg (not_not.mpr hunit), if_neg (not_not.mpr hk),
    if_pos h]

theorem State.lenientSlice_of_fits (hmin : 32 ≤ b.length) (hunit : b.length % 16 = 0) (hk : s.keyLen = 32)
    (h : 20 + prefixValue (cbcD s.keyBytes s.keyIv b) ≤ b.length) :
    s.lenientSlice b = .ok (lenientOutput (cbcD s.keyBytes s.keyIv b)) := by
  rw [State.lenientSlice, if_neg (not_lt.mpr hmin), if_neg (not_not.mpr hunit), if_neg (not_not.mpr hk),
    if_neg (not_lt.mpr h)]

end

theorem lenientOutput_length {d : List Byte} (h : 20 + prefixValue d ≤ d.length) :
    (lenientOutput d).bytes.length = prefixValue d := by
  simp only [lenientOutput, List.length_take, List.length_drop]; omega

/-- Settles O25: one outcome for each check, and what a completion makes of it. -/
theorem decodeLenientReturnsTheNamedSlice : Obligations.DecodeLenientReturnsTheNamedSlice := by
  refine ⟨rfl, ?_⟩
  intro s hwf text
  refine ⟨exec_decodeLenient_of_too_long, exec_decodeLenient_of_not_base64, ?_⟩
  intro b hcap hb d n
  have error {e : Err} (h : s.lenientSlice b = .error e) :
      exec .decodeLenient s = .next (s.afterError e.code) := by
    rw [exec_decodeLenient_of_base64 hcap hb, h, State.complete_error_eq_afterError]
  refine ⟨fun hmin => error (State.lenientSlice_of_short hmin),
    fun hmin hunit => error (State.lenientSlice_of_unaligned hmin hunit),
    fun hmin hunit hk => error (State.lenientSlice_of_keyLen_ne hmin hunit hk),
    fun hmin hunit hk hn => error (State.lenientSlice_of_overflow hmin hunit hk hn),
    fun hmin hunit hk hn => ⟨_, exec_decodeLenient_of_base64 hcap hb, ?_, ?_⟩⟩
  · exact lenientOutput_length (d := d) ((cbcD_length _ _ b hunit).symm ▸ hn)
  · rw [State.lenientSlice_of_fits hmin hunit hk hn]
    exact State.afterSuccess_complete hwf _

/-! ### Agreement with DECODE, R216 -/

/-- A DECODE that leaves ERRCODE 0 has succeeded (60_exceptions.md R276). -/
theorem decodeOutcome_ok_of_errcode {s t : State} (h : exec .decode s = .next t) (ht : t.errcode = 0) :
    ∃ o, decodeOutcome s = .ok o ∧ t = s.complete (.ok o) := by
  rw [exec_decode] at h
  obtain rfl := Host.Outcome.next.inj h
  cases ho : decodeOutcome s with
  | error e =>
    rw [ho] at ht
    exact absurd ht e.code_ne_zero
  | ok o => exact ⟨o, rfl, rfl⟩

/-- The payload DECODE names lies in its text, 20 + n <= T, and so in the buffer. -/
theorem decodeOutcome_payload {s : State} {o : Output} (h : decodeOutcome s = .ok o) :
    s.keyLen = 32 ∧ 32 ≤ s.inLen.toNat ∧ s.inLen.toNat % 16 = 0 ∧
    ∃ t, o = strictOutput s.strictPlain t (prefixValue s.strictPlain) ∧ o.bytes.length = t ∧
      20 + prefixValue s.strictPlain ≤ t ∧ t ≤ s.inLen.toNat := by
  obtain ⟨-, hmin, hunit, hk, t, n, hpad, hparse, ho, hlen⟩ := decodeOutcome_ok h
  obtain ⟨hn, hfit⟩ := lenParse_ok hparse
  obtain ⟨-, -, -, -, ht⟩ := padValidate_ok hpad
  rw [beval_slice_eq_prefixValue] at hn
  subst hn
  rw [s.strictPlain_length (by omega)] at ht
  exact ⟨hk, hmin, by omega, t, ho, hlen, hfit, by omega⟩

/-- Settles O54: both commands decrypt to one buffer, whose payload ends before its pad bytes. -/
theorem lenientDecodeReturnsTheStrictPayload : Obligations.LenientDecodeReturnsTheStrictPayload := by
  intro s t s2 hparams hwf hwf2 herr hexec ht hkey hk2 hcap hb
  obtain ⟨o, ho, rfl⟩ := decodeOutcome_ok_of_errcode hexec ht
  obtain ⟨-, hmin, hunit, T, rfl, hlen, hfit, hT⟩ := decodeOutcome_payload ho
  have hplain : cbcD s2.keyBytes s2.keyIv (s.inputAt 0 s.inLen.toNat) = s.strictPlain := by
    rw [State.keyBytes_congr hkey, State.keyIv_congr hkey, State.strictPlain, State.inBytes_eq_inputAt]
  have hclen : (s.inputAt 0 s.inLen.toNat).length = s.inLen.toNat := s.inBytes_length 0 _
  have hslice : s2.lenientSlice (s.inputAt 0 s.inLen.toNat) = .ok (lenientOutput s.strictPlain) := by
    have hfits := State.lenientSlice_of_fits (s := s2) (hclen.symm ▸ hmin) (hclen.symm ▸ hunit) hk2
    rw [hplain, hclen] at hfits
    exact hfits (by omega)
  have houtLen : (lenientOutput s.strictPlain).bytes.length = prefixValue s.strictPlain :=
    lenientOutput_length (by rw [s.strictPlain_length hunit]; omega)
  have hplen : (BitVec.ofNat 32 (prefixValue s.strictPlain)).toNat = prefixValue s.strictPlain := by
    have := s.inLen.isLt
    rw [BitVec.toNat_ofNat]; omega
  rw [exec_decodeLenient_of_base64 hcap hb, hslice]
  refine ⟨_, rfl, rfl, congrArg (BitVec.ofNat 32) houtLen, rfl, rfl, fun j hj => ?_⟩
  change j < (BitVec.ofNat 32 (prefixValue s.strictPlain)).toNat at hj
  rw [hplen] at hj
  rw [(State.afterSuccess_complete hwf2 _).bytes, (State.afterSuccess_complete hwf _).bytes, houtLen, hlen,
    if_pos hj, if_pos (by omega)]
  change ((s.strictPlain.drop 20).take _).getD j 0 = (s.strictPlain.take T).getD (20 + j) 0
  rw [getD_take hj, getD_take (by omega), List.getD_eq_getElem?_getD, List.getElem?_drop,
    List.getD_eq_getElem?_getD]

end Sys2Proof.Machine

/-! PROOFS for 46_host_bus.md: what a read returns (O11); strobes (O13), writes that are dropped (O14) and
writes without effect (O20); the CTRL, CMD, STATUS, operand and IN_BUF writes (O15 to O19); that no write
produces a result (O21); and the inputs of a command that runs (O34). -/

namespace Sys2Proof.Machine

/-! ### The registers by address -/

@[simp] theorem Reg.offset_key (i : Fin 8) : (Reg.key i).offset = 0x020 + 4 * i.val := by
  revert i; decide

@[simp] theorem Reg.offset_nonce (i : Fin 4) : (Reg.nonce i).offset = 0x040 + 4 * i.val := by
  revert i; decide

@[simp] theorem Reg.offset_iv (i : Fin 4) : (Reg.iv i).offset = 0x050 + 4 * i.val := by
  revert i; decide

theorem registerMap_offset : ∀ e ∈ registerMap, e.1 = e.2.offset ∧ e.1 ≤ 0x080 := by decide

/-- An address leads to a register exactly when its word is at the register's offset (10_state.md R23). -/
theorem target_eq_reg_iff {a : BitVec 18} {r : Reg} : target a = .reg r ↔ wordAddr a = r.offset := by
  constructor
  · intro h
    exact (registerMap_offset _ (target_reg_mem h)).1
  · intro h
    have hr := target_offset r
    have hword : wordAddr (BitVec.ofNat 18 r.offset) = r.offset :=
      (registerMap_offset _ (target_reg_mem hr)).1
    rw [wordAddr_eq] at h hword
    exact (target_congr (by omega)).trans hr

theorem Reg.offset_le (r : Reg) : r.offset ≤ 0x080 := by
  obtain ⟨ho, hle⟩ := registerMap_offset _ (target_reg_mem (target_offset r))
  exact ho ▸ hle

theorem target_outBuf_range {a : BitVec 18} {o : Nat} (h : target a = .outBuf o) :
    0x20000 ≤ wordAddr a ∧ wordAddr a < 0x30000 := by
  by_cases hr : wordAddr a < 0x100
  · rw [target_of_reg hr] at h
    split at h <;> cases h
  by_cases hi : 0x10000 ≤ wordAddr a ∧ wordAddr a < 0x20000
  · rw [target_of_inBuf hi.1 hi.2] at h
    cases h
  by_contra ho
  rw [target_of_reserved (by omega)] at h
  cases h

/-- An address past the registers, in no window, leads to nothing: a reserved offset or region. -/
theorem target_of_hole {a : BitVec 18}
    (h : (0x084 ≤ wordAddr a ∧ wordAddr a < 0x10000) ∨ 0x30000 ≤ wordAddr a) :
    target a = .reservedReg ∨ target a = .reserved := by
  cases ht : target a with
  | reg r =>
    have := target_eq_reg_iff.mp ht
    have := r.offset_le
    omega
  | reservedReg => exact .inl rfl
  | inBuf o =>
    have := target_inBuf_range ht
    omega
  | outBuf o =>
    have := target_outBuf_range ht
    omega
  | reserved => exact .inr rfl

/-- The gated targets are those of `gatedAddr` (46_host_bus.md R244). -/
theorem gated_iff_gatedAddr (a : BitVec 18) : (target a).gated = true ↔ gatedAddr (wordAddr a) :=
  target_gated_iff a

/-! ### RD -/

/-- A read of a register's word. -/
theorem State.busRead_reg (s : State) {a : BitVec 18} {r : Reg} (h : wordAddr a = r.offset) :
    s.busRead a = s.readReg r := by
  simp only [State.busRead, target_eq_reg_iff.mpr h]

/-- Reserved offsets and reserved regions read 0. -/
theorem State.busRead_reserved (s : State) {a : BitVec 18}
    (h : target a = .reservedReg ∨ target a = .reserved) : s.busRead a = 0 := by
  rcases h with h | h <;> simp only [State.busRead, h]

/-- The KEY registers read 0 (10_state.md R31). -/
theorem State.busRead_key (s : State) {a : BitVec 18} (h1 : 0x020 ≤ wordAddr a) (h2 : wordAddr a ≤ 0x03C) :
    s.busRead a = 0 := by
  have h4 := wordAddr_eq a
  have hkey : wordAddr a = (Reg.key ⟨a.toNat / 4 - 8, by omega⟩).offset := by
    rw [Reg.offset_key]; simp only; omega
  exact s.busRead_reg hkey

theorem State.busRead_inBuf (s : State) {a : BitVec 18} {o : Nat} (ho : o < 0x10000)
    (h : wordAddr a = 0x10000 + o) : s.busRead a = windowWord s.params s.inBuf o := by
  rw [State.busRead, target_of_inBuf (by omega) (by omega), h, Nat.add_sub_cancel_left]

theorem State.busRead_outBuf (s : State) {a : BitVec 18} {o : Nat} (ho : o < 0x10000)
    (h : wordAddr a = 0x20000 + o) : s.busRead a = windowWord s.params s.outBuf o := by
  rw [State.busRead, target_of_outBuf (by omega) (by omega), h, Nat.add_sub_cancel_left]

/-- Lane j of a window word is the buffer byte at o + j below BUF_BYTES, and 0 from there on. -/
theorem extractLsb'_windowWord (p : Params) (m : Memory) (o : Nat) {j : Nat} (hj : j < 4) :
    (windowWord p m o).extractLsb' (8 * j) 8 = if o + j < p.bufBytes then m.read (o + j) else 0 := by
  have hlane := lane_wordOfLanes (windowByte p m o) (windowByte p m (o + 1)) (windowByte p m (o + 2))
    (windowByte p m (o + 3)) j hj
  rw [← windowWord, lane] at hlane
  rw [hlane]
  interval_cases j <;> rfl

/-- A window of a buffer of zeros reads 0. -/
theorem windowWord_nil (p : Params) (o : Nat) : windowWord p [] o = 0 := by
  simp [windowWord, windowByte, wordOfLanes]

theorem flagWord_eq_ite (b : Bool) : flagWord b = if b then 1 else 0 := by cases b <;> rfl

theorem flagWord_getLsbD (b : Bool) (k : Nat) : (flagWord b).getLsbD k = (decide (k = 0) && b) := by
  rw [flagWord, BitVec.getLsbD_setWidth, BitVec.getLsbD_ofBool]
  by_cases hk : k = 0 <;> simp [hk]

/-- What STATUS reads: BUSY, DONE, ERR and OVR, and 0 in every bit above them (46_host_bus.md R241). -/
theorem State.statusWord_spec (s : State) :
    (s.statusWord.getLsbD 0 = true ↔ s.fsm = .busy) ∧ s.statusWord.getLsbD 1 = s.done ∧
    (s.statusWord.getLsbD 2 = true ↔ s.errcode ≠ 0) ∧ s.statusWord.getLsbD 3 = s.ovr ∧
    ∀ k, 4 ≤ k → s.statusWord.getLsbD k = false := by
  simp only [State.statusWord, BitVec.getLsbD_or, BitVec.getLsbD_shiftLeft, flagWord_getLsbD]
  refine ⟨by simp [State.busyFlag], by simp, by simp [State.errFlag], by simp, fun k hk => ?_⟩
  simp [show k ≠ 0 by omega, show k - 1 ≠ 0 by omega, show k - 2 ≠ 0 by omega, show k - 3 ≠ 0 by omega]

theorem State.errcodeWord_toNat (s : State) : s.errcodeWord.toNat = s.errcode.toNat :=
  BitVec.toNat_setWidth_of_le (by decide)

/-- While BUSY every result reads 0 (46_host_bus.md R241, corner case (a)). -/
theorem MachineInv.busRead_result {s : State} (h : MachineInv s) (hb : s.fsm = .busy) {a : BitVec 18}
    (ha : (0x070 ≤ wordAddr a ∧ wordAddr a ≤ 0x080) ∨ (0x20000 ≤ wordAddr a ∧ wordAddr a < 0x30000)) :
    s.busRead a = 0 := by
  have h4 := wordAddr_eq a
  obtain ⟨-, -, houtLen, hpoff, hplen, hioff, hilen⟩ := h.busy hb
  by_cases hwin : 0x20000 ≤ wordAddr a
  · rw [s.busRead_outBuf (o := wordAddr a - 0x20000) (by omega) (by omega), h.outBuf_of_busy hb,
      windowWord_nil]
  · have hreg : wordAddr a = 0x070 ∨ wordAddr a = 0x074 ∨ wordAddr a = 0x078 ∨ wordAddr a = 0x07C ∨
        wordAddr a = 0x080 := by omega
    rcases hreg with hw | hw | hw | hw | hw
    · exact (s.busRead_reg (r := .outLen) hw).trans houtLen
    · exact (s.busRead_reg (r := .resPoff) hw).trans hpoff
    · exact (s.busRead_reg (r := .resPlen) hw).trans hplen
    · exact (s.busRead_reg (r := .resIoff) hw).trans hioff
    · exact (s.busRead_reg (r := .resIlen) hw).trans hilen

/-- Settles O11: the value by what the word address leads to. -/
theorem readReturnsTheWordAndChangesNothing : Obligations.ReadReturnsTheWordAndChangesNothing := by
  intro a s
  have reg (r : Reg) : wordAddr a = r.offset → s.busRead a = s.readReg r := s.busRead_reg
  have reservedReg (o : Nat) (hr : regAt o = none) (ho : o < 0x100) (h : wordAddr a = o) :
      s.busRead a = 0 :=
    s.busRead_reserved (.inl (target_eq_reservedReg h hr ho))
  exact ⟨s.busRead a, exec_rd a s,
    reg .ident,
    reg .cap,
    fun h => (reg .ctrl h).trans (flagWord_eq_ite s.irqEn),
    reg .cmd,
    fun h => reg .status h ▸ s.statusWord_spec,
    fun h => (congrArg BitVec.toNat (reg .errcode h)).trans s.errcodeWord_toNat,
    reg .keyLen,
    reservedReg 0x01C rfl (by decide),
    s.busRead_key,
    fun i h => reg (.nonce i) (h.trans (Reg.offset_nonce i).symm),
    fun i h => reg (.iv i) (h.trans (Reg.offset_iv i).symm),
    reg .plen,
    reg .ilen,
    reg .inLen,
    reservedReg 0x06C rfl (by decide),
    reg .outLen,
    reg .resPoff,
    reg .resPlen,
    reg .resIoff,
    reg .resIlen,
    fun h1 h2 => s.busRead_reserved (target_of_hole (.inl ⟨h1, h2⟩)),
    fun o ho h j hj => s.busRead_inBuf ho h ▸ extractLsb'_windowWord s.params s.inBuf o hj,
    fun o ho h j hj => s.busRead_outBuf ho h ▸ extractLsb'_windowWord s.params s.outBuf o hj,
    fun h => s.busRead_reserved (target_of_hole (.inr h)),
    fun hinv hb h => hinv.busRead_result hb h⟩

/-! ### Writes that change nothing, or only OVR -/

/-- The targets no write has an effect on: the read-only registers, OUT_BUF and every reserved place
(46_host_bus.md R250, R251). -/
def Target.inert : Target → Bool
  | .reg .ident | .reg .cap | .reg .errcode | .reg .outLen => true
  | .reg .resPoff | .reg .resPlen | .reg .resIoff | .reg .resIlen => true
  | .reg _ | .inBuf _ => false
  | .reservedReg | .outBuf _ | .reserved => true

/-- The registers a write can change are CTRL, CMD, STATUS and the operand registers. -/
theorem offset_of_not_inert {r : Reg} (h : (Target.reg r).inert = false) :
    r.offset = 0x008 ∨ r.offset = 0x00C ∨ r.offset = 0x010 ∨ r.offset = 0x018 ∨
      (0x020 ≤ r.offset ∧ r.offset ≤ 0x068) := by
  cases r with
  | key i => rw [Reg.offset_key]; omega
  | nonce i => rw [Reg.offset_nonce]; omega
  | iv i => rw [Reg.offset_iv]; omega
  | ident | cap | errcode | outLen | resPoff | resPlen | resIoff | resIlen => cases h
  | ctrl | cmd | status | keyLen | plen | ilen | inLen => decide

/-- The addresses of the inert targets. -/
theorem target_inert {a : BitVec 18}
    (h : wordAddr a = 0x000 ∨ wordAddr a = 0x004 ∨ wordAddr a = 0x014 ∨ wordAddr a = 0x01C ∨
      (0x06C ≤ wordAddr a ∧ wordAddr a < 0x10000) ∨ 0x20000 ≤ wordAddr a) : (target a).inert = true := by
  cases ht : target a with
  | reg r =>
    by_contra hr
    have := target_eq_reg_iff.mp ht
    have := offset_of_not_inert (Bool.eq_false_iff.mpr hr)
    omega
  | inBuf o =>
    have := target_inBuf_range ht
    omega
  | reservedReg | outBuf | reserved => rfl

theorem Target.gated_of_inert {t : Target} (h : t.inert = true) : t.gated = false := by
  cases t with
  | reg r => cases r with
    | cmd | keyLen | key | nonce | iv | plen | ilen | inLen => cases h
    | _ => rfl
  | inBuf => cases h
  | reservedReg | outBuf | reserved => rfl

theorem State.writeTarget_inert (s : State) {t : Target} (d : Word) (st : BitVec 4) (h : t.inert = true) :
    s.writeTarget t d st = s := by
  cases t with
  | reg r => cases r with
    | ident | cap | errcode | outLen | resPoff | resPlen | resIoff | resIlen => rfl
    | _ => cases h
  | inBuf => cases h
  | reservedReg | outBuf | reserved => rfl

/-- A write of an inert target answers the same state, with any strobe and in either engine state. -/
theorem State.busWrite_inert (s : State) {a : BitVec 18} (d : Word) (st : BitVec 4)
    (h : (target a).inert = true) : s.busWrite a d st = s := by
  rcases s.busWrite_cases a d st with e | ⟨-, hg, -, -⟩ | ⟨-, -, -, e⟩
  · exact e
  · exact absurd hg (by simp [Target.gated_of_inert h])
  · exact e.trans (s.writeTarget_inert d st h)

/-- A write without a strobe. -/
theorem State.busWrite_zero_strobe (s : State) (a : BitVec 18) (d : Word) :
    s.busWrite a d 0 = s := by
  rw [State.busWrite, if_pos rfl]

/-- A write of a gated target while BUSY is dropped (46_host_bus.md R244). -/
theorem State.busWrite_dropped {s : State} {a : BitVec 18} {st : BitVec 4} (d : Word) (hst : st ≠ 0)
    (hg : gatedAddr (wordAddr a)) (hb : s.fsm = .busy) : s.busWrite a d st = { s with ovr := true } := by
  simp only [State.busWrite]
  rw [if_neg hst, if_pos ⟨(gated_iff_gatedAddr a).mpr hg, hb⟩]

/-- A partial write of the register block that is not dropped (46_host_bus.md R243). -/
theorem State.busWrite_partial {s : State} {a : BitVec 18} {st : BitVec 4} (d : Word)
    (hr : wordAddr a < 0x100) (hst : st ≠ 0xF) (hg : ¬ (gatedAddr (wordAddr a) ∧ s.fsm = .busy)) :
    s.busWrite a d st = s := by
  rcases s.busWrite_cases a d st with e | ⟨-, hga, hb, -⟩ | ⟨-, -, hfull, -⟩
  · exact e
  · exact absurd ⟨(gated_iff_gatedAddr a).mp hga, hb⟩ hg
  · exact absurd (hfull ((target_inRegBlock_iff a).mpr hr)) hst

/-- Settles O13, by the order of the checks: the strobe, the gate, the register block. -/
theorem partialWritesChangeNothing : Obligations.PartialWritesChangeNothing := by
  intro a d st s
  simp only [exec_wr]
  refine ⟨?_, fun hr _ hst hg => ?_, fun _ h0 _ hg hb => ?_, fun h1 h2 => ?_⟩
  · rintro rfl
    rw [State.busWrite_zero_strobe]
  · rw [State.busWrite_partial d hr hst hg]
  · rw [State.busWrite_dropped d h0 hg hb]
  · rw [State.busWrite_inert s d st (target_inert (by simp only [wordAddr]; omega))]

/-- Settles O20: none of these addresses leads to a target a write can change. -/
theorem otherWritesHaveNoEffect : Obligations.OtherWritesHaveNoEffect := by
  intro a d st s w h
  rw [exec_wr, State.busWrite_inert s d st (target_inert h)]

/-! ### The registers that are written -/

theorem State.writeCtrl_of_srst (s : State) {d : Word} (h : d.getLsbD 1 = true) :
    s.writeCtrl d = s.hardReset := by
  rw [State.writeCtrl, if_pos h]
  rfl

theorem State.writeCtrl_of_no_srst (s : State) {d : Word} (h : d.getLsbD 1 = false) :
    s.writeCtrl d = { s with irqEn := d.getLsbD 0 } := by
  rw [State.writeCtrl, if_neg (Bool.eq_false_iff.mp h)]

theorem State.writeStatus_eq (s : State) (d : Word) :
    s.writeStatus d = { s with done := s.done && !d.getLsbD 1, ovr := s.ovr && !d.getLsbD 3 } := by
  unfold State.writeStatus
  split <;> split <;> simp_all [State.acknowledge]

/-- The issue of a command is the writes of 46_host_bus.md R246 and a choice of the schedule (log 1). -/
theorem State.issue_eq (s : State) (w : Word) :
    ∃ n ls k, s.issue w = { s.accept w with wait := n, latencies := ls, issues := k } := by
  cases hl : s.latencies with
  | nil => exact ⟨_, _, _, (s.accept w).drawWait_of_nil hl⟩
  | cons n rest => exact ⟨_, _, _, (s.accept w).drawWait_of_cons n rest hl⟩

/-- A full write at a register's offset, not gated or while IDLE, writes the register. -/
theorem exec_fullWrite {s : State} {a : BitVec 18} (r : Reg) (d : Word)
    (hg : r.gated = false ∨ s.fsm = .idle) (h : wordAddr a = r.offset) :
    exec (.wr a d 0xF) s = .next (s.writeReg r d) := by
  rw [exec_wr, State.busWrite_reg d (target_eq_reg_iff.mpr h) hg]

/-- Settles O15: CTRL is not gated, and its write is one of two equations. -/
theorem ctrlWriteSetsIrqEnableOrResets : Obligations.CtrlWriteSetsIrqEnableOrResets := by
  intro a d s ha
  rw [exec_fullWrite .ctrl d (.inl rfl) ha]
  exact ⟨fun h => congrArg _ (s.writeCtrl_of_no_srst h), fun h => congrArg _ (s.writeCtrl_of_srst h)⟩

/-- Settles O16: the write while IDLE is the issue, and while BUSY the gate drops it. -/
theorem cmdWriteIssuesACommand : Obligations.CmdWriteIssuesACommand := by
  intro a d s ha
  constructor
  · intro hi
    obtain ⟨n, ls, k, hissue⟩ := s.issue_eq d
    exact ⟨n, ls, k, (exec_fullWrite .cmd d (.inr hi) ha).trans (congrArg _ hissue)⟩
  · intro hb
    rw [exec_wr, State.busWrite_dropped d (by decide) (.inl ha) hb]

/-- Settles O17: STATUS is not gated. -/
theorem statusWriteClearsByWritingOne : Obligations.StatusWriteClearsByWritingOne := by
  intro a d s ha
  exact (exec_fullWrite .status d (.inl rfl) ha).trans (congrArg _ (s.writeStatus_eq d))

/-- Settles O18: while IDLE the gate is open at each operand register. -/
theorem operandWritesStoreTheData : Obligations.OperandWritesStoreTheData := by
  intro a d s hi
  have write (r : Reg) : wordAddr a = r.offset → exec (.wr a d 0xF) s = .next (s.writeReg r d) :=
    exec_fullWrite r d (.inr hi)
  exact ⟨write .keyLen,
    fun i h => write (.key i) (h.trans (Reg.offset_key i).symm),
    fun i h => write (.nonce i) (h.trans (Reg.offset_nonce i).symm),
    fun i h => write (.iv i) (h.trans (Reg.offset_iv i).symm),
    write .plen, write .ilen, write .inLen⟩

/-- Settles O19, by what IN_BUF reads after the write. -/
theorem inBufWritesStoreTheStrobedLanes : Obligations.InBufWritesStoreTheStrobedLanes := by
  intro a d st s o hwf hi ho ha
  have haddr : wordAddr a = 0x10000 + o := ha
  refine ⟨s.writeIn o d st, ?_, rfl, fun j hj => ?_, fun x hx => ?_⟩
  · rw [exec_wr, State.busWrite_inBuf d st hi (by omega) (by omega), haddr, Nat.add_sub_cancel_left]
  · rw [read_writeIn hwf, Nat.add_sub_cancel_left, lane]
    exact if_congr (by simp [hj]) rfl rfl
  · rw [read_writeIn hwf, if_neg (by omega)]

/-! ### What every write keeps -/

/-- Only a dropped write sets OVR. -/
theorem State.ovr_of_busWrite {s : State} {a : BitVec 18} {d : Word} {st : BitVec 4}
    (h : (s.busWrite a d st).ovr = true) : s.ovr = true ∨ (gatedAddr (wordAddr a) ∧ s.fsm = .busy) := by
  rcases s.busWrite_shapes a d st with e | ⟨-, hg, hb, -⟩ | ⟨-, -, e⟩ | ⟨-, -, -, e⟩ | ⟨-, -, e⟩ |
    ⟨-, -, _, _, _, _, _, _, _, e⟩ | ⟨-, -, o, e⟩
  · exact .inl (e ▸ h)
  · exact .inr ⟨(gated_iff_gatedAddr a).mp hg, hb⟩
  · cases hr : d.getLsbD 1 with
    | true => simp [e, s.writeCtrl_of_srst hr] at h
    | false => exact .inl (by simpa [e, s.writeCtrl_of_no_srst hr] using h)
  · exact .inl (by simpa [e] using h)
  · rw [e, s.writeStatus_eq] at h
    exact .inl (Bool.and_eq_true_iff.mp h).1
  · exact .inl (by simpa [e] using h)
  · exact .inl (by rwa [e] at h)

/-- The inputs of the command in flight, CMDW, the operand registers and IN_BUF, are in `t` as in `s`. -/
def SameInputs (s t : State) : Prop :=
  t.cmdw = s.cmdw ∧ t.keyLen = s.keyLen ∧ t.key = s.key ∧ t.nonce = s.nonce ∧ t.iv = s.iv ∧
    t.plen = s.plen ∧ t.ilen = s.ilen ∧ t.inLen = s.inLen ∧ t.inBuf = s.inBuf

/-- A write while BUSY that leaves the engine BUSY changes flags at most. -/
theorem State.busWrite_of_busy {s : State} {a : BitVec 18} {d : Word} {st : BitVec 4} (hb : s.fsm = .busy)
    (ht : (s.busWrite a d st).fsm = .busy) :
    ∃ irqEn done ovr, s.busWrite a d st = { s with irqEn := irqEn, done := done, ovr := ovr } := by
  have not_idle (hi : s.fsm = .idle) : False := Fsm.noConfusion (hi.symm.trans hb)
  rcases s.busWrite_shapes a d st with e | ⟨-, -, -, e⟩ | ⟨-, -, e⟩ | ⟨-, -, hi, -⟩ | ⟨-, -, e⟩ |
    ⟨-, hi, -⟩ | ⟨-, hi, -⟩
  · exact ⟨_, _, _, e⟩
  · exact ⟨_, _, _, e⟩
  · cases hr : d.getLsbD 1 with
    | true => simp [e, s.writeCtrl_of_srst hr] at ht
    | false => exact ⟨_, _, _, e.trans (s.writeCtrl_of_no_srst hr)⟩
  · exact (not_idle hi).elim
  · exact ⟨_, _, _, e.trans (s.writeStatus_eq d)⟩
  · exact (not_idle hi).elim
  · exact (not_idle hi).elim

/-- Such a write keeps the command's inputs, and the schedule's wait. -/
theorem State.sameInputs_busWrite {s : State} {a : BitVec 18} {d : Word} {st : BitVec 4}
    (hb : s.fsm = .busy) (ht : (s.busWrite a d st).fsm = .busy) :
    SameInputs s (s.busWrite a d st) ∧ (s.busWrite a d st).wait = s.wait := by
  obtain ⟨_, _, _, e⟩ := State.busWrite_of_busy hb ht
  simp [e, SameInputs]

/-- Settles O14: the gate, and what the write of any other target keeps. -/
theorem gatedWritesWhileBusyAreDropped : Obligations.GatedWritesWhileBusyAreDropped := by
  intro a d st s
  simp only [exec_wr]
  refine ⟨fun hst hg hb => ?_, fun hopen => ⟨_, rfl, fun h => ?_⟩, fun hb => ⟨_, rfl, fun ht => ?_⟩⟩
  · rw [State.busWrite_dropped d hst hg hb]
  · rcases State.ovr_of_busWrite h with h | ⟨hg, hb⟩
    · exact h
    · rcases hopen with hng | hi
      · exact absurd hg hng
      · cases hi.symm.trans hb
  · exact (State.sameInputs_busWrite hb ht).1

/-- The results in `t` are those of `s`, or all cleared. -/
def ResultsKeptOrCleared (s t : State) : Prop :=
  (t.outBuf = s.outBuf ∧ t.outLen = s.outLen ∧ t.resPoff = s.resPoff ∧ t.resPlen = s.resPlen ∧
      t.resIoff = s.resIoff ∧ t.resIlen = s.resIlen ∧ t.errcode = s.errcode) ∨
    (t.outBuf = [] ∧ t.noResult ∧ t.errcode = 0)

theorem ResultsKeptOrCleared.refl (s : State) : ResultsKeptOrCleared s s :=
  .inl ⟨rfl, rfl, rfl, rfl, rfl, rfl, rfl⟩

/-- Only an issue and a soft reset clear the results; no other write touches them. -/
theorem State.results_busWrite (s : State) (a : BitVec 18) (d : Word) (st : BitVec 4) :
    ResultsKeptOrCleared s (s.busWrite a d st) := by
  rcases s.busWrite_shapes a d st with e | ⟨-, -, -, e⟩ | ⟨-, -, e⟩ | ⟨-, -, -, e⟩ | ⟨-, -, e⟩ |
    ⟨-, -, _, _, _, _, _, _, _, e⟩ | ⟨-, -, o, e⟩ <;> rw [e]
  · exact .refl s
  · exact .refl s
  · cases hr : d.getLsbD 1 with
    | true =>
      rw [s.writeCtrl_of_srst hr]
      exact .inr ⟨rfl, ⟨rfl, rfl, rfl, rfl, rfl⟩, rfl⟩
    | false =>
      rw [s.writeCtrl_of_no_srst hr]
      exact .refl s
  · exact .inr (by simp [State.noResult])
  · rw [s.writeStatus_eq]
    exact .refl s
  · exact .refl s
  · exact .refl s

/-- Settles O21: OUT_BUF is inert, and every write keeps or clears the results. -/
theorem writesNeverProduceResults : Obligations.WritesNeverProduceResults := by
  intro a d st s
  refine ⟨fun h1 _ => ?_, s.busWrite a d st, exec_wr a d st s, s.results_busWrite a d st⟩
  rw [exec_wr, State.busWrite_inert s d st (target_inert (.inr (.inr (.inr (.inr (.inr h1))))))]

/-! ### The inputs of a command that runs -/

/-- Settles O34: from BUSY to BUSY only a transaction leads, and it takes one host step off `wait`. -/
theorem inputsAreFixedWhileACommandRuns : Obligations.InputsAreFixedWhileACommandRuns := by
  intro s t hb hstep ht
  have one_less {e : Event} {rest : List Event} (hturn : s.turn = .host e rest) :
      s.wait - 1 + 1 = s.wait := by
    rcases ((turn_host_iff s e rest).mp hturn).2 with hi | hw
    · cases hi.symm.trans hb
    · omega
  rcases step_cases hstep with ⟨hturn, -⟩ | ⟨-, rfl⟩ | ⟨rest, -, rfl⟩ | ⟨_, rest, a, hturn, -, rfl⟩ |
    ⟨_, rest, a, d, st, hturn, -, rfl⟩
  · cases ((turn_quiet_iff s).mp hturn).1.symm.trans hb
  · simp at ht
  · simp at ht
  · exact ⟨rfl, rfl, rfl, rfl, rfl, rfl, rfl, rfl, rfl, one_less hturn⟩
  · obtain ⟨⟨hcmdw, hkeyLen, hkey, hnonce, hiv, hplen, hilen, hinLen, hinBuf⟩, hwait⟩ :=
      State.sameInputs_busWrite (s := { s with inputs := rest, wait := s.wait - 1 }) hb ht
    exact ⟨hcmdw, hkeyLen, hkey, hnonce, hiv, hplen, hilen, hinLen, hinBuf, hwait ▸ one_less hturn⟩

end Sys2Proof.Machine

/-! PROOFS for 60_exceptions.md: an idle step with no event (O8), the completion of a command after finitely
many steps (O10), the errors of each command (O27), what a completion shows (O28) and keeps (O29), and the
level of IRQ (O36). -/

namespace Sys2Proof.Machine

/-! ### The idle machine, R288 -/

/-- Settles O8: it is nobody's turn. -/
theorem idleWithoutEventsDoesNothing : Obligations.IdleWithoutEventsDoesNothing :=
  fun s hi hin => step_of_quiet ((turn_quiet_iff s).mpr ⟨hi, hin⟩)

/-! ### A command comes to its end, R274 -/

/-- The engine's step sets DONE. -/
theorem done_of_engine_step {s t : State} (ht : s.turn = .engine) (h : step s = .next t) : t.done = true := by
  cases (step_of_engine ht).symm.trans h
  exact State.complete_done _ _

/-- A step that makes a BUSY engine IDLE is the engine's, which sets DONE, or a reset. -/
theorem busy_to_idle_step {s t : State} (hb : s.fsm = .busy) (h : step s = .next t) (hi : t.fsm = .idle) :
    (s.turn = .engine ∧ t.done = true) ∨ s.resetsNext :=
  ((flagStep_of_step h).busy_to_idle hb hi).imp_left fun ht => ⟨ht, done_of_engine_step ht h⟩

/-- Settles O10, by induction on `wait`, which every step that leaves the engine BUSY makes smaller. -/
theorem everyCommandCompletesOrIsResetAfterFinitelyManySteps :
    Obligations.EveryCommandCompletesOrIsResetAfterFinitelyManySteps := by
  intro s hwf hb
  induction hn : s.wait generalizing s with
  | zero =>
    have ht : s.turn = .engine := (turn_engine_iff s).mpr ⟨hb, .inl hn⟩
    exact ⟨0, le_rfl, s, _, rfl, hb, rfl, step_of_engine ht, by simp, .inl ⟨ht, by simp⟩⟩
  | succ n ih =>
    obtain ⟨t, hstep, hwf'⟩ := step_of_inputsWf hwf
    cases hf : t.fsm with
    | idle => exact ⟨0, Nat.zero_le _, s, t, rfl, hb, rfl, hstep, hf, busy_to_idle_step hb hstep hf⟩
    | busy =>
      obtain ⟨hcmdw, -, -, -, -, -, -, -, -, hwait⟩ := inputsAreFixedWhileACommandRuns s t hb hstep hf
      obtain ⟨k, hk, u, v, hrun, hub, hucmdw, hlast⟩ := ih t hwf' hf (by omega)
      exact ⟨k + 1, by omega, u, v, (run_succ k hstep).trans hrun, hub, hucmdw.trans hcmdw, hlast⟩

/-! ### The errors of each command, R270 -/

/-- Every error of the outcome is one of `es`. -/
def RaisesOnly {α : Type} (es : List Err) (r : Except Err α) : Prop := ∀ e, r = .error e → e ∈ es

namespace RaisesOnly

variable {α β : Type} {es fs : List Err}

theorem ok (a : α) : RaisesOnly es (.ok a) := by
  intro e h
  cases h

theorem error {e : Err} (he : e ∈ es) : RaisesOnly es (.error e : Except Err α) := by
  intro e' h
  cases h
  exact he

theorem mono {r : Except Err α} (h : RaisesOnly es r) (hsub : es ⊆ fs) : RaisesOnly fs r :=
  fun e he => hsub (h e he)

/-- One check of a command: its own error, or what the rest raises. -/
theorem ite {p : Prop} [Decidable p] {r r' : Except Err α} (h : RaisesOnly es r) (h' : RaisesOnly es r') :
    RaisesOnly es (if p then r else r') := by
  split
  · exact h
  · exact h'

theorem bind {r : Except Err α} {f : α → Except Err β} (h : RaisesOnly es r)
    (hf : ∀ a, RaisesOnly es (f a)) : RaisesOnly es (r.bind f) := by
  cases r with
  | error e => exact .error (h e rfl)
  | ok a => exact hf a

theorem map {r : Except Err α} (h : RaisesOnly es r) (f : α → β) : RaisesOnly es (r.map f) := by
  cases r with
  | error e => exact .error (h e rfl)
  | ok a => exact .ok (f a)

/-- From ERRCODE = 0 a completion leaves 0 or the code of one of the outcome's errors. -/
theorem errcode_mem {s : State} {r : Except Err Output} (h : RaisesOnly es r) (h0 : s.errcode = 0) :
    (s.complete r).errcode ∈ 0 :: es.map Err.code := by
  cases r with
  | ok o => exact List.mem_cons.mpr (.inl h0)
  | error e => exact List.mem_cons_of_mem _ (List.mem_map_of_mem (h e rfl))

end RaisesOnly

/-- The errors of ENCODE. -/
def encodeErrors : List Err := [.invalidKeySize, .capacityExceeded]

/-- The errors of the checks DECODE and DECODE_XIV share, which are all of DECODE_XIV's. -/
def decodeXivErrors : List Err :=
  [.invalidKeySize, .shortCiphertext, .unalignedCiphertext, .invalidPadding, .truncatedPlaintext,
    .capacityExceeded]

/-- The errors of DECODE: the shared ones and the parser's. -/
def decodeErrors : List Err := .lengthOverflow :: decodeXivErrors

/-- The errors of DECODE_LENIENT, which makes no padding check. -/
def decodeLenientErrors : List Err :=
  [.invalidKeySize, .shortCiphertext, .unalignedCiphertext, .lengthOverflow, .base64DecodeError,
    .capacityExceeded]

theorem encodeOutcome_raisesOnly (s : State) : RaisesOnly encodeErrors (encodeOutcome s) :=
  .ite (.error (by decide)) (.ite (.error (by decide)) (.ok _))

theorem padValidate_raisesOnly (d : List Byte) :
    RaisesOnly [.invalidPadding, .truncatedPlaintext] (padValidate d) :=
  .ite (.error (by decide)) (.ite (.error (by decide)) (.ok _))

theorem lenParse_raisesOnly (d : List Byte) (t : Nat) : RaisesOnly [.lengthOverflow] (lenParse d t) :=
  .ite (.error (by decide)) (.ok _)

theorem State.checkedTextLen_raisesOnly (s : State) (unit : Nat) (d : List Byte) :
    RaisesOnly decodeXivErrors (s.checkedTextLen unit d) :=
  .ite (.error (by decide)) <| .ite (.error (by decide)) <| .ite (.error (by decide)) <|
    .ite (.error (by decide)) ((padValidate_raisesOnly d).mono (by decide))

theorem decodeXivOutcome_raisesOnly (s : State) : RaisesOnly decodeXivErrors (decodeXivOutcome s) := by
  rw [decodeXivOutcome_eq]
  exact (s.checkedTextLen_raisesOnly 16 _).map _

theorem decodeOutcome_raisesOnly (s : State) : RaisesOnly decodeErrors (decodeOutcome s) := by
  rw [decodeOutcome_eq]
  exact ((s.checkedTextLen_raisesOnly 32 _).mono (by decide)).bind fun t =>
    ((lenParse_raisesOnly _ t).mono (by decide)).map _

theorem decodeLenientOutcome_raisesOnly (s : State) :
    RaisesOnly decodeLenientErrors (decodeLenientOutcome s) := by
  refine .ite (.error (by decide)) ?_
  cases b64Dec s.params (s.inBytes 0 s.inLen.toNat) with
  | none => exact .error (by decide)
  | some b =>
    exact .ite (.error (by decide)) <| .ite (.error (by decide)) <| .ite (.error (by decide)) <|
      .ite (.error (by decide)) (.ok _)

/-- The codes of ENCODE are 1 and 9. -/
theorem encodeErrors_code : ∀ c ∈ 0 :: encodeErrors.map Err.code, c = 0 ∨ c = 1 ∨ c = 9 := by decide

/-- The codes of DECODE are 1 to 6 and 9. -/
theorem decodeErrors_code : ∀ c ∈ 0 :: decodeErrors.map Err.code,
    c.toNat ≠ 7 ∧ c.toNat ≠ 8 ∧ c.toNat ≤ 9 := by decide

/-- The codes of DECODE_XIV are 1 to 5 and 9. -/
theorem decodeXivErrors_code : ∀ c ∈ 0 :: decodeXivErrors.map Err.code, c.toNat ≤ 5 ∨ c = 9 := by decide

/-- The codes of DECODE_LENIENT are 1 to 3, 6, 7 and 9. -/
theorem decodeLenientErrors_code : ∀ c ∈ 0 :: decodeLenientErrors.map Err.code,
    c.toNat ≠ 4 ∧ c.toNat ≠ 5 ∧ c.toNat ≠ 8 ∧ c.toNat ≤ 9 := by decide

/-- Settles O27: the errors each outcome can raise, and the code a completion makes of one. -/
theorem eachCommandRaisesOnlyItsOwnErrors : Obligations.EachCommandRaisesOnlyItsOwnErrors := by
  intro s h0
  exact ⟨⟨_, exec_encode s, encodeErrors_code _ ((encodeOutcome_raisesOnly s).errcode_mem h0)⟩,
    ⟨_, exec_decode s, decodeErrors_code _ ((decodeOutcome_raisesOnly s).errcode_mem h0)⟩,
    ⟨_, exec_decodeXiv s, decodeXivErrors_code _ ((decodeXivOutcome_raisesOnly s).errcode_mem h0)⟩,
    ⟨_, exec_decodeLenient s,
      decodeLenientErrors_code _ ((decodeLenientOutcome_raisesOnly s).errcode_mem h0)⟩⟩

/-! ### What a completion shows and keeps, R276 and R277 -/

/-- With OUT_LEN 0 every OUT_BUF byte is 0 (10_state.md R44). -/
theorem MachineInv.read_outBuf_of_outLen {s : State} (h : MachineInv s) (hlen : s.outLen = 0) (x : Nat) :
    s.outBuf.read x = 0 := by
  have hnil : s.outBuf = [] := List.eq_nil_iff_forall_not_mem.mpr fun c hc => by
    simpa [hlen] using h.outBound c hc
  simp [hnil]

/-- Settles O28: the invariant, which the step keeps, has no result beside an error. -/
theorem aFailedCommandShowsNoResult : Obligations.AFailedCommandShowsNoResult := by
  intro s t h _ hstep herr
  have ht : MachineInv t := everyStepKeepsTheInvariant s t h hstep
  exact ⟨ht.failed herr, ht.read_outBuf_of_outLen (ht.failed herr).1⟩

/-- Settles O29, by the fields of a completion. -/
theorem everyCompletionConsumesTheKey : Obligations.EveryCompletionConsumesTheKey := by
  intro s hb hdue
  refine ⟨_, step_of_engine ((turn_engine_iff s).mpr ⟨hb, hdue⟩), ?_⟩
  simp

/-! ### The interrupt, R280 -/

theorem State.irq_iff (s : State) : s.irq = true ↔ s.irqEn = true ∧ s.done = true :=
  Bool.and_eq_true_iff

namespace FlagStep

variable {s : State} {f : Flags}

/-- Only a CTRL write with DATA[0] = 1 sets IRQ_EN. -/
theorem irqEn_set (h : FlagStep s f) (h0 : s.irqEn = false) (h1 : f.irqEn = true) :
    ∃ d, s.writesNext 0x008 d 0xF ∧ d.getLsbD 0 = true := by
  cases h with
  | @enable d hw => exact ⟨d, hw, h1⟩
  | reset => cases h1
  | kept | completion | dropped | issue | status => cases h0.symm.trans h1

/-- Only a CTRL write with DATA[0] = 0 or a reset clears IRQ_EN. -/
theorem irqEn_cleared (h : FlagStep s f) (h1 : s.irqEn = true) (h0 : f.irqEn = false) :
    (∃ d, s.writesNext 0x008 d 0xF ∧ d.getLsbD 0 = false) ∨ s.resetsNext := by
  cases h with
  | @enable d hw => exact .inl ⟨d, hw, h0⟩
  | reset hr => exact .inr hr
  | kept | completion | dropped | issue | status => cases h1.symm.trans h0

end FlagStep

/-- After the engine's step IRQ is IRQ_EN. -/
theorem irq_of_engine_step {s t : State} (ht : s.turn = .engine) (h : step s = .next t) :
    t.irq = s.irqEn := by
  cases (step_of_engine ht).symm.trans h
  simp [State.irq]

/-- What raises IRQ: DONE is set, or IRQ_EN is while DONE is 1. -/
theorem irq_raised {s t : State} (h : step s = .next t) (h0 : s.irq = false) (h1 : t.irq = true) :
    s.turn = .engine ∨ (s.done = true ∧ ∃ d, s.writesNext 0x008 d 0xF ∧ d.getLsbD 0 = true) := by
  obtain ⟨hen, hdone⟩ := t.irq_iff.mp h1
  have hf := flagStep_of_step h
  cases hd : s.done with
  | false => exact .inl (hf.done_set hd hdone)
  | true =>
    have hen0 : s.irqEn = false := by simpa [State.irq, hd] using h0
    exact .inr ⟨rfl, hf.irqEn_set hen0 hen⟩

/-- What lowers IRQ: DONE is cleared, or IRQ_EN is. -/
theorem irq_lowered {s t : State} (h : step s = .next t) (h1 : s.irq = true) (h0 : t.irq = false) :
    (∃ d, s.writesNext 0x010 d 0xF ∧ d.getLsbD 1 = true) ∨ (∃ d, s.writesNext 0x00C d 0xF) ∨
      (∃ d, s.writesNext 0x008 d 0xF ∧ d.getLsbD 0 = false) ∨ s.resetsNext := by
  obtain ⟨hen, hdone⟩ := s.irq_iff.mp h1
  have hf := flagStep_of_step h
  cases hd : t.done with
  | false =>
    rcases hf.done_cleared hdone hd with hstatus | hcmd | hreset
    · exact .inl hstatus
    · exact .inr (.inl hcmd)
    · exact .inr (.inr (.inr hreset))
  | true =>
    have hen0 : t.irqEn = false := by simpa [State.irq, hd] using h0
    exact .inr (.inr (hf.irqEn_cleared hen hen0))

/-- Settles O36, by what a step can do to IRQ_EN and DONE. -/
theorem irqFollowsItsLevel : Obligations.IrqFollowsItsLevel :=
  ⟨State.irq_iff, fun _ _ h ht => irq_of_engine_step ht h, fun _ _ => irq_raised, fun _ _ => irq_lowered⟩

end Sys2Proof.Machine

/-! PROOFS for 70_reset_and_hazards.md: a command without a key fails (O30), a hardware reset restores every
reset value (O37), and the invariant holds after reset (O39). -/

namespace Sys2Proof.Machine

/-! ### A command needs the key, R308 -/

/-- A command completes, and with a success only where KEY_LEN is 32 (40_cipher.md R101). -/
theorem exec_complete_of_isCommand {i : Instr} (hc : isCommand i = true) (s : State) :
    ∃ r, exec i s = .next (s.complete r) ∧ ∀ o, r = .ok o → s.keyLen = 32 := by
  cases i with
  | rd a => cases hc
  | wr a d st => cases hc
  | encode => exact ⟨_, exec_encode s, fun _ h => (encodeOutcome_checks h).1⟩
  | decode =>
    refine ⟨_, exec_decode s, fun _ h => ?_⟩
    obtain ⟨-, -, -, hk, -⟩ := decodeOutcome_ok h
    exact hk
  | decodeXiv =>
    refine ⟨_, exec_decodeXiv s, fun _ h => ?_⟩
    obtain ⟨-, -, -, hk, -⟩ := decodeXivOutcome_ok h
    exact hk
  | decodeLenient =>
    refine ⟨_, exec_decodeLenient s, fun _ h => ?_⟩
    obtain ⟨-, hk, -⟩ := decodeLenientOutcome_ok h
    exact hk

/-- Settles O30: with KEY_LEN = 0 the outcome is no success, so it is an error. -/
theorem aSecondCommandNeedsTheKeyAgain : Obligations.ASecondCommandNeedsTheKeyAgain := by
  intro s i hc h0
  obtain ⟨r, hexec, hkey⟩ := exec_complete_of_isCommand hc s
  cases r with
  | ok o => exact absurd (h0.symm.trans (hkey o rfl)) (by decide)
  | error e => exact ⟨e.code, e.code_ne_zero, hexec⟩

/-! ### Reset, R300 and R302 -/

/-- STATUS reads 0 after a reset, whatever the state was (10_state.md R28). -/
@[simp] theorem State.statusWord_hardReset (s : State) : s.hardReset.statusWord = 0 := by
  simp [State.statusWord, State.busyFlag, State.errFlag, flagWord_eq_ite]

theorem State.busRead_ident (s : State) : s.busRead 0x00000 = 0x454E5631 :=
  s.busRead_reg (r := .ident) (by decide)

theorem State.busRead_cap (s : State) : s.busRead 0x00004 = BitVec.ofNat 32 s.params.bufBytes :=
  s.busRead_reg (r := .cap) (by decide)

theorem State.busRead_status (s : State) : s.busRead 0x00010 = s.statusWord :=
  s.busRead_reg (r := .status) (by decide)

/-- Settles O37, by the fields and the registers of the state a reset leaves. -/
theorem hardwareResetRestoresEveryResetValue : Obligations.HardwareResetRestoresEveryResetValue := by
  intro s rest hin hturn
  refine ⟨_, step_of_reset ((turn_host_iff s .reset rest).mpr ⟨hin, hturn⟩), ?_⟩
  rw [State.busRead_status, State.busRead_ident, State.busRead_cap]
  simp [State.noResult, State.irq]

/-- Settles O39: a reset of `State.reset` leaves it, and R8 allows the default parameters. -/
theorem invariantHoldsAtReset : Obligations.InvariantHoldsAtReset :=
  MachineInv.hardReset (s := State.reset) (by decide)

end Sys2Proof.Machine

/-! PROOFS for 80_aes256_reference.md: the S-box table against the field (O44), and AES-256 on the vector of
FIPS-197 (O45). -/

namespace Sys2Proof.Machine

/-! ### The S-box, R331 to R333 -/

/-- The affine transform of R332. -/
def affine (b : Byte) : Byte :=
  b ^^^ b.rotateLeft 1 ^^^ b.rotateLeft 2 ^^^ b.rotateLeft 3 ^^^ b.rotateLeft 4 ^^^ 0x63

/-- The inverse of the affine transform. -/
def unaffine (x : Byte) : Byte := x.rotateLeft 1 ^^^ x.rotateLeft 3 ^^^ x.rotateLeft 6 ^^^ 0x05

theorem affine_unaffine : ∀ x : Byte, affine (unaffine x) = x := by decide +kernel

theorem unaffine_sbox_zero : unaffine (sbox 0) = 0 := by decide

/-- The affine preimage of a nonzero byte's table entry is the byte's inverse in the field. -/
theorem gmul_unaffine_sbox : ∀ a : Byte, a ≠ 0 → gmul a (unaffine (sbox a)) = 1 := by decide +kernel

/-- Settles O44: the inverse is the affine preimage of the entry. -/
theorem sboxTableIsTheAffineInverse : Obligations.SboxTableIsTheAffineInverse := by
  refine ⟨fun a => ⟨unaffine (sbox a), ?_, (affine_unaffine (sbox a)).symm⟩,
    fun a => ⟨invSbox_sbox a, sbox_invSbox a⟩⟩
  split
  · next h => rw [h, unaffine_sbox_zero]
  · next h => exact gmul_unaffine_sbox a h

/-! ### The vector, R339 -/

/-- Settles O45: the encryption by evaluation, the decryption because it undoes the encryption. -/
theorem aesAgreesWithTheFipsVector : Obligations.AesAgreesWithTheFipsVector := by
  unfold Obligations.AesAgreesWithTheFipsVector
  intro k b c
  have henc : aesE k b = c := by decide +kernel
  exact ⟨henc, henc ▸ aesD_aesE k b⟩

end Sys2Proof.Machine
